-- ==== Sys2Proof/Word.lean ====
section
/-! DEFINITION. Word types of the engine (00_scope.md R8, 20_memory.md R50 to R53). -/

namespace Sys2Proof

/-- A control register value or a command word: 32 bits, bit 0 least significant (R8, R70). -/
abbrev Word := BitVec 32

/-- The value of a 16-bit host access, which the engine always rejects (R52, R53). -/
abbrev Half := BitVec 16

/-- A byte of the buffer `BUF` (R33). -/
abbrev Byte := BitVec 8

/-- A byte offset of the engine's offset space, `0x0000` to `0xFFFF` (R50). -/
abbrev Offset := BitVec 16

end Sys2Proof
end

