-- ==== Sys2Proof/Syntax.lean ====
section
/-! DEFINITION. The twelve commands (30_encoding.md R73), the raw fields of format C (R71), and the host's
operations (00_scope.md R10). -/

namespace Sys2Proof

/-- The eight big registers `N E D A B X Y G` (10_state.md R22). -/
inductive Reg where
  | n | e | d | a | b | x | y | g
  deriving DecidableEq, Repr

/-- The commands, one constructor for each row of the opcode table, with the register fields the command uses in
the order `rd, rs1, rs2` (30_encoding.md R73, R78). -/
inductive Instr where
  /-- Load integer (R101). -/
  | ldi (rd : Reg)
  /-- Load optional integer (R102). -/
  | ldo (rd : Reg)
  /-- Store integer (R103). -/
  | sti (rs1 : Reg)
  /-- Store magnitude (R104). -/
  | stm (rs1 : Reg)
  /-- Copy a big register (R105). -/
  | mov (rd rs1 : Reg)
  /-- Make a big register absent (R106). -/
  | clr (rd : Reg)
  /-- Extended Euclid into `X`, `Y`, `G` (R122). -/
  | egcd (rs1 rs2 : Reg)
  /-- Greatest common divisor (R123). -/
  | gcd (rd rs1 rs2 : Reg)
  /-- Least common multiple (R124). -/
  | lcm (rd rs1 rs2 : Reg)
  /-- Modular inverse (R125). -/
  | modinv (rd rs1 rs2 : Reg)
  /-- Public transform (R141). -/
  | pub (rd rs1 : Reg)
  /-- Private transform (R142). -/
  | prv (rd rs1 : Reg)
  deriving DecidableEq, Repr

/-- The mnemonics of the opcode map (R73). -/
inductive Mnemonic where
  | ldi | ldo | sti | stm | mov | clr | egcd | gcd | lcm | modinv | pub | prv
  deriving DecidableEq, Repr

/-- A command as an assembler sees it before any check: a mnemonic and the four other fields of format C (R71). -/
structure RawCommand where
  mnemonic : Mnemonic
  rd : BitVec 4
  rs1 : BitVec 4
  rs2 : BitVec 4
  zero : BitVec 12
  deriving DecidableEq, Repr

/-- The host's operations (R10), the platform's hard reset (R190), and the host's own control flow over the values
it reads (43_host_sequences.md R165). -/
inductive HostOp where
  /-- `wr`: a 32-bit write. -/
  | wr (off : Offset) (v : Word)
  /-- `rd`: a 32-bit read. -/
  | rd (off : Offset)
  /-- `wrb`: an 8-bit write. -/
  | wrb (off : Offset) (v : Byte)
  /-- `rdb`: an 8-bit read. -/
  | rdb (off : Offset)
  /-- A 16-bit write, rejected everywhere (R52, R53). -/
  | wrh (off : Offset) (v : Half)
  /-- A 16-bit read, rejected everywhere (R52, R53). -/
  | rdh (off : Offset)
  /-- The platform asserts the hard reset input (R190). -/
  | assertReset
  /-- The platform releases the hard reset input (R190). -/
  | releaseReset
  /-- `wait`: read `STATUS` until it says `BUSY = 0` (R10). -/
  | wait
  /-- The error check after `wait`: on `ERR`, read the code, acknowledge, and fail the sequence (R166). -/
  | check
  /-- `GETBYTES`: read `LEN`, then that many buffer bytes (R161). -/
  | getBytes
  /-- Read `RFLAGS`, and `STORE` the register only when it is present (R167, saving an optional `D`). -/
  | storeIfPresent (r : Reg)
  /-- Sleep until the interrupt line is high (R165, R178). -/
  | waitIrq
  deriving DecidableEq, Repr

/-- What happens next: a turn of the engine or an operation of the host (20_memory.md R57). -/
inductive Event where
  /-- The engine gets a turn: it completes the command in execution, if there is one. -/
  | engine
  /-- The host performs its next operation. -/
  | host (op : HostOp)
  deriving DecidableEq, Repr

end Sys2Proof
end

