-- ==== Sys2Proof/WellFormed.lean ====
section
/-! DEFINITION. Which raw commands are legal (30_encoding.md R72, R73): a register field the command uses holds 0 to
7, a field it does not use holds 0, and the `zero` field holds 0. An `Instr` has register names in place of fields,
so an ill-formed command is no `Instr` at all; the check is on `RawCommand`. -/

namespace Sys2Proof

/-- The command uses its `rd` field (R73). -/
def Mnemonic.usesRd : Mnemonic → Bool
  | .ldi | .ldo | .mov | .clr | .gcd | .lcm | .modinv | .pub | .prv => true
  | .sti | .stm | .egcd => false

/-- The command uses its `rs1` field (R73). -/
def Mnemonic.usesRs1 : Mnemonic → Bool
  | .sti | .stm | .mov | .egcd | .gcd | .lcm | .modinv | .pub | .prv => true
  | .ldi | .ldo | .clr => false

/-- The command uses its `rs2` field (R73). -/
def Mnemonic.usesRs2 : Mnemonic → Bool
  | .egcd | .gcd | .lcm | .modinv => true
  | .ldi | .ldo | .sti | .stm | .mov | .clr | .pub | .prv => false

/-- A used register field names one of eight registers; an unused one holds 0 (R72). -/
def registerFieldLegal (used : Bool) (field : BitVec 4) : Bool :=
  if used then decide (field < 8#4) else decide (field = 0#4)

/-- The checks of R72 on one raw command. -/
def RawCommand.wellFormed (c : RawCommand) : Bool :=
  registerFieldLegal c.mnemonic.usesRd c.rd
    && registerFieldLegal c.mnemonic.usesRs1 c.rs1
    && registerFieldLegal c.mnemonic.usesRs2 c.rs2
    && decide (c.zero = 0#12)

end Sys2Proof
end

