-- ==== Sys2Proof/Decode.lean ====
section
/-! DEFINITION. Decoding and encoding of command words (30_encoding.md R71 to R76). `decode` is total on all words
and follows the match and mask pairs of R73 as R74 does; it rejects by name. After it the encoder, from the field
layout of R71 and the opcodes of R73. -/

namespace Sys2Proof

/-- One row of the match and mask table of R73. -/
structure DecodeRow where
  mnemonic : Mnemonic
  pattern : Word
  mask : Word
  deriving DecidableEq, Repr

/-- Why a word is no command (R76). All of them fail with the same code. -/
inductive IllegalWord where
  /-- The opcode is none of R73. -/
  | unknownOpcode
  /-- The `zero` field is not 0. -/
  | zeroFieldSet
  /-- A register field the command does not use is not 0. -/
  | unusedFieldSet
  /-- A register field the command uses holds 8 to 15. -/
  | reservedRegister
  deriving DecidableEq, Repr

/-- The match and mask table of R73, row by row. -/
def decodeTable : List DecodeRow :=
  [ ⟨.ldi,    0x01000000#32, 0xFF8FFFFF#32⟩,
    ⟨.ldo,    0x02000000#32, 0xFF8FFFFF#32⟩,
    ⟨.sti,    0x03000000#32, 0xFFF8FFFF#32⟩,
    ⟨.stm,    0x04000000#32, 0xFFF8FFFF#32⟩,
    ⟨.mov,    0x05000000#32, 0xFF88FFFF#32⟩,
    ⟨.clr,    0x06000000#32, 0xFF8FFFFF#32⟩,
    ⟨.egcd,   0x10000000#32, 0xFFF88FFF#32⟩,
    ⟨.gcd,    0x11000000#32, 0xFF888FFF#32⟩,
    ⟨.lcm,    0x12000000#32, 0xFF888FFF#32⟩,
    ⟨.modinv, 0x13000000#32, 0xFF888FFF#32⟩,
    ⟨.pub,    0x20000000#32, 0xFF88FFFF#32⟩,
    ⟨.prv,    0x21000000#32, 0xFF88FFFF#32⟩ ]

/-- The word is a command of this row: `w and mask = match` (R73). -/
def DecodeRow.matchesWord (r : DecodeRow) (w : Word) : Bool := w &&& r.mask == r.pattern

/-- The big register with a given index (10_state.md R22). -/
def Reg.ofIndex (i : BitVec 3) : Reg :=
  match i.toNat with
  | 0 => .n
  | 1 => .e
  | 2 => .d
  | 3 => .a
  | 4 => .b
  | 5 => .x
  | 6 => .y
  | _ => .g

/-- The index of a big register (10_state.md R22). -/
def Reg.index : Reg → BitVec 3
  | .n => 0#3
  | .e => 1#3
  | .d => 2#3
  | .a => 3#3
  | .b => 4#3
  | .x => 5#3
  | .y => 6#3
  | .g => 7#3

/-- The command of a mnemonic and the three register operands; an operand the command does not use is dropped. -/
def Instr.make (m : Mnemonic) (rd rs1 rs2 : Reg) : Instr :=
  match m with
  | .ldi => .ldi rd
  | .ldo => .ldo rd
  | .sti => .sti rs1
  | .stm => .stm rs1
  | .mov => .mov rd rs1
  | .clr => .clr rd
  | .egcd => .egcd rs1 rs2
  | .gcd => .gcd rd rs1 rs2
  | .lcm => .lcm rd rs1 rs2
  | .modinv => .modinv rd rs1 rs2
  | .pub => .pub rd rs1
  | .prv => .prv rd rs1

/-- The mnemonic with a given opcode (R73). -/
def Mnemonic.ofOpcode? (op : BitVec 8) : Option Mnemonic :=
  match op.toNat with
  | 0x01 => some .ldi
  | 0x02 => some .ldo
  | 0x03 => some .sti
  | 0x04 => some .stm
  | 0x05 => some .mov
  | 0x06 => some .clr
  | 0x10 => some .egcd
  | 0x11 => some .gcd
  | 0x12 => some .lcm
  | 0x13 => some .modinv
  | 0x20 => some .pub
  | 0x21 => some .prv
  | _ => none

/-- The opcode of a mnemonic (R73). -/
def Mnemonic.opcode : Mnemonic → BitVec 8
  | .ldi => 0x01#8
  | .ldo => 0x02#8
  | .sti => 0x03#8
  | .stm => 0x04#8
  | .mov => 0x05#8
  | .clr => 0x06#8
  | .egcd => 0x10#8
  | .gcd => 0x11#8
  | .lcm => 0x12#8
  | .modinv => 0x13#8
  | .pub => 0x20#8
  | .prv => 0x21#8

/-- The fields of format C (R71), when the opcode is one of R73. -/
def RawCommand.ofWord? (w : Word) : Option RawCommand :=
  match Mnemonic.ofOpcode? (w.extractLsb' 24 8) with
  | some m =>
    some { mnemonic := m
           rd := w.extractLsb' 20 4
           rs1 := w.extractLsb' 16 4
           rs2 := w.extractLsb' 12 4
           zero := w.extractLsb' 0 12 }
  | none => none

/-- The word with given fields (R71). -/
def RawCommand.toWord (c : RawCommand) : Word :=
  c.mnemonic.opcode ++ c.rd ++ c.rs1 ++ c.rs2 ++ c.zero

/-- The name of what makes an illegal word illegal (R76). -/
def illegalReason (w : Word) : IllegalWord :=
  match RawCommand.ofWord? w with
  | none => .unknownOpcode
  | some c =>
    if c.zero ≠ 0#12 then .zeroFieldSet
    else if (!c.mnemonic.usesRd && c.rd != 0#4) || (!c.mnemonic.usesRs1 && c.rs1 != 0#4)
        || (!c.mnemonic.usesRs2 && c.rs2 != 0#4) then .unusedFieldSet
    else .reservedRegister

/-- `decode(w)` of R74: the first row that matches, with `rd = w[22:20]`, `rs1 = w[18:16]`, `rs2 = w[14:12]`;
otherwise illegal. -/
def decode (w : Word) : Except IllegalWord Instr :=
  match decodeTable.find? (fun r => r.matchesWord w) with
  | some r =>
    .ok (Instr.make r.mnemonic (Reg.ofIndex (w.extractLsb' 20 3)) (Reg.ofIndex (w.extractLsb' 16 3))
      (Reg.ofIndex (w.extractLsb' 12 3)))
  | none => .error (illegalReason w)

/-- A register as the field that names it: bit 3 is 0 (R72). -/
def Reg.field (r : Reg) : BitVec 4 := 0#1 ++ r.index

/-- The raw fields of a command; a field the command does not use is 0 (R72). -/
def Instr.raw : Instr → RawCommand
  | .ldi rd => ⟨.ldi, rd.field, 0, 0, 0⟩
  | .ldo rd => ⟨.ldo, rd.field, 0, 0, 0⟩
  | .sti rs1 => ⟨.sti, 0, rs1.field, 0, 0⟩
  | .stm rs1 => ⟨.stm, 0, rs1.field, 0, 0⟩
  | .mov rd rs1 => ⟨.mov, rd.field, rs1.field, 0, 0⟩
  | .clr rd => ⟨.clr, rd.field, 0, 0, 0⟩
  | .egcd rs1 rs2 => ⟨.egcd, 0, rs1.field, rs2.field, 0⟩
  | .gcd rd rs1 rs2 => ⟨.gcd, rd.field, rs1.field, rs2.field, 0⟩
  | .lcm rd rs1 rs2 => ⟨.lcm, rd.field, rs1.field, rs2.field, 0⟩
  | .modinv rd rs1 rs2 => ⟨.modinv, rd.field, rs1.field, rs2.field, 0⟩
  | .pub rd rs1 => ⟨.pub, rd.field, rs1.field, 0, 0⟩
  | .prv rd rs1 => ⟨.prv, rd.field, rs1.field, 0, 0⟩

/-- `encode` of R74. -/
def encode (i : Instr) : Word := i.raw.toWord

/-- The command in the low `nbits` bits of `w`, numbered as the opcode table numbers them: one 32-bit word, its bit 0
least significant. A command is one word (R70), so a number that does not fit in 32 bits is none. -/
def decodeTableWord (nbits w : Nat) : Option Instr :=
  if w < 2 ^ 32 then
    match decode (BitVec.ofNat 32 (w % 2 ^ nbits)) with
    | .ok i => some i
    | .error _ => none
  else none

end Sys2Proof
end

