-- ==== Sys2Proof/Config.lean ====
section
/-! DEFINITION. What one instance of the engine fixes, and the free values (00_scope.md R5, R6;
93_implementation_defined.md V1, V2, V11, V14). The constants without a body are open: nothing in Lean can
evaluate one or prove a value of one. -/

namespace Sys2Proof

/-- The parameters of an instance: `NBYTES = NBITS / 8` (R5) and `BUFBYTES` (R6). `NBITS` is a multiple of 8 by
construction. -/
structure Params where
  /-- `NBYTES`: the width in bytes of the magnitude of every big register. -/
  nbytes : Nat
  /-- `BUFBYTES`: the size in bytes of the buffer. -/
  bufBytes : Nat
  deriving DecidableEq, Repr

/-- `NBITS = 8 * NBYTES` (R5). -/
def Params.nbits (p : Params) : Nat := 8 * p.nbytes

/-- The legal parameters: `NBITS` positive (R5) and `NBYTES <= BUFBYTES <= 61440` (R6). -/
def Params.legal (p : Params) : Bool :=
  decide (0 < p.nbytes) && decide (p.nbytes ≤ p.bufBytes) && decide (p.bufBytes ≤ 61440)

/-- The legal parameters that two free numbers pick; every legal pair is picked by some two numbers
(`Laws/Config.lean`). -/
def Params.ofChoices (a b : Nat) : Params :=
  { nbytes := a % 61440 + 1
    bufBytes := a % 61440 + b % (61440 - a % 61440) + 1 }

/-- The first of the two open choices behind the parameters of the instance (DESIGN CHOICE, safe: log 1). -/
opaque Config.nbytesChoice : Nat

/-- The second of the two open choices behind the parameters of the instance (DESIGN CHOICE, safe: log 1). -/
opaque Config.spareChoice : Nat

/-- The parameters of the instance `State.reset` describes: some legal pair, which one is open (R5, R6, V14). -/
def Config.params : Params := Params.ofChoices Config.nbytesChoice Config.spareChoice

/-- The free draw a rejected read returns, one for each occurrence (20_memory.md R60, V2), and a read while hard
reset is asserted (R190, V11). Safe: log 3. -/
opaque Config.freeRead : Nat → Word

/-- The content of `BUF[k]` after the reset that made the given draw, until something writes it (R43, R191, V1).
Safe: log 2. -/
opaque Config.resetByte : Nat → Nat → Byte

end Sys2Proof
end

