-- ==== Sys2Proof/Machine/Arith.lean ====
section
/-! DEFINITION. The integer arithmetic of the engine: lengths and byte strings (00_scope.md R8, R9), the extended
Euclidean algorithm (41_modular_arithmetic.md R121) and modular exponentiation (42_rsa_transform.md R140). All
integers are exact; nothing wraps (R127, R145). -/

namespace Sys2Proof.Machine

open Sys2Proof

/-- `bitlen(v)`: the least `k` with `v < 2^k` (R8). -/
def bitlen (v : Nat) : Nat := if v = 0 then 0 else Nat.log2 v + 1

/-- `bytelen(v)`: `max(1, ceil(bitlen(v) / 8))` (R8). -/
def bytelen (v : Nat) : Nat := max 1 ((bitlen v + 7) / 8)

/-- The value fits the magnitude of a big register: it needs at most `NBITS` bits, that is `v < 2^NBITS` (R21). -/
def fits (p : Params) (v : Nat) : Bool := decide (bitlen v ≤ p.nbits)

/-- `be_int(bytes)`: the big-endian value of a byte list; the empty list gives 0 (R9). -/
def beInt (bytes : List Byte) : Nat := bytes.foldl (fun v b => v * 256 + b.toNat) 0

/-- `be_bytes(v, L)`: the `L` bytes whose big-endian value is `v` (R9). -/
def beBytes (v : Nat) : Nat → List Byte
  | 0 => []
  | l + 1 => BitVec.ofNat 8 (v / 256 ^ l) :: beBytes v l

/-- The source's `intToBytes`: the minimal big-endian string, one zero byte for 0 (R103, R108). -/
def intToBytes (v : Nat) : List Byte := beBytes v (bytelen v)

/-- The loop of `xeuclid` (R121) on the remainder pair `r0, r1` and the coefficient pairs `s0, s1` and `t0, t1`. The
fuel bounds the iterations: the second remainder falls in every one (R128), so fuel of its size is enough. -/
def xeuclidLoop : Nat → Nat → Nat → Int → Int → Int → Int → Int × Int × Nat
  | 0, r0, _, s0, _, t0, _ => (s0, t0, r0)
  | fuel + 1, r0, r1, s0, s1, t0, t1 =>
    if r1 = 0 then (s0, t0, r0)
    else
      xeuclidLoop fuel r1 (r0 % r1) s1 (s0 - ((r0 / r1 : Nat) : Int) * s1) t1 (t0 - ((r0 / r1 : Nat) : Int) * t1)

/-- `xeuclid(n, m)`: the triple `(x, y, g)` with `x*n + y*m = g` (R121). -/
def xeuclid (n m : Nat) : Int × Int × Nat := xeuclidLoop m n m 1 0 0 1

/-- The loop of `modexp` (R140) over the bits below `i`, from the most significant down. -/
def modexpLoop (b e n : Nat) : Nat → Nat → Nat
  | 0, acc => acc
  | i + 1, acc =>
    modexpLoop b e n i (if e.testBit i then (acc * acc % n) * b % n else acc * acc % n)

/-- `modexp(b, e, n)`: square and multiply from the most significant bit of the exponent (R140). It is `b^e mod n`
(`Laws/Modexp.lean`). -/
def modexp (b e n : Nat) : Nat := modexpLoop b e n (bitlen e) (1 % n)

end Sys2Proof.Machine
end

