-- ==== Sys2Proof/Machine/State.lean ====
section
/-! DEFINITION. The state of the engine (10_state.md), with the reset values of R43, and the reasons a step can
stop. -/

namespace Sys2Proof.Machine

open Sys2Proof

/-- The value of a big register (R21). `absent` carries no payload: its other fields are unreadable (V4). -/
inductive BigValue where
  /-- `Absent`: the register holds no value. -/
  | absent
  /-- `Int z`. -/
  | int (z : Int)
  deriving DecidableEq, Repr

/-- The eight big registers by name (R20, R22). -/
structure BigRegs where
  n : BigValue
  e : BigValue
  d : BigValue
  a : BigValue
  b : BigValue
  x : BigValue
  y : BigValue
  g : BigValue
  deriving DecidableEq, Repr

/-- `phase` (R37), seen as `STATUS.BUSY`. -/
inductive Phase where
  | idle | busy
  deriving DecidableEq, Repr

/-- The implemented bits of `CTRL`: the interrupt enables (R29). The other bits read 0 and have no storage. -/
structure Ctrl where
  ieDone : Bool
  ieErr : Bool
  ieRej : Bool
  deriving DecidableEq, Repr

/-- The bytes of `BUF` written since the last reset (R33), by index, in rising order. An index that is not listed has
been written by nothing and holds no value of its own (log 2). -/
abbrev Memory := List Host.Cell

/-- The error kinds of 60_exceptions.md R171. -/
inductive ErrorKind where
  /-- Code 1: a negative or absent source of a store. -/
  | invalidInteger
  /-- Code 2: transform input not below the modulus. -/
  | dataTooLarge
  /-- Code 3: private transform without a private exponent. -/
  | missingPrivateComponent
  /-- Code 4: operands not coprime, or a coefficient of zero. -/
  | noInverse
  /-- Code 5: the command word is illegal. -/
  | illegalCommand
  /-- Code 6: an operand is absent. -/
  | operandAbsent
  /-- Code 7: an operand is outside the domain of the function. -/
  | operandDomain
  /-- Code 8: the result does not fit `NBITS` bits. -/
  | resultOverflow
  /-- Code 9: `LEN > BUFBYTES` at a load. -/
  | bufferLength
  deriving DecidableEq, Repr

/-- One value a host read has returned. -/
inductive Reply where
  | word (v : Word)
  | half (v : Half)
  | byte (v : Byte)
  deriving DecidableEq, Repr

/-- Reasons the machine stops with a fault: none. "Nothing in this hardware is `stuck`, and nothing is undefined
behaviour" (93_implementation_defined.md part 2): a failing command and a rejected access are next states
(60_exceptions.md R175, 20_memory.md R60). Safe: no state of the hardware is cut off. -/
inductive Fault where
  deriving DecidableEq, Repr

/-- Reasons an instruction has no meaning. -/
inductive Refusal where
  /-- Raised only by an arm of `exec` whose command has no meaning yet; no arm does. Safe: the machine stops. -/
  | notModelled (mnemonic : String)
  deriving DecidableEq, Repr

/-- The state of one engine, with the environment it is run in. -/
structure State where
  /-- `NBITS` and `BUFBYTES`, constants of the instance, read through `NBITS` and `BUFSZ` (R5, R6, R28). -/
  params : Params
  /-- The big registers `x[0]` to `x[7]` (R20). -/
  regs : BigRegs
  /-- `phase` (R37). -/
  phase : Phase
  /-- `CMDREG`, the last accepted command word (R37). -/
  cmdReg : Word
  /-- The interrupt enables of `CTRL` (R29). -/
  ctrl : Ctrl
  /-- `STATUS.DONE` (R30). -/
  done : Bool
  /-- `STATUS.ERR` (R30). -/
  err : Bool
  /-- `STATUS.REJ` (R30). -/
  rej : Bool
  /-- `ERRCODE[7:0]` (R32); bits 31:8 read 0. -/
  errCode : Byte
  /-- `ERRCMD` (R32). -/
  errCmd : Word
  /-- `LEN` (R34). -/
  len : Word
  /-- `BUF`, the bytes written since the last reset (R33). -/
  buf : Memory
  /-- The hard reset input is asserted (R190). -/
  resetLine : Bool
  /-- The model's own: which draw the unwritten bytes of `BUF` come from (log 2). -/
  bufDraw : Nat
  /-- The model's own: the number of the next free draw (log 3). -/
  draws : Nat
  /-- The model's own: what the host does next, and where the engine gets its turns (log 4). -/
  script : List Event
  /-- The model's own: what host reads have returned, newest first (log 6). -/
  replies : List Reply
  deriving DecidableEq, Repr

/-- The state after reset of an instance with given parameters: every value of R43. -/
def State.resetOf (p : Params) : State where
  params := p
  regs := ⟨.absent, .absent, .absent, .absent, .absent, .absent, .absent, .absent⟩
  phase := .idle
  cmdReg := 0#32
  ctrl := ⟨false, false, false⟩
  done := false
  err := false
  rej := false
  errCode := 0#8
  errCmd := 0#32
  len := 0#32
  buf := []
  resetLine := false
  bufDraw := 0
  draws := 1
  script := []
  replies := []

/-- The machine right after reset, for an instance whose parameters are open (R43; log 1, log 18). -/
def State.reset : State := State.resetOf Config.params

end Sys2Proof.Machine
end

