-- ==== Sys2Proof/Machine/Ops.lean ====
section
/-! DEFINITION. The named operations: registers, the buffer, the writes of a successful command, failure entry and the
return from it, and reset (10_state.md R38, R39; 20_memory.md R55, R60; 60_exceptions.md R175, R177;
70_reset_and_hazards.md R190 to R192). -/

namespace Sys2Proof.Machine

open Sys2Proof

/-! Big registers (R9, R22). -/

/-- Read of a big register. -/
def BigRegs.get (x : BigRegs) : Reg → BigValue
  | .n => x.n
  | .e => x.e
  | .d => x.d
  | .a => x.a
  | .b => x.b
  | .x => x.x
  | .y => x.y
  | .g => x.g

/-- Write of a big register. -/
def BigRegs.set (x : BigRegs) (r : Reg) (v : BigValue) : BigRegs :=
  match r with
  | .n => { x with n := v }
  | .e => { x with e := v }
  | .d => { x with d := v }
  | .a => { x with a := v }
  | .b => { x with b := v }
  | .x => { x with x := v }
  | .y => { x with y := v }
  | .g => { x with g := v }

/-- `x[r]` (R9). -/
def State.reg (s : State) (r : Reg) : BigValue := s.regs.get r

/-! The buffer (R33). -/

/-- The byte written at an index, if something has written it. -/
def Memory.read? : Memory → Nat → Option Byte
  | [], _ => none
  | (j, v) :: m, k => if j = k then some v else Memory.read? m k

/-- Write one byte: the list stays in rising order with one entry for each index. -/
def Memory.write : Memory → Nat → Byte → Memory
  | [], k, v => [(k, v)]
  | (j, w) :: m, k, v =>
    if k < j then (k, v) :: (j, w) :: m
    else if k = j then (k, v) :: m
    else (j, w) :: Memory.write m k v

/-- Write the bytes of a list from index `k` up. -/
def Memory.writeAll (m : Memory) (k : Nat) : List Byte → Memory
  | [] => m
  | v :: vs => Memory.writeAll (Memory.write m k v) (k + 1) vs

/-- The canonical form: indices strictly rising. An index that is not listed holds no value, so no entry can equal
what an unlisted index holds (log 2). -/
def Memory.wf (m : Memory) : Bool := decide (m.Pairwise fun c d => c.1 < d.1)

/-- Every listed index is below `n`. -/
def Memory.below (n : Nat) (m : Memory) : Bool := m.all fun c => decide (c.1 < n)

/-- `BUF[k]` (R33): the byte last written there, or, where nothing has written since the last reset, the byte that
reset drew (R43, R191, V1). -/
def State.bufByte (s : State) (k : Nat) : Byte :=
  match Memory.read? s.buf k with
  | some v => v
  | none => Config.resetByte s.bufDraw k

/-- `MemRead(0, n)` (R9, R55). -/
def State.memRead (s : State) (n : Nat) : List Byte := (List.range n).map s.bufByte

/-! The outcome of a command (R39). -/

/-- One write of a successful command. -/
inductive Write where
  /-- `x[r] <- v`. -/
  | reg (r : Reg) (v : BigValue)
  /-- `MemWrite(0, L, bytes)` and `LEN <- L`, `L` the number of bytes (R100). -/
  | string (bytes : List Byte)
  deriving DecidableEq, Repr

/-- What `execute` gives: the writes of a success, or the error kind of a failure (R39). -/
inductive Result where
  | success (writes : List Write)
  | failure (kind : ErrorKind)
  deriving DecidableEq, Repr

/-- One write applied. -/
def State.apply (s : State) : Write → State
  | .reg r v => { s with regs := s.regs.set r v }
  | .string bytes =>
    { s with buf := Memory.writeAll s.buf 0 bytes, len := BitVec.ofNat 32 bytes.length }

/-- Successful completion: every write, `DONE` set, the engine idle (R39). -/
def State.succeed (s : State) (writes : List Write) : State :=
  { writes.foldl State.apply s with done := true, phase := .idle }

/-- The code of an error kind (R171). -/
def ErrorKind.code : ErrorKind → Byte
  | .invalidInteger => 1#8
  | .dataTooLarge => 2#8
  | .missingPrivateComponent => 3#8
  | .noInverse => 4#8
  | .illegalCommand => 5#8
  | .operandAbsent => 6#8
  | .operandDomain => 7#8
  | .resultOverflow => 8#8
  | .bufferLength => 9#8

/-- Failure entry, the engine's one way of taking an exception (R175): `ERR`, `ERRCODE`, `ERRCMD`, idle, and nothing
else. -/
def State.fail (s : State) (k : ErrorKind) : State :=
  { s with err := true, errCode := k.code, errCmd := s.cmdReg, phase := .idle }

/-- The completion of a command with a given outcome (R39). -/
def State.finish (s : State) : Result → State
  | .success writes => s.succeed writes
  | .failure k => s.fail k

/-- The host's write to `STATUS`: a 1 clears `DONE`, `ERR`, `REJ` (R30). Clearing `ERR` is the return from a failure
(R177): nothing is restored, `ERRCODE` and `ERRCMD` keep their values. -/
def State.acknowledge (s : State) (v : Word) : State :=
  { s with
    done := s.done && !v.getLsbD 1
    err := s.err && !v.getLsbD 2
    rej := s.rej && !v.getLsbD 3 }

/-! Acceptance, rejection, reset. -/

/-- Acceptance of a command word (R38, the accepting arm): latch it, clear `DONE`, busy. No decoding happens. -/
def State.accept (s : State) (w : Word) : State :=
  { s with cmdReg := w, done := false, phase := .busy }

/-- The effect of a rejected access on the engine (R60). -/
def State.reject (s : State) : State := { s with rej := true }

/-- The values of R43, whatever the engine was doing (R190, R192); the contents of `BUF` are drawn anew (R191). The
parameters, the reset input, and the host with what it has read and will do, are not the engine's to reset. -/
def State.takeReset (s : State) : State :=
  { State.resetOf s.params with
    resetLine := s.resetLine
    bufDraw := s.draws
    draws := s.draws + 1
    script := s.script
    replies := s.replies }

/-- One free draw, and the state with the draw used up (R60, R190; log 3). -/
def State.draw (s : State) : Word × State := (Config.freeRead s.draws, { s with draws := s.draws + 1 })

end Sys2Proof.Machine
end

