-- ==== Sys2Proof/Machine/Operands.lean ====
section
/-! DEFINITION. The operand forms: the byte string in the buffer (40_codec_load_store.md R100), the checked positive
pair of the Euclid family (41_modular_arithmetic.md R120), and the checked operands of the transforms
(42_rsa_transform.md R141, R142). Each check answers the first error in the order its rule lists. -/

namespace Sys2Proof.Machine

open Sys2Proof

/-- The value of the byte string `BUF[0 .. LEN-1]` for a load: `BufferLength`, then `ResultOverflow` (R101). -/
def State.loadOperand (s : State) : Except ErrorKind Nat :=
  if s.params.bufBytes < s.len.toNat then .error .bufferLength
  else if fits s.params (beInt (s.memRead s.len.toNat)) then .ok (beInt (s.memRead s.len.toNat))
  else .error .resultOverflow

/-- The positive operands of the Euclid family: `OperandAbsent`, then `OperandDomain` (R120). -/
def State.positivePair (s : State) (rs1 rs2 : Reg) : Except ErrorKind (Nat × Nat) :=
  match s.reg rs1, s.reg rs2 with
  | .int n, .int m => if n ≤ 0 ∨ m ≤ 0 then .error .operandDomain else .ok (n.toNat, m.toNat)
  | _, _ => .error .operandAbsent

/-- The input, modulus and public exponent of `PUB`: `OperandAbsent`, `OperandDomain`, `DataTooLargeError` (R141). -/
def State.publicOperands (s : State) (rs1 : Reg) : Except ErrorKind (Nat × Nat × Nat) :=
  match s.reg rs1, s.reg .n, s.reg .e with
  | .int m, .int n, .int e =>
    if m < 0 ∨ n < 0 ∨ e < 0 then .error .operandDomain
    else if n ≤ m then .error .dataTooLarge
    else .ok (m.toNat, n.toNat, e.toNat)
  | _, _, _ => .error .operandAbsent

/-- The value is present and negative. -/
def BigValue.negative : BigValue → Bool
  | .absent => false
  | .int z => decide (z < 0)

/-- The input, modulus and private exponent of `PRV`: `OperandAbsent`, `OperandDomain`, `DataTooLargeError`,
`MissingPrivateComponentError`, in that order (R142, R174). -/
def State.privateOperands (s : State) (rs1 : Reg) : Except ErrorKind (Nat × Nat × Nat) :=
  match s.reg rs1, s.reg .n with
  | .int c, .int n =>
    if c < 0 ∨ n < 0 ∨ (s.reg .d).negative = true then .error .operandDomain
    else if n ≤ c then .error .dataTooLarge
    else
      match s.reg .d with
      | .absent => .error .missingPrivateComponent
      | .int d => .ok (c.toNat, n.toNat, d.toNat)
  | _, _ => .error .operandAbsent

end Sys2Proof.Machine
end

