-- ==== Sys2Proof/Machine/Codec.lean ====
section
/-! DEFINITION. The codec, load, store and move commands `LDI LDO STI STM MOV CLR` (40_codec_load_store.md R101 to
R106). Each meaning is the completion step with the outcome its rule gives. -/

namespace Sys2Proof.Machine

open Sys2Proof

/-- `LDI rd` (R101). -/
def ldiResult (rd : Reg) (s : State) : Result :=
  match s.loadOperand with
  | .ok v => .success [.reg rd (.int v)]
  | .error k => .failure k

/-- `LDO rd` (R102): an empty string is `Absent`; the length check comes first. -/
def ldoResult (rd : Reg) (s : State) : Result :=
  match s.loadOperand with
  | .ok v => .success [.reg rd (if s.len = 0#32 then .absent else .int v)]
  | .error k => .failure k

/-- `STI rs1` (R103). -/
def stiResult (rs1 : Reg) (s : State) : Result :=
  match s.reg rs1 with
  | .absent => .failure .invalidInteger
  | .int z => if z < 0 then .failure .invalidInteger else .success [.string (intToBytes z.toNat)]

/-- `STM rs1` (R104). -/
def stmResult (rs1 : Reg) (s : State) : Result :=
  match s.reg rs1 with
  | .absent => .failure .invalidInteger
  | .int z => .success [.string (intToBytes z.natAbs)]

/-- `MOV rd, rs1` (R105). -/
def movResult (rd rs1 : Reg) (s : State) : Result := .success [.reg rd (s.reg rs1)]

/-- `CLR rd` (R106). -/
def clrResult (rd : Reg) (_ : State) : Result := .success [.reg rd .absent]

/-- The completion of `LDI`. -/
def execLdi (rd : Reg) (s : State) : Host.Outcome State Fault Refusal := .next (s.finish (ldiResult rd s))

/-- The completion of `LDO`. -/
def execLdo (rd : Reg) (s : State) : Host.Outcome State Fault Refusal := .next (s.finish (ldoResult rd s))

/-- The completion of `STI`. -/
def execSti (rs1 : Reg) (s : State) : Host.Outcome State Fault Refusal := .next (s.finish (stiResult rs1 s))

/-- The completion of `STM`. -/
def execStm (rs1 : Reg) (s : State) : Host.Outcome State Fault Refusal := .next (s.finish (stmResult rs1 s))

/-- The completion of `MOV`. -/
def execMov (rd rs1 : Reg) (s : State) : Host.Outcome State Fault Refusal :=
  .next (s.finish (movResult rd rs1 s))

/-- The completion of `CLR`. -/
def execClr (rd : Reg) (s : State) : Host.Outcome State Fault Refusal := .next (s.finish (clrResult rd s))

end Sys2Proof.Machine
end

