-- ==== Sys2Proof/Machine/Modular.lean ====
section
/-! DEFINITION. The Euclid family `EGCD GCD LCM MODINV` (41_modular_arithmetic.md R120 to R125). `rs1` holds the
source's `n`, `rs2` its `m`. -/

namespace Sys2Proof.Machine

open Sys2Proof

/-- `EGCD rs1, rs2` (R122): `X`, `Y`, `G`, all three at once, after all reads. -/
def egcdResult (rs1 rs2 : Reg) (s : State) : Result :=
  match s.positivePair rs1 rs2 with
  | .error k => .failure k
  | .ok (n, m) =>
    .success [.reg .x (.int (xeuclid n m).1), .reg .y (.int (xeuclid n m).2.1), .reg .g (.int (xeuclid n m).2.2)]

/-- `GCD rd, rs1, rs2` (R123). -/
def gcdResult (rd rs1 rs2 : Reg) (s : State) : Result :=
  match s.positivePair rs1 rs2 with
  | .error k => .failure k
  | .ok (n, m) => .success [.reg rd (.int (xeuclid n m).2.2)]

/-- `LCM rd, rs1, rs2` (R124). -/
def lcmResult (rd rs1 rs2 : Reg) (s : State) : Result :=
  match s.positivePair rs1 rs2 with
  | .error k => .failure k
  | .ok (n, m) =>
    if fits s.params (n * m / (xeuclid n m).2.2) then .success [.reg rd (.int (n * m / (xeuclid n m).2.2 : Nat))]
    else .failure .resultOverflow

/-- `MODINV rd, rs1, rs2` (R125): `g != 1`, then `x = 0`, fail; else the floor residue of `x + m`. -/
def modinvResult (rd rs1 rs2 : Reg) (s : State) : Result :=
  match s.positivePair rs1 rs2 with
  | .error k => .failure k
  | .ok (n, m) =>
    if (xeuclid n m).2.2 ≠ 1 then .failure .noInverse
    else if (xeuclid n m).1 = 0 then .failure .noInverse
    else .success [.reg rd (.int (((xeuclid n m).1 + (m : Int)) % (m : Int)))]

/-- The completion of `EGCD`. -/
def execEgcd (rs1 rs2 : Reg) (s : State) : Host.Outcome State Fault Refusal :=
  .next (s.finish (egcdResult rs1 rs2 s))

/-- The completion of `GCD`. -/
def execGcd (rd rs1 rs2 : Reg) (s : State) : Host.Outcome State Fault Refusal :=
  .next (s.finish (gcdResult rd rs1 rs2 s))

/-- The completion of `LCM`. -/
def execLcm (rd rs1 rs2 : Reg) (s : State) : Host.Outcome State Fault Refusal :=
  .next (s.finish (lcmResult rd rs1 rs2 s))

/-- The completion of `MODINV`. -/
def execModinv (rd rs1 rs2 : Reg) (s : State) : Host.Outcome State Fault Refusal :=
  .next (s.finish (modinvResult rd rs1 rs2 s))

end Sys2Proof.Machine
end

