-- ==== Sys2Proof/Machine/Transform.lean ====
section
/-! DEFINITION. The RSA transforms `PUB PRV` (42_rsa_transform.md R140 to R142). -/

namespace Sys2Proof.Machine

open Sys2Proof

/-- `PUB rd, rs1` (R141): `m^e mod n`. -/
def pubResult (rd rs1 : Reg) (s : State) : Result :=
  match s.publicOperands rs1 with
  | .error k => .failure k
  | .ok (m, n, e) => .success [.reg rd (.int (modexp m e n))]

/-- `PRV rd, rs1` (R142): `c^d mod n`. -/
def prvResult (rd rs1 : Reg) (s : State) : Result :=
  match s.privateOperands rs1 with
  | .error k => .failure k
  | .ok (c, n, d) => .success [.reg rd (.int (modexp c d n))]

/-- The completion of `PUB`. -/
def execPub (rd rs1 : Reg) (s : State) : Host.Outcome State Fault Refusal :=
  .next (s.finish (pubResult rd rs1 s))

/-- The completion of `PRV`. -/
def execPrv (rd rs1 : Reg) (s : State) : Host.Outcome State Fault Refusal :=
  .next (s.finish (prvResult rd rs1 s))

end Sys2Proof.Machine
end

