-- ==== Sys2Proof/Machine/Dispatch.lean ====
section
/-! DEFINITION. One arm for each command (30_encoding.md R73): the completion of that command (10_state.md R39). -/

namespace Sys2Proof.Machine

open Sys2Proof

def exec (i : Instr) (s : State) : Host.Outcome State Fault Refusal :=
  match i with
  | .ldi rd => Sys2Proof.Machine.execLdi rd s
  | .ldo rd => Sys2Proof.Machine.execLdo rd s
  | .sti rs1 => Sys2Proof.Machine.execSti rs1 s
  | .stm rs1 => Sys2Proof.Machine.execStm rs1 s
  | .mov rd rs1 => Sys2Proof.Machine.execMov rd rs1 s
  | .clr rd => Sys2Proof.Machine.execClr rd s
  | .egcd rs1 rs2 => Sys2Proof.Machine.execEgcd rs1 rs2 s
  | .gcd rd rs1 rs2 => Sys2Proof.Machine.execGcd rd rs1 rs2 s
  | .lcm rd rs1 rs2 => Sys2Proof.Machine.execLcm rd rs1 rs2 s
  | .modinv rd rs1 rs2 => Sys2Proof.Machine.execModinv rd rs1 rs2 s
  | .pub rd rs1 => Sys2Proof.Machine.execPub rd rs1 s
  | .prv rd rs1 => Sys2Proof.Machine.execPrv rd rs1 s

end Sys2Proof.Machine
end

