-- ==== Sys2Proof/Machine/Flags.lean ====
section
/-! DEFINITION. The derived registers and flags: `RFLAGS` (10_state.md R35), `KSIZE` (R36), the words `STATUS` (R30)
and `CTRL` (R29), and the interrupt line (R41). -/

namespace Sys2Proof.Machine

open Sys2Proof

/-- The `RFLAGS` nibble of a value: `PRESENT`, `NEG`, `ZERO`, and a reserved 0 (R35). -/
def BigValue.nibble : BigValue → BitVec 4
  | .absent => 0#4
  | .int z => BitVec.ofBool false ++ BitVec.ofBool (decide (z = 0)) ++ BitVec.ofBool (decide (z < 0)) ++ 1#1

/-- `RFLAGS`: the nibble of `x[i]` at bits `4i+3 : 4i` (R35). -/
def State.rflags (s : State) : Word :=
  s.regs.g.nibble ++ s.regs.y.nibble ++ s.regs.x.nibble ++ s.regs.b.nibble
    ++ s.regs.a.nibble ++ s.regs.d.nibble ++ s.regs.e.nibble ++ s.regs.n.nibble

/-- `isNatural(x[r], includeZero)` read off a nibble of `RFLAGS` (R35). -/
def nibbleNatural (includeZero : Bool) (f : BitVec 4) : Bool :=
  f.getLsbD 0 && !f.getLsbD 1 && (includeZero || !f.getLsbD 2)

/-- `KSIZE`: the minimal byte length of the modulus, 0 when it is absent (R36). -/
def State.ksize (s : State) : Word :=
  match s.regs.n with
  | .absent => 0#32
  | .int z => BitVec.ofNat 32 (bytelen z.natAbs)

/-- `STATUS.BUSY` (R30). -/
def State.busy (s : State) : Bool := decide (s.phase = .busy)

/-- `STATUS` as a word: `BUSY`, `DONE`, `ERR`, `REJ` in bits 0 to 3 (R30). -/
def State.statusWord (s : State) : Word :=
  0#28 ++ BitVec.ofBool s.rej ++ BitVec.ofBool s.err ++ BitVec.ofBool s.done ++ BitVec.ofBool s.busy

/-- `CTRL` as a word: the enables in bits 0 to 2 (R29). -/
def State.ctrlWord (s : State) : Word :=
  0#29 ++ BitVec.ofBool s.ctrl.ieRej ++ BitVec.ofBool s.ctrl.ieErr ++ BitVec.ofBool s.ctrl.ieDone

/-- The enables a write to `CTRL` with bit 31 clear stores (R29). -/
def ctrlOfWord (v : Word) : Ctrl := ⟨v.getLsbD 0, v.getLsbD 1, v.getLsbD 2⟩

/-- The interrupt line, a level (R41, R178). -/
def State.irq (s : State) : Bool :=
  (s.done && s.ctrl.ieDone) || (s.err && s.ctrl.ieErr) || (s.rej && s.ctrl.ieRej)

end Sys2Proof.Machine
end

