-- ==== Sys2Proof/Machine/HostOps.lean ====
section
/-! DEFINITION. What a host access does (20_memory.md R50 to R53, R58, R60; 10_state.md R27 to R38): the control
block, the buffer window, acceptance and rejection, soft and hard reset. While hard reset is asserted every access is
without effect and a read returns a free draw (70_reset_and_hazards.md R190). -/

namespace Sys2Proof.Machine

open Sys2Proof

/-- The eleven control registers (R42). -/
inductive CtrlReg where
  | id | nbits | bufsz | ctrl | status | cmd | errcode | errcmd | len | rflags | ksize
  deriving DecidableEq, Repr

/-- The offset of a control register (R42). -/
def CtrlReg.offset : CtrlReg → Offset
  | .id => 0x00#16
  | .nbits => 0x04#16
  | .bufsz => 0x08#16
  | .ctrl => 0x0C#16
  | .status => 0x10#16
  | .cmd => 0x14#16
  | .errcode => 0x18#16
  | .errcmd => 0x1C#16
  | .len => 0x20#16
  | .rflags => 0x24#16
  | .ksize => 0x28#16

/-- The control register at an offset: none in the unmapped ranges, in the buffer window, and at a misaligned
offset (R44, R51, R52). -/
def ctrlRegAt (off : Offset) : Option CtrlReg :=
  match off.toNat with
  | 0x00 => some .id
  | 0x04 => some .nbits
  | 0x08 => some .bufsz
  | 0x0C => some .ctrl
  | 0x10 => some .status
  | 0x14 => some .cmd
  | 0x18 => some .errcode
  | 0x1C => some .errcmd
  | 0x20 => some .len
  | 0x24 => some .rflags
  | 0x28 => some .ksize
  | _ => none

/-- The buffer index at an offset of the window `0x1000 .. 0x1000 + BUFBYTES - 1` (R51). -/
def windowIndex (p : Params) (off : Offset) : Option Nat :=
  if 0x1000 ≤ off.toNat ∧ off.toNat < 0x1000 + p.bufBytes then some (off.toNat - 0x1000) else none

/-- The value of the `ID` register (R27). -/
def idWord : Word := 0x4D584531#32

/-- The value a read of a control register returns (R27 to R36). -/
def State.readReg (s : State) : CtrlReg → Word
  | .id => idWord
  | .nbits => BitVec.ofNat 32 s.params.nbits
  | .bufsz => BitVec.ofNat 32 s.params.bufBytes
  | .ctrl => s.ctrlWord
  | .status => s.statusWord
  | .cmd => s.cmdReg
  | .errcode => s.errCode.setWidth 32
  | .errcmd => s.errCmd
  | .len => s.len
  | .rflags => s.rflags
  | .ksize => s.ksize

/-- A write to `CMD` (R38): rejected while busy or while `ERR` is set, otherwise accepted. -/
def State.writeCmd (s : State) (w : Word) : State :=
  if s.phase = .busy ∨ s.err = true then s.reject else s.accept w

/-- A write to `CTRL` (R29): with bit 31 set the soft reset (R192), else the enables. -/
def State.writeCtrl (s : State) (v : Word) : State :=
  if v.getLsbD 31 then s.takeReset else { s with ctrl := ctrlOfWord v }

/-- A write to `LEN` (R34): rejected while busy. -/
def State.writeLen (s : State) (v : Word) : State :=
  if s.phase = .busy then s.reject else { s with len := v }

/-- A write to a control register (R58); a write to a read-only one is ignored, without rejection. -/
def State.writeReg (s : State) (r : CtrlReg) (v : Word) : State :=
  match r with
  | .ctrl => s.writeCtrl v
  | .status => s.acknowledge v
  | .cmd => s.writeCmd v
  | .len => s.writeLen v
  | .id | .nbits | .bufsz | .errcode | .errcmd | .rflags | .ksize => s

/-- A 32-bit write (R52, R60). -/
def State.write32 (s : State) (off : Offset) (v : Word) : State :=
  if s.resetLine then s
  else
    match ctrlRegAt off with
    | some r => s.writeReg r v
    | none => s.reject

/-- A 32-bit read: the value returned and the state after (R52, R58, R60). -/
def State.read32 (s : State) (off : Offset) : Word × State :=
  if s.resetLine then s.draw
  else
    match ctrlRegAt off with
    | some r => (s.readReg r, s)
    | none => s.reject.draw

/-- An 8-bit write (R53, R60). -/
def State.write8 (s : State) (off : Offset) (v : Byte) : State :=
  if s.resetLine then s
  else
    match windowIndex s.params off with
    | some k => if s.phase = .busy then s.reject else { s with buf := Memory.write s.buf k v }
    | none => s.reject

/-- A rejected 8-bit read: the low byte of a free draw. -/
def State.draw8 (s : State) : Byte × State := (s.draw.1.setWidth 8, s.draw.2)

/-- An 8-bit read: the value returned and the state after (R53, R60). -/
def State.read8 (s : State) (off : Offset) : Byte × State :=
  if s.resetLine then s.draw8
  else
    match windowIndex s.params off with
    | some k => if s.phase = .busy then s.reject.draw8 else (s.bufByte k, s)
    | none => s.reject.draw8

/-- A 16-bit write: no register and no byte is reached by one, so it is rejected everywhere (R52, R53). -/
def State.write16 (s : State) (_ : Offset) (_ : Half) : State :=
  if s.resetLine then s else s.reject

/-- A 16-bit read, rejected everywhere (R52, R53); it returns a free draw (log 11). -/
def State.read16 (s : State) (_ : Offset) : Half × State :=
  if s.resetLine then (s.draw.1.setWidth 16, s.draw.2) else (s.reject.draw.1.setWidth 16, s.reject.draw.2)

/-- The platform asserts hard reset: every value of R43 (R190). -/
def State.assertReset (s : State) : State := { s.takeReset with resetLine := true }

/-- The platform releases hard reset: the engine is idle with those values (R190). -/
def State.releaseReset (s : State) : State := { s with resetLine := false }

/-- A read's value handed to the host. -/
def State.reply (s : State) (r : Reply) : State := { s with replies := r :: s.replies }

end Sys2Proof.Machine
end

