-- ==== Sys2Proof/Machine/HostSeq.lean ====
section
/-! DEFINITION. The host's macros (30_encoding.md R80; 43_host_sequences.md R160 to R167), as lists of host
operations. None is a command word. -/

namespace Sys2Proof.Machine

open Sys2Proof

/-- A command mnemonic as a host operation: `wr CMD, encode(...)` (R10, R79). -/
def issue (i : Instr) : HostOp := .wr CtrlReg.cmd.offset (encode i)

/-- The offset of `BUF[k]` in the window (R51). -/
def windowOffset (k : Nat) : Offset := BitVec.ofNat 16 (0x1000 + k)

/-- The byte writes of `PUTBYTES`, from index `k` up (R160). -/
def putFrom (k : Nat) : List Byte → List HostOp
  | [] => []
  | v :: vs => .wrb (windowOffset k) v :: putFrom (k + 1) vs

/-- The host takes as many leading zero bytes off a string as it is too long for a buffer of `cap` bytes, when it can
(R160: "the host strips leading zero bytes first or fails"; DESIGN CHOICE, safe: log 23). A string that fits is kept as
it is. -/
def stripExcess (cap : Nat) (bytes : List Byte) : List Byte :=
  if (bytes.take (bytes.length - cap)).all (· == 0x00#8) then bytes.drop (bytes.length - cap) else bytes

/-- `PUTBYTES s` (R160) for an instance whose `BUFBYTES` the host knows. A string that is too long and cannot be stripped
is not put: the host writes its length only, so that the load fails with `BufferLength` (R163; DESIGN CHOICE, safe:
log 23). -/
def putBytes (p : Params) (bytes : List Byte) : List HostOp :=
  if (stripExcess p.bufBytes bytes).length ≤ p.bufBytes then
    putFrom 0 (stripExcess p.bufBytes bytes)
      ++ [.wr CtrlReg.len.offset (BitVec.ofNat 32 (stripExcess p.bufBytes bytes).length)]
  else [.wr CtrlReg.len.offset (BitVec.ofNat 32 (min bytes.length 0xFFFFFFFF))]

/-- The byte reads of `GETBYTES` for a length read from `LEN` (R161), within the offset space (log 14). -/
def getReads (len : Nat) : List HostOp := (List.range (min len 61440)).map fun k => .rdb (windowOffset k)

/-- A command, `wait`, and the error check (R166). -/
def perform (i : Instr) : List HostOp := [issue i, .wait, .check]

/-- A command and `wait`, where the listings have no error check (R160, R164). -/
def performUnchecked (i : Instr) : List HostOp := [issue i, .wait]

/-- `LOAD r, s` (R160). -/
def load (p : Params) (r : Reg) (bytes : List Byte) : List HostOp := putBytes p bytes ++ perform (.ldi r)

/-- `LOADOPT r, s` (R160): with the empty string just `wr LEN, 0`, `LDO r`, `wait`. -/
def loadOpt (p : Params) (r : Reg) (bytes : List Byte) : List HostOp :=
  putBytes p bytes ++ if bytes = [] then performUnchecked (.ldo r) else perform (.ldo r)

/-- `STORE r` (R161). -/
def store (r : Reg) : List HostOp := perform (.sti r) ++ [.getBytes]

/-- `PUBLIC_TRANSFORM data` (R162). -/
def publicTransform (p : Params) (data : List Byte) : List HostOp :=
  load p .a data ++ perform (.pub .x .a) ++ store .x

/-- `PRIVATE_TRANSFORM data` (R163). -/
def privateTransform (p : Params) (data : List Byte) : List HostOp :=
  load p .a data ++ perform (.prv .x .a) ++ store .x

/-- Loading a key (R167). -/
def loadKey (p : Params) (modulus exponent decrypt : List Byte) : List HostOp :=
  load p .n modulus ++ load p .e exponent ++ loadOpt p .d decrypt

/-- Saving a key (R167): `D` only when `RFLAGS` shows it present. -/
def saveKey : List HostOp := store .n ++ store .e ++ [.storeIfPresent .d]

/-- The public exponent of the key generator, which is host software (R7, R164). -/
def hostExponent : List Byte := [0x01#8, 0x00#8, 0x01#8]

/-- The lines of `GENERATE` under "optional step 5" (R164): `qInv` and `d`, which the host keeps. `STORE Y` is the last
of those lines and is taken to belong to the option (DESIGN CHOICE, safe: log 22). -/
def generateOptional (ps : Params) (p q : Nat) : List HostOp :=
  load ps .a (intToBytes q) ++ load ps .b (intToBytes p) ++ perform (.modinv .x .a .b) ++ store .x ++ store .y

/-- `GENERATE p, q`, with or without its optional step 5 (R164): the host's arithmetic is done on numbers, the
engine's part by commands; a failing check drops the rest, so `N`, `E`, `D` change only when every step before
succeeded. -/
def generate (ps : Params) (withOptional : Bool) (p q : Nat) : List HostOp :=
  load ps .a (intToBytes (p - 1)) ++ load ps .b (intToBytes (q - 1))
    ++ perform (.lcm .x .a .b) ++ performUnchecked (.mov .b .x)
    ++ load ps .a hostExponent ++ perform (.modinv .y .a .b)
    ++ (if withOptional then generateOptional ps p q else [])
    ++ load ps .n (intToBytes (p * q)) ++ load ps .e hostExponent ++ performUnchecked (.mov .d .y)

/-- The bytes at the head of a list of replies. -/
def leadingBytes : List Reply → List Byte
  | .byte b :: rest => b :: leadingBytes rest
  | [] | .word _ :: _ | .half _ :: _ => []

/-- The byte string the host's last `GETBYTES` returned (R161): the bytes read since the last value that was no byte. -/
def stringRead (replies : List Reply) : List Byte := (leadingBytes replies).reverse

/-- The host's `dP = d mod (p-1)` and `dQ = d mod (q-1)`, from the string of `d` that `STORE Y` returned (R164). The
engine has nowhere to put them. -/
def hostCrtExponents (d : List Byte) (p q : Nat) : Nat × Nat := (beInt d % (p - 1), beInt d % (q - 1))

/-- The error kind of the source for a failure of the `LOAD A` step of a transform: data wider than the engine is
above any modulus it can hold (R163, R187). -/
def sourceKindOfLoad : ErrorKind → ErrorKind
  | .resultOverflow => .dataTooLarge
  | .bufferLength => .dataTooLarge
  | k => k

/-- A stored string padded on the left to a fixed width, which is the host's work (R109). -/
def padLeft (width : Nat) (bytes : List Byte) : List Byte :=
  List.replicate (width - bytes.length) 0#8 ++ bytes

end Sys2Proof.Machine
end

