-- ==== Sys2Proof/Machine/Engine.lean ====
section
/-! DEFINITION. The turns (20_memory.md R57): the engine's completion step (10_state.md R39), the host's operations
(00_scope.md R10), and which comes next. -/

namespace Sys2Proof.Machine

open Sys2Proof

/-- The completion step (R39): decode `CMDREG`, execute; an illegal word fails with `IllegalCommand` (R76). -/
def complete (s : State) : Host.Outcome State Fault Refusal :=
  match decode s.cmdReg with
  | .ok i => exec i s
  | .error _ => .next (s.fail .illegalCommand)

/-- A turn of the engine: the completion step is enabled exactly while a command is in execution (R39), and not
while hard reset is asserted (R190); otherwise the engine holds its state (R184). -/
def engineTurn (s : State) : Host.Outcome State Fault Refusal :=
  if s.phase = .busy ∧ s.resetLine = false then complete s else .next s

/-- The state with events put before the rest of the script. -/
def State.before (s : State) (events : List Event) : State := { s with script := events ++ s.script }

/-- The state with the rest of the script replaced. -/
def State.instead (s : State) (events : List Event) : State := { s with script := events }

/-- A 32-bit read whose value the host gets and acts on: `k` is what the host does with the value. -/
def State.readThen (s : State) (r : CtrlReg) (k : Word → State → State) : State :=
  k (s.read32 r.offset).1 ((s.read32 r.offset).2.reply (.word (s.read32 r.offset).1))

/-- One host or platform operation, on the state whose script is what comes after it. -/
def hostTurn (op : HostOp) (s : State) : Host.Outcome State Fault Refusal :=
  match op with
  | .wr off v => .next (s.write32 off v)
  | .rd off => .next ((s.read32 off).2.reply (.word (s.read32 off).1))
  | .wrb off v => .next (s.write8 off v)
  | .rdb off => .next ((s.read8 off).2.reply (.byte (s.read8 off).1))
  | .wrh off v => .next (s.write16 off v)
  | .rdh off => .next ((s.read16 off).2.reply (.half (s.read16 off).1))
  | .assertReset => .next s.assertReset
  | .releaseReset => .next s.releaseReset
  -- R10: repeat until BUSY = 0; a poll that finds BUSY = 1 is followed by a turn of the engine (R200, log 5).
  | .wait => .next (s.readThen .status fun w t => if w.getLsbD 0 then t.before [.engine, .host .wait] else t)
  -- R166: on ERR read the code, acknowledge, and fail the sequence: what was to follow is dropped.
  | .check =>
    .next (s.readThen .status fun w t =>
      if w.getLsbD 2 then
        t.instead [.host (.rd CtrlReg.errcode.offset), .host (.wr CtrlReg.status.offset 0x00000004#32)]
      else t)
  | .getBytes => .next (s.readThen .len fun w t => t.before ((getReads w.toNat).map .host))
  | .storeIfPresent r =>
    .next (s.readThen .rflags fun w t =>
      if w.getLsbD (4 * r.index.toNat) then t.before ((store r).map .host) else t)
  -- R165: the host sleeps; the engine goes on; the host wakes when the line is high.
  | .waitIrq => if s.irq then .next s else engineTurn (s.before [.host .waitIrq])

/-- One step of the machine: the next event of the script; with none left the engine has its turn (R57, R200). -/
def turn (s : State) : Host.Outcome State Fault Refusal :=
  match s.script with
  | [] => engineTurn s
  | .engine :: rest => engineTurn (s.instead rest)
  | .host op :: rest => hostTurn op (s.instead rest)

/-- The state in which a given word is the command in execution and the next step is its completion: the word as
accepted by a `CMD` write (R38) of an engine out of reset with no failure pending, and the engine's turn next. -/
def State.placeCommand (s : State) (w : Word) : State :=
  { s.accept w with err := false, resetLine := false, script := .engine :: s.script }

end Sys2Proof.Machine
end

