-- ==== Sys2Proof/Machine/Step.lean ====
section
/-! DEFINITION. The step of the machine, and how the host of this pipeline places a command word. -/

namespace Sys2Proof.Machine

open Sys2Proof

/-- One atomic step (20_memory.md R57). -/
def step (s : State) : Host.Outcome State Fault Refusal := turn s

/-- The state whose next step runs the command in the low `nbits` bits of `w` (log 7). -/
def State.withFetchWord (s : State) (nbits w : Nat) : State :=
  s.placeCommand (BitVec.ofNat 32 (w % 2 ^ nbits))

end Sys2Proof.Machine
end

