-- ==== Sys2Proof/Machine/Montgomery.lean ====
section
/-! DEFINITION. The Montgomery realisation of modular exponentiation (42_rsa_transform.md R147). It is not
architectural: no command and no state of the model uses it. It stands here so that the rule's first constraint, that
its result equals R140 for every legal argument with an odd modulus, can be stated. -/

namespace Sys2Proof.Machine

open Sys2Proof

/-- `n' = (-(n^-1)) mod R` with `R = 2^k`. -/
def montConstant (k n : Nat) : Nat := ((-(xeuclid n (2 ^ k)).1) % ((2 ^ k : Nat) : Int)).toNat

/-- `MontMul(a, c)`: `a * c * R^-1 mod n`. -/
def montMul (k n a c : Nat) : Nat :=
  let t := a * c
  let u := (t + ((t % 2 ^ k) * montConstant k n % 2 ^ k) * n) / 2 ^ k
  if n ≤ u then u - n else u

/-- The loop over the bits below `i`, in Montgomery form. -/
def montLoop (k n bBar e : Nat) : Nat → Nat → Nat
  | 0, acc => acc
  | i + 1, acc =>
    montLoop k n bBar e i (if e.testBit i then montMul k n (montMul k n acc acc) bBar else montMul k n acc acc)

/-- `modexp` by Montgomery multiplication, for an odd modulus below `2^k`. -/
def montModexp (k b e n : Nat) : Nat :=
  montMul k n
    (montLoop k n (montMul k n b (2 ^ k * 2 ^ k % n)) e (bitlen e) (montMul k n 1 (2 ^ k * 2 ^ k % n))) 1

end Sys2Proof.Machine
end

