-- ==== Sys2Proof/Safety.lean ====
section
/-! DEFINITION. What the engine's state always satisfies, in the terms claims use: the invariant, and the states some
number of steps lead to. -/

namespace Sys2Proof.Machine

open Sys2Proof

/-- The invariant of the machine. A state that breaks it is reached by no step from one that keeps it. -/
structure State.Inv (s : State) : Prop where
  /-- The parameters are legal (00_scope.md R5, R6). -/
  params_legal : s.params.legal = true
  /-- Every big register is in the domain of 10_state.md R21. -/
  regs_fit : ∀ r z, s.reg r = .int z → z.natAbs < 2 ^ s.params.nbits
  /-- The buffer list has its canonical form. -/
  buf_canonical : Memory.wf s.buf = true
  /-- Nothing is written beyond `BUF[BUFBYTES-1]` (20_memory.md R55). -/
  buf_below : Memory.below s.params.bufBytes s.buf = true
  /-- `BUSY = 1` implies `DONE = 0` and `ERR = 0` (10_state.md R30). -/
  busy_clear : s.phase = .busy → s.done = false ∧ s.err = false
  /-- The last command succeeded or failed, not both (10_state.md R30, R38). -/
  one_outcome : s.done = true → s.err = false
  /-- `ERRCODE` holds 0 or one of the nine codes (60_exceptions.md R171). -/
  code_range : s.errCode ≤ 9#8
  /-- While a failure is unacknowledged, `ERRCODE` is a code and `ERRCMD` is the last accepted command
  (60_exceptions.md R175, R176). -/
  failure_recorded : s.err = true → s.errCode ≠ 0#8 ∧ s.errCmd = s.cmdReg
  /-- While hard reset is asserted every value of 10_state.md R43 stands (70_reset_and_hazards.md R190). -/
  held_in_reset : s.resetLine = true →
    s = { State.resetOf s.params with
          resetLine := true, bufDraw := s.bufDraw, draws := s.draws, script := s.script, replies := s.replies }
  /-- The draw behind the buffer has been made (log 2). -/
  draw_made : s.bufDraw < s.draws

/-! Steps. -/

/-- `t` is the state `k` steps after `s`. -/
def State.After (k : Nat) (s t : State) : Prop := Sys2Proof.core.run k s = .next t

/-- Some number of steps leads from `s` to `t`. -/
def State.Reaches (s t : State) : Prop := ∃ k, State.After k s t

/-- With `op` as the next event, the step leads from `s` to `t`; what was to follow stays the script. -/
def State.Does (s : State) (op : HostOp) (t : State) : Prop := step (s.before [.host op]) = .next t

/-- With the engine's turn as the next event, the step leads from `s` to `t`. -/
def State.Completes (s t : State) : Prop := step (s.before [.engine]) = .next t

/-! Results, field by field: every field not named keeps its value. -/

/-- The command has succeeded and written one big register. -/
def State.wrote (s : State) (r : Reg) (v : BigValue) : State :=
  { s with regs := s.regs.set r v, done := true, phase := .idle }

/-- The command has failed with a code (60_exceptions.md R175). -/
def State.failedWith (s : State) (code : Byte) : State :=
  { s with err := true, errCode := code, errCmd := s.cmdReg, phase := .idle }

/-- `t` is `s` after a successful store of a byte string: the string at `BUF[0 ..]`, its length in `LEN`, every other
byte and every other field as before. -/
def State.Stored (s : State) (bytes : List Byte) (t : State) : Prop :=
  (∀ k, t.bufByte k = bytes[k]?.getD (s.bufByte k)) ∧ t.len.toNat = bytes.length ∧
    t = { s with buf := t.buf, len := t.len, done := true, phase := .idle }

/-- The nibble of a register in the `RFLAGS` word (10_state.md R35). -/
def State.flagNibble (s : State) (r : Reg) : BitVec 4 := s.rflags.extractLsb' (4 * r.index.toNat) 4

/-! Tables and predicates of the spec that claims name. -/

/-- Which command can raise which error (60_exceptions.md R173). -/
def raises : Mnemonic → List ErrorKind
  | .ldi => [.resultOverflow, .bufferLength]
  | .ldo => [.resultOverflow, .bufferLength]
  | .sti => [.invalidInteger]
  | .stm => [.invalidInteger]
  | .mov => []
  | .clr => []
  | .egcd => [.operandAbsent, .operandDomain]
  | .gcd => [.operandAbsent, .operandDomain]
  | .lcm => [.operandAbsent, .operandDomain, .resultOverflow]
  | .modinv => [.noInverse, .operandAbsent, .operandDomain]
  | .pub => [.dataTooLarge, .operandAbsent, .operandDomain]
  | .prv => [.dataTooLarge, .missingPrivateComponent, .operandAbsent, .operandDomain]

/-- A plain access of the host: a read or a write of any width, other than the write that performs the soft reset. -/
def plainAccess : HostOp → Bool
  | .wr off v => !(decide (off = 0x0C#16) && v.getLsbD 31)
  | .rd _ | .wrb _ _ | .rdb _ | .wrh _ _ | .rdh _ => true
  | .assertReset | .releaseReset | .wait | .check | .getBytes | .storeIfPresent _ | .waitIrq => false

/-- The operation is a read. -/
def isRead : HostOp → Bool
  | .rd _ | .rdb _ | .rdh _ => true
  | .wr _ _ | .wrb _ _ | .wrh _ _ => false
  | .assertReset | .releaseReset | .wait | .check | .getBytes | .storeIfPresent _ | .waitIrq => false

/-- The offset is that of one of the eleven control registers (10_state.md R42). -/
def controlOffset (off : Offset) : Bool := decide (off.toNat % 4 = 0) && decide (off.toNat ≤ 0x28)

/-- The offset is in the buffer window of an instance (20_memory.md R51). -/
def inWindow (p : Params) (off : Offset) : Bool :=
  decide (0x1000 ≤ off.toNat) && decide (off.toNat < 0x1000 + p.bufBytes)

/-- The cases J1 to J7 of 20_memory.md R60, for the accesses of R10. -/
def State.rejects (s : State) : HostOp → Bool
  | .wr off _ =>
    -- J6, J7: no register at the offset
    !controlOffset off
      -- J1, J2
      || (decide (off = 0x14#16) && (s.busy || s.err))
      -- J3
      || (decide (off = 0x20#16) && s.busy)
  | .rd off => !controlOffset off
  -- J4, J5, J6, J7
  | .wrb off _ | .rdb off => !inWindow s.params off || s.busy
  -- J6, J7
  | .wrh _ _ | .rdh _ => true
  | .assertReset | .releaseReset | .wait | .check | .getBytes | .storeIfPresent _ | .waitIrq => false

/-- A key in the engine: `N = p * q` for distinct primes, `E` and `D` inverse to one another modulo `lcm(p-1, q-1)`
(42_rsa_transform.md R143). -/
structure State.ValidKey (s : State) (p q e d : Nat) : Prop where
  prime_p : p.Prime
  prime_q : q.Prime
  distinct : p ≠ q
  modulus : s.reg .n = .int (p * q : Nat)
  public_exponent : s.reg .e = .int e
  private_exponent : s.reg .d = .int d
  inverse : e * d % Nat.lcm (p - 1) (q - 1) = 1 % Nat.lcm (p - 1) (q - 1)

end Sys2Proof.Machine
end

