-- ==== Sys2Proof/Certificates/Slice0/Obligations.lean ====
section
/-! DEFINITION. The statements for the provers, from the numbered rules of the spec. A statement about `exec` is about
the completion of one command (10_state.md R39); `CompletionRunsTheDecodedCommand` says that a step is that. `Does` and
`Completes` (Safety.lean) are one step with the given event next. -/

open Sys2Proof Sys2Proof.Machine

/-! ## Encoding (30_encoding.md) -/

/-- R74: `decode` is total and follows the rows of R73; `encode` is its inverse on legal commands; there are 1832 legal
words. -/
def Obligations.DecodeFollowsTableAndEncodeInvertsIt : Prop :=
  (∀ (w : Word), ∀ r ∈ decodeTable, w &&& r.mask = r.pattern →
    decode w = .ok (Instr.make r.mnemonic (Reg.ofIndex (w.extractLsb' 20 3)) (Reg.ofIndex (w.extractLsb' 16 3))
      (Reg.ofIndex (w.extractLsb' 12 3)))) ∧
  (∀ w : Word, (∀ r ∈ decodeTable, w &&& r.mask ≠ r.pattern) → ∃ e, decode w = .error e) ∧
  (∀ i : Instr, encode i = i.raw.mnemonic.opcode.setWidth 32 <<< 24 ||| i.raw.rd.setWidth 32 <<< 20
    ||| i.raw.rs1.setWidth 32 <<< 16 ||| i.raw.rs2.setWidth 32 <<< 12) ∧
  (∀ i : Instr, decode (encode i) = .ok i) ∧
  (∀ (w : Word) (i : Instr), decode w = .ok i → encode i = w) ∧
  (∃ l : List Word, l.Nodup ∧ l.length = 1832 ∧ ∀ w, w ∈ l ↔ ∃ i, decode w = .ok i)

/-- R76: the illegal words are those with an opcode not in R73, a non-zero `zero` field, a non-zero unused register
field or a used one of 8 to 15; offered to an engine that would accept a command, such a word is accepted and fails at
completion with code 5 and no other effect. -/
def Obligations.IllegalWordIsAcceptedAndFailsWithFive : Prop :=
  (∀ w : Word, (∃ e, decode w = .error e) ↔
    (Mnemonic.ofOpcode? (w.extractLsb' 24 8) = none ∨ ∃ c, RawCommand.ofWord? w = some c ∧ c.wellFormed = false)) ∧
  (∃ e, decode 0x00000000#32 = .error e) ∧ (∃ e, decode 0xFFFFFFFF#32 = .error e) ∧
  (∀ (s : State) (w : Word), (∃ e, decode w = .error e) → s.phase = .idle → s.err = false → s.resetLine = false →
    s.Does (.wr 0x14#16 w) { s with cmdReg := w, done := false, phase := .busy } ∧
    State.Completes { s with cmdReg := w, done := false, phase := .busy }
      { s with cmdReg := w, done := false, phase := .idle, err := true, errCode := 5#8, errCmd := w })

/-- Words of the spec's own vectors (95_test_vectors.md section 2) decode to the commands they stand for, and illegal
ones to none. -/
def Obligations.SpecWordsDecodeAsListed : Prop :=
  decode 0x01000000#32 = .ok (.ldi .n) ∧ decode 0x02200000#32 = .ok (.ldo .d) ∧
  decode 0x03050000#32 = .ok (.sti .x) ∧ decode 0x04060000#32 = .ok (.stm .y) ∧
  decode 0x05260000#32 = .ok (.mov .d .y) ∧ decode 0x06200000#32 = .ok (.clr .d) ∧
  decode 0x10034000#32 = .ok (.egcd .a .b) ∧ decode 0x11534000#32 = .ok (.gcd .x .a .b) ∧
  decode 0x12534000#32 = .ok (.lcm .x .a .b) ∧ decode 0x13215000#32 = .ok (.modinv .d .e .x) ∧
  decode 0x20530000#32 = .ok (.pub .x .a) ∧ decode 0x21350000#32 = .ok (.prv .a .x) ∧
  decode 0x01800000#32 = .error .reservedRegister ∧ decode 0x10134000#32 = .error .unusedFieldSet ∧
  decode 0x11534800#32 = .error .zeroFieldSet ∧ decode 0x14000000#32 = .error .unknownOpcode

/-! ## Codec, load, store and move commands (40_codec_load_store.md) -/

/-- R101: `LDI rd`. -/
def Obligations.LdiLoadsBigEndianInteger : Prop :=
  ∀ (rd : Reg) (s : State),
    decode (BitVec.ofNat 32 (0x01000000 + rd.index.toNat * 0x100000)) = .ok (.ldi rd) ∧
    (s.params.bufBytes < s.len.toNat → exec (.ldi rd) s = .next (s.failedWith 9#8)) ∧
    (s.len.toNat ≤ s.params.bufBytes → 2 ^ s.params.nbits ≤ beInt (s.memRead s.len.toNat) →
      exec (.ldi rd) s = .next (s.failedWith 8#8)) ∧
    (s.len.toNat ≤ s.params.bufBytes → beInt (s.memRead s.len.toNat) < 2 ^ s.params.nbits →
      exec (.ldi rd) s = .next (s.wrote rd (.int (beInt (s.memRead s.len.toNat)))) ∧
      (s.wrote rd (.int (beInt (s.memRead s.len.toNat)))).flagNibble rd
        = if beInt (s.memRead s.len.toNat) = 0 then 0b0101#4 else 0b0001#4) ∧
    (s.len = 0#32 → exec (.ldi rd) s = .next (s.wrote rd (.int 0))) ∧
    (∀ bytes : List Byte, beInt (0x00#8 :: bytes) = beInt bytes) ∧ beInt [0x0C#8, 0xA1#8] = 3233

/-- R102: `LDO rd`. -/
def Obligations.LdoLoadsOptionalInteger : Prop :=
  ∀ (rd : Reg) (s : State),
    decode (BitVec.ofNat 32 (0x02000000 + rd.index.toNat * 0x100000)) = .ok (.ldo rd) ∧
    (s.params.bufBytes < s.len.toNat → exec (.ldo rd) s = .next (s.failedWith 9#8)) ∧
    (s.len = 0#32 → exec (.ldo rd) s = .next (s.wrote rd .absent) ∧ (s.wrote rd .absent).flagNibble rd = 0b0000#4) ∧
    (s.len ≠ 0#32 → s.len.toNat ≤ s.params.bufBytes → 2 ^ s.params.nbits ≤ beInt (s.memRead s.len.toNat) →
      exec (.ldo rd) s = .next (s.failedWith 8#8)) ∧
    (s.len ≠ 0#32 → s.len.toNat ≤ s.params.bufBytes → beInt (s.memRead s.len.toNat) < 2 ^ s.params.nbits →
      exec (.ldo rd) s = .next (s.wrote rd (.int (beInt (s.memRead s.len.toNat)))) ∧
      (s.wrote rd (.int (beInt (s.memRead s.len.toNat)))).flagNibble rd
        = if beInt (s.memRead s.len.toNat) = 0 then 0b0101#4 else 0b0001#4) ∧
    (s.len ≠ 0#32 → exec (.ldo rd) s = exec (.ldi rd) s) ∧
    (s.len = 1#32 → 1 ≤ s.params.bufBytes → s.bufByte 0 = 0x00#8 →
      exec (.ldo rd) s = .next (s.wrote rd (.int 0)))

/-- R103: `STI rs1`. The length of the string fits `LEN` and the buffer because the invariant bounds the source. -/
def Obligations.StiStoresMinimalString : Prop :=
  ∀ (rs1 : Reg) (s : State),
    decode (BitVec.ofNat 32 (0x03000000 + rs1.index.toNat * 0x10000)) = .ok (.sti rs1) ∧
    (s.reg rs1 = .absent → exec (.sti rs1) s = .next (s.failedWith 1#8)) ∧
    (∀ z : Int, s.reg rs1 = .int z → z < 0 → exec (.sti rs1) s = .next (s.failedWith 1#8)) ∧
    (∀ v : Nat, s.Inv → s.reg rs1 = .int v →
      (∃ t, exec (.sti rs1) s = .next t ∧ s.Stored (intToBytes v) t ∧ t.rflags = s.rflags) ∧
      beInt (intToBytes v) = v ∧ (v = 0 → intToBytes v = [0x00#8]) ∧
      (v ≠ 0 → ∃ b rest, intToBytes v = b :: rest ∧ b ≠ 0x00#8) ∧
      (intToBytes v).length ≤ s.params.nbytes ∧ (intToBytes v).length ≤ s.params.bufBytes) ∧
    intToBytes 255 = [0xFF#8] ∧ intToBytes 256 = [0x01#8, 0x00#8] ∧ intToBytes 2790 = [0x0A#8, 0xE6#8]

/-- R104: `STM rs1`. -/
def Obligations.StmStoresMagnitude : Prop :=
  ∀ (rs1 : Reg) (s : State),
    decode (BitVec.ofNat 32 (0x04000000 + rs1.index.toNat * 0x10000)) = .ok (.stm rs1) ∧
    (s.reg rs1 = .absent → exec (.stm rs1) s = .next (s.failedWith 1#8)) ∧
    (∀ z : Int, s.Inv → s.reg rs1 = .int z →
      ∃ t, exec (.stm rs1) s = .next t ∧ s.Stored (intToBytes z.natAbs) t ∧ t.rflags = s.rflags ∧
        beInt (t.memRead t.len.toNat) = z.natAbs ∧
        (t.rflags.getLsbD (4 * rs1.index.toNat + 1) = true ↔ z < 0)) ∧
    (∀ v : Nat, s.reg rs1 = .int v → exec (.stm rs1) s = exec (.sti rs1) s) ∧
    intToBytes (Int.natAbs (-367)) = [0x01#8, 0x6F#8]

/-- R105: `MOV rd, rs1`. -/
def Obligations.MovCopiesAnyValue : Prop :=
  ∀ (rd rs1 : Reg) (s : State),
    decode (BitVec.ofNat 32 (0x05000000 + rd.index.toNat * 0x100000 + rs1.index.toNat * 0x10000))
      = .ok (.mov rd rs1) ∧
    exec (.mov rd rs1) s = .next (s.wrote rd (s.reg rs1)) ∧
    (s.wrote rd (s.reg rs1)).flagNibble rd = s.flagNibble rs1 ∧
    (rd = rs1 → exec (.mov rd rs1) s = .next { s with done := true, phase := .idle })

/-- R106: `CLR rd`. With `D` cleared the private transform of any valid input reports code 3. -/
def Obligations.ClrMakesRegisterAbsent : Prop :=
  ∀ (rd : Reg) (s : State),
    decode (BitVec.ofNat 32 (0x06000000 + rd.index.toNat * 0x100000)) = .ok (.clr rd) ∧
    exec (.clr rd) s = .next (s.wrote rd .absent) ∧
    (s.wrote rd .absent).flagNibble rd = 0b0000#4 ∧
    (s.reg rd = .absent → exec (.clr rd) s = .next { s with done := true, phase := .idle }) ∧
    (∀ (q src : Reg) (c n : Nat), src ≠ .d → s.reg src = .int c → s.reg .n = .int n → c < n →
      exec (.prv q src) (s.wrote .d .absent) = .next ((s.wrote .d .absent).failedWith 3#8))

/-- R54, R9: a byte string is big-endian: byte `k` of `len` weighs `256^(len-1-k)`; `be_bytes(v, L)` is the one string
of `L` bytes with value `v`. -/
def Obligations.ByteStringsAreBigEndian : Prop :=
  (∀ bytes : List Byte,
    beInt bytes = ∑ k ∈ Finset.range bytes.length, (bytes.getD k 0#8).toNat * 256 ^ (bytes.length - 1 - k)) ∧
  (∀ (l v : Nat) (bytes : List Byte), v < 256 ^ l →
    (bytes = beBytes v l ↔ bytes.length = l ∧ beInt bytes = v))

/-- R107: the codec laws, as sequences of two commands. -/
def Obligations.CodecRoundTrips : Prop :=
  (∀ (s : State) (r q : Reg) (v : Nat), s.Inv → s.reg r = .int v →
    ∃ t u, exec (.sti r) s = .next t ∧ exec (.ldi q) t = .next u ∧ u.done = true ∧ u.reg q = .int v) ∧
  (∀ (s : State) (r : Reg), s.Inv → s.len.toNat ≤ s.params.bufBytes →
    beInt (s.memRead s.len.toNat) < 2 ^ s.params.nbits →
    ∃ t u, exec (.ldi r) s = .next t ∧ exec (.sti r) t = .next u ∧ u.done = true ∧
      u.memRead u.len.toNat =
        if (s.memRead s.len.toNat).all (· == 0x00#8) then [0x00#8]
        else (s.memRead s.len.toNat).dropWhile (· == 0x00#8)) ∧
  (∀ (s : State) (r q : Reg) (v : Nat), s.Inv → s.reg r = .int v →
    ∃ t u, exec (.sti r) s = .next t ∧ exec (.ldo q) t = .next u ∧ 1 ≤ t.len.toNat ∧ u.reg q = .int v)

/-- R108: the minimal string is the hexadecimal digits, most significant first, with one `0` digit in front if their
number is odd, two digits to a byte; 0 is the one digit `0`. -/
def Obligations.MinimalStringIsPaddedHexDigits : Prop :=
  ∀ v : Nat,
    let digits := if v = 0 then [0] else (Nat.digits 16 v).reverse
    let padded := if digits.length % 2 = 1 then 0 :: digits else digits
    padded.length = 2 * (intToBytes v).length ∧
    ∀ k < (intToBytes v).length,
      (intToBytes v)[k]? = some (BitVec.ofNat 8 (16 * padded.getD (2 * k) 0 + padded.getD (2 * k + 1) 0))

/-- R109: padding on the left, the host's work, does not change the value that loads back; an unpadded value below
`256^(k-1)` has fewer than `k` bytes, for `k > 1`. -/
def Obligations.LeftPaddingKeepsTheValue : Prop :=
  (∀ (width : Nat) (bytes : List Byte),
    beInt (padLeft width bytes) = beInt bytes ∧ (padLeft width bytes).length = max width bytes.length) ∧
  (∀ v k : Nat, 1 < k → v < 256 ^ (k - 1) → (intToBytes v).length < k)

/-! ## Modular arithmetic commands (41_modular_arithmetic.md) -/

/-- R120: the operand check of the four commands: absent before domain, for every pair of registers; with two positive
operands, in any order of size, neither error is reported. -/
def Obligations.EuclidOperandsAreCheckedInOrder : Prop :=
  ∀ (rd rs1 rs2 : Reg) (s : State),
    ∀ i ∈ [Instr.egcd rs1 rs2, .gcd rd rs1 rs2, .lcm rd rs1 rs2, .modinv rd rs1 rs2],
      ((s.reg rs1 = .absent ∨ s.reg rs2 = .absent) → exec i s = .next (s.failedWith 6#8)) ∧
      (∀ n m : Int, s.reg rs1 = .int n → s.reg rs2 = .int m → (n ≤ 0 ∨ m ≤ 0) →
        exec i s = .next (s.failedWith 7#8)) ∧
      (∀ (n m : Int) (t : State), s.reg rs1 = .int n → s.reg rs2 = .int m → 0 < n → 0 < m → s.err = false →
        exec i s = .next t → t.err = true → t.errCode ≠ 6#8 ∧ t.errCode ≠ 7#8)

/-- R122: `EGCD rs1, rs2`. -/
def Obligations.EgcdWritesBezoutTriple : Prop :=
  ∀ (rs1 rs2 : Reg) (s : State) (n m : Nat),
    decode (BitVec.ofNat 32 (0x10000000 + rs1.index.toNat * 0x10000 + rs2.index.toNat * 0x1000))
      = .ok (.egcd rs1 rs2) ∧
    ((s.reg rs1 = .absent ∨ s.reg rs2 = .absent) → exec (.egcd rs1 rs2) s = .next (s.failedWith 6#8)) ∧
    (∀ n m : Int, s.reg rs1 = .int n → s.reg rs2 = .int m → (n ≤ 0 ∨ m ≤ 0) →
      exec (.egcd rs1 rs2) s = .next (s.failedWith 7#8)) ∧
    (0 < n → 0 < m → s.reg rs1 = .int n → s.reg rs2 = .int m →
      exec (.egcd rs1 rs2) s = .next
        { s with
          regs := ((s.regs.set .x (.int (xeuclid n m).1)).set .y (.int (xeuclid n m).2.1)).set .g
            (.int (xeuclid n m).2.2)
          done := true
          phase := .idle }) ∧
    (∀ t, 0 < n → 0 < m → s.reg rs1 = .int n → s.reg rs2 = .int m → exec (.egcd rs1 rs2) s = .next t →
      t.flagNibble .g = 0b0001#4 ∧ t.flagNibble .x = (BigValue.int (xeuclid n m).1).nibble ∧
      t.flagNibble .y = (BigValue.int (xeuclid n m).2.1).nibble) ∧
    (0 < n → 0 < m →
      (xeuclid n m).1 * n + (xeuclid n m).2.1 * m = (xeuclid n m).2.2 ∧
      (xeuclid n m).2.2 = Nat.gcd n m ∧ 0 < (xeuclid n m).2.2 ∧
      (xeuclid n m).1.natAbs ≤ m / (xeuclid n m).2.2 ∧ (xeuclid n m).2.1.natAbs ≤ n / (xeuclid n m).2.2 ∧
      (n = m → xeuclid n m = (0, 1, n)) ∧ (m = 1 → xeuclid n m = (0, 1, 1)) ∧
      (n = 1 → 1 < m → xeuclid n m = (1, 0, 1)) ∧ (m ∣ n → xeuclid n m = (0, 1, m)) ∧
      (n ∣ m → n < m → xeuclid n m = (1, 0, n)) ∧
      (Nat.gcd n m = 1 → (xeuclid n m).1 ≠ 0 → (xeuclid n m).2.1 ≠ 0 →
        ((xeuclid n m).1 < 0 ↔ 0 < (xeuclid n m).2.1))) ∧
    xeuclid 240 46 = (-9, 47, 2)

/-- R123: `GCD rd, rs1, rs2`. -/
def Obligations.GcdWritesGreatestCommonDivisor : Prop :=
  ∀ (rd rs1 rs2 : Reg) (s : State),
    decode (BitVec.ofNat 32 (0x11000000 + rd.index.toNat * 0x100000 + rs1.index.toNat * 0x10000
      + rs2.index.toNat * 0x1000)) = .ok (.gcd rd rs1 rs2) ∧
    ((s.reg rs1 = .absent ∨ s.reg rs2 = .absent) → exec (.gcd rd rs1 rs2) s = .next (s.failedWith 6#8)) ∧
    (∀ n m : Int, s.reg rs1 = .int n → s.reg rs2 = .int m → (n ≤ 0 ∨ m ≤ 0) →
      exec (.gcd rd rs1 rs2) s = .next (s.failedWith 7#8)) ∧
    (∀ n m : Nat, 0 < n → 0 < m → s.reg rs1 = .int n → s.reg rs2 = .int m →
      exec (.gcd rd rs1 rs2) s = .next (s.wrote rd (.int (Nat.gcd n m : Nat))) ∧
      (s.wrote rd (.int (Nat.gcd n m : Nat))).flagNibble rd = 0b0001#4 ∧
      exec (.gcd rd rs2 rs1) s = exec (.gcd rd rs1 rs2) s)

/-- R124: `LCM rd, rs1, rs2`. -/
def Obligations.LcmWritesLeastCommonMultiple : Prop :=
  ∀ (rd rs1 rs2 : Reg) (s : State),
    decode (BitVec.ofNat 32 (0x12000000 + rd.index.toNat * 0x100000 + rs1.index.toNat * 0x10000
      + rs2.index.toNat * 0x1000)) = .ok (.lcm rd rs1 rs2) ∧
    ((s.reg rs1 = .absent ∨ s.reg rs2 = .absent) → exec (.lcm rd rs1 rs2) s = .next (s.failedWith 6#8)) ∧
    (∀ n m : Int, s.reg rs1 = .int n → s.reg rs2 = .int m → (n ≤ 0 ∨ m ≤ 0) →
      exec (.lcm rd rs1 rs2) s = .next (s.failedWith 7#8)) ∧
    (∀ n m : Nat, 0 < n → 0 < m → s.reg rs1 = .int n → s.reg rs2 = .int m →
      (2 ^ s.params.nbits ≤ Nat.lcm n m → exec (.lcm rd rs1 rs2) s = .next (s.failedWith 8#8)) ∧
      (Nat.lcm n m < 2 ^ s.params.nbits →
        exec (.lcm rd rs1 rs2) s = .next (s.wrote rd (.int (Nat.lcm n m : Nat))) ∧
        (s.wrote rd (.int (Nat.lcm n m : Nat))).flagNibble rd = 0b0001#4) ∧
      n * m % (xeuclid n m).2.2 = 0 ∧ n * m / (xeuclid n m).2.2 = Nat.lcm n m ∧
      Nat.lcm n m * (xeuclid n m).2.2 = n * m)

/-- R125: `MODINV rd, rs1, rs2`. The result is the one inverse in `1 .. m-1`, whatever Bezout pair an engine works
with (R126 items 4 and 6). -/
def Obligations.ModinvWritesTheInverse : Prop :=
  ∀ (rd rs1 rs2 : Reg) (s : State),
    decode (BitVec.ofNat 32 (0x13000000 + rd.index.toNat * 0x100000 + rs1.index.toNat * 0x10000
      + rs2.index.toNat * 0x1000)) = .ok (.modinv rd rs1 rs2) ∧
    ((s.reg rs1 = .absent ∨ s.reg rs2 = .absent) → exec (.modinv rd rs1 rs2) s = .next (s.failedWith 6#8)) ∧
    (∀ n m : Int, s.reg rs1 = .int n → s.reg rs2 = .int m → (n ≤ 0 ∨ m ≤ 0) →
      exec (.modinv rd rs1 rs2) s = .next (s.failedWith 7#8)) ∧
    (∀ n m : Nat, 0 < n → 0 < m → s.reg rs1 = .int n → s.reg rs2 = .int m →
      (Nat.gcd n m ≠ 1 → exec (.modinv rd rs1 rs2) s = .next (s.failedWith 4#8)) ∧
      (Nat.gcd n m = 1 → ((xeuclid n m).1 = 0 ↔ m = 1)) ∧
      (m = 1 → exec (.modinv rd rs1 rs2) s = .next (s.failedWith 4#8)) ∧
      (Nat.gcd n m = 1 → 1 < m →
        ∃ v : Nat, exec (.modinv rd rs1 rs2) s = .next (s.wrote rd (.int v)) ∧
          (v : Int) = ((xeuclid n m).1 + m) % m ∧
          (v : Int) = (if 0 < (xeuclid n m).1 then (xeuclid n m).1 else (xeuclid n m).1 + m) ∧
          0 < v ∧ v < m ∧ v * n % m = 1 ∧ (∀ v' : Nat, v' < m → v' * n % m = 1 → v' = v) ∧
          (s.wrote rd (.int v)).flagNibble rd = 0b0001#4))

/-- R128: the remainder falls in every iteration, so the reference loop ends: more fuel than `m` changes nothing. -/
def Obligations.EuclidLoopEnds : Prop :=
  ∀ n m fuel : Nat, m ≤ fuel → xeuclidLoop fuel n m 1 0 0 1 = xeuclid n m

/-! ## Transforms (42_rsa_transform.md) -/

/-- R141: `PUB rd, rs1`. -/
def Obligations.PubComputesThePublicTransform : Prop :=
  ∀ (rd rs1 : Reg) (s : State),
    decode (BitVec.ofNat 32 (0x20000000 + rd.index.toNat * 0x100000 + rs1.index.toNat * 0x10000))
      = .ok (.pub rd rs1) ∧
    ((s.reg rs1 = .absent ∨ s.reg .n = .absent ∨ s.reg .e = .absent) →
      exec (.pub rd rs1) s = .next (s.failedWith 6#8)) ∧
    (∀ m n e : Int, s.reg rs1 = .int m → s.reg .n = .int n → s.reg .e = .int e → (m < 0 ∨ n < 0 ∨ e < 0) →
      exec (.pub rd rs1) s = .next (s.failedWith 7#8)) ∧
    (∀ m n e : Nat, s.reg rs1 = .int m → s.reg .n = .int n → s.reg .e = .int e →
      (n ≤ m → exec (.pub rd rs1) s = .next (s.failedWith 2#8)) ∧
      (m < n → exec (.pub rd rs1) s = .next (s.wrote rd (.int (m ^ e % n : Nat))) ∧
        (s.wrote rd (.int (m ^ e % n : Nat))).flagNibble rd = if m ^ e % n = 0 then 0b0101#4 else 0b0001#4))

/-- R142: `PRV rd, rs1`, with too large an input reported before a missing private exponent. -/
def Obligations.PrvComputesThePrivateTransform : Prop :=
  ∀ (rd rs1 : Reg) (s : State),
    decode (BitVec.ofNat 32 (0x21000000 + rd.index.toNat * 0x100000 + rs1.index.toNat * 0x10000))
      = .ok (.prv rd rs1) ∧
    ((s.reg rs1 = .absent ∨ s.reg .n = .absent) → exec (.prv rd rs1) s = .next (s.failedWith 6#8)) ∧
    (∀ c n : Int, s.reg rs1 = .int c → s.reg .n = .int n →
      (c < 0 ∨ n < 0 ∨ ∃ d : Int, s.reg .d = .int d ∧ d < 0) → exec (.prv rd rs1) s = .next (s.failedWith 7#8)) ∧
    (∀ c n : Nat, s.reg rs1 = .int c → s.reg .n = .int n → (∀ d : Int, s.reg .d = .int d → 0 ≤ d) →
      (n ≤ c → exec (.prv rd rs1) s = .next (s.failedWith 2#8)) ∧
      (c < n → s.reg .d = .absent → exec (.prv rd rs1) s = .next (s.failedWith 3#8)) ∧
      (∀ d : Nat, c < n → s.reg .d = .int d →
        exec (.prv rd rs1) s = .next (s.wrote rd (.int (c ^ d % n : Nat))) ∧
        (s.wrote rd (.int (c ^ d % n : Nat))).flagNibble rd = if c ^ d % n = 0 then 0b0101#4 else 0b0001#4))

/-- R146: the corner values of modular exponentiation. -/
def Obligations.ModexpCornerValues : Prop :=
  (∀ b n : Nat, 1 < n → modexp b 0 n = 1) ∧
  (∀ e : Nat, modexp 0 e 1 = 0) ∧
  (∀ e n : Nat, 1 ≤ n → 1 ≤ e → modexp 0 e n = 0) ∧
  (∀ e n : Nat, 1 < n → modexp 1 e n = 1) ∧
  (∀ e n : Nat, 2 < n → modexp (n - 1) e n = if e % 2 = 1 then n - 1 else 1) ∧
  (∀ b n : Nat, b < n → modexp b 1 n = b) ∧
  (∀ b e n : Nat, 1 ≤ n → n % 2 = 0 → modexp b e n = b ^ e % n)

/-- `PUB` does not read `D` and `PRV` does not read `E` (R141, R142): replacing the register replaces nothing else in
the outcome but that register, where the command does not write it. -/
def Obligations.TransformsIgnoreTheOtherExponent : Prop :=
  ∀ (rd rs1 : Reg) (s t : State) (v : BigValue),
    (rs1 ≠ .d → rd ≠ .d → exec (.pub rd rs1) s = .next t →
      exec (.pub rd rs1) { s with regs := s.regs.set .d v } = .next { t with regs := t.regs.set .d v }) ∧
    (rs1 ≠ .e → rd ≠ .e → exec (.prv rd rs1) s = .next t →
      exec (.prv rd rs1) { s with regs := s.regs.set .e v } = .next { t with regs := t.regs.set .e v })

/-- R143: with a valid key, `PUB X, A` then `PRV Y, X` leaves the message in `Y`, and so with the two swapped, for every
message below the modulus. -/
def Obligations.TransformsRoundTripUnderAValidKey : Prop :=
  ∀ (s : State) (p q e d m : Nat), s.ValidKey p q e d → s.reg .a = .int m → m < p * q →
    (∃ t u, exec (.pub .x .a) s = .next t ∧ exec (.prv .y .x) t = .next u ∧ u.reg .y = .int m ∧ u.done = true) ∧
    (∃ t u, exec (.prv .x .a) s = .next t ∧ exec (.pub .y .x) t = .next u ∧ u.reg .y = .int m ∧ u.done = true)

/-- R147, its first constraint alone: the Montgomery form gives the value of R140 for every legal argument with an odd
modulus below `2^NBITS` (log 15). -/
def Obligations.MontgomeryFormComputesModexp : Prop :=
  ∀ k b e n : Nat, n % 2 = 1 → n < 2 ^ k → b < n → montModexp k b e n = b ^ e % n

/-! ## Errors (60_exceptions.md) -/

/-- R173: which command can raise which code; a legal command never raises code 5, and an illegal word raises code 5. -/
def Obligations.CommandsRaiseTheListedErrors : Prop :=
  (∀ (m : Mnemonic) (k : ErrorKind),
    (∃ (i : Instr) (s : State), i.raw.mnemonic = m ∧ s.Inv ∧ exec i s = .next (s.fail k)) ↔ k ∈ raises m) ∧
  (∀ m : Mnemonic, ErrorKind.illegalCommand ∉ raises m) ∧
  (∀ s : State, s.phase = .busy → s.resetLine = false → (∃ e, decode s.cmdReg = .error e) →
    s.Completes (s.failedWith 5#8))

/-- R175: a failing command records its code and its word, and changes nothing else, whichever command it is and
whatever the state. -/
def Obligations.FailureChangesNothingElse : Prop :=
  (∀ (i : Instr) (s t : State), s.err = false → exec i s = .next t → t.err = true →
    t.errCode ≠ 0#8 ∧ t.errCode ≤ 9#8 ∧
      t = { s with err := true, errCode := t.errCode, errCmd := s.cmdReg, phase := .idle }) ∧
  (∀ s : State, s.phase = .busy → s.resetLine = false → (∃ e, decode s.cmdReg = .error e) →
    s.Completes { s with err := true, errCode := 5#8, errCmd := s.cmdReg, phase := .idle })

/-- R177: while a failure is unacknowledged no command is accepted; the return is a write to `STATUS` with bit 2 set:
it clears `ERR`, keeps `ERRCODE` and `ERRCMD`, and commands are accepted again. Reset clears `ERR` too. -/
def Obligations.AcknowledgeIsTheReturnFromFailure : Prop :=
  ∀ (s : State) (v w : Word), s.resetLine = false →
    (s.err = true → s.Does (.wr 0x14#16 w) { s with rej := true }) ∧
    (v.getLsbD 2 = true →
      ∃ t, s.Does (.wr 0x10#16 v) t ∧ t.err = false ∧ t.errCode = s.errCode ∧ t.errCmd = s.errCmd ∧
        t.regs = s.regs ∧ t.buf = s.buf ∧ t.len = s.len ∧
        (s.phase = .idle → t.Does (.wr 0x14#16 w) { t with cmdReg := w, done := false, phase := .busy })) ∧
    (∀ t, s.Does .assertReset t → t.err = false) ∧
    (∀ t, v.getLsbD 31 = true → s.Does (.wr 0x0C#16 v) t → t.err = false)

/-- R166: the error check after `wait` reads `STATUS`; on `ERR` the host reads the code, acknowledges, and drops what
was to follow; otherwise it goes on. -/
def Obligations.ErrorCheckFailsTheSequence : Prop :=
  ∀ s : State, s.resetLine = false →
    (s.err = true →
      s.Does .check
        { s with
          replies := .word s.statusWord :: s.replies
          script := [.host (.rd 0x18#16), .host (.wr 0x10#16 0x00000004#32)] }) ∧
    (s.err = false → s.Does .check { s with replies := .word s.statusWord :: s.replies })

/-- R178: the interrupt line follows the three status bits a host reads, under the three enables. -/
def Obligations.InterruptLineFollowsStatusAndEnables : Prop :=
  ∀ s : State,
    s.irq = ((s.statusWord.getLsbD 1 && s.ctrlWord.getLsbD 0) || (s.statusWord.getLsbD 2 && s.ctrlWord.getLsbD 1)
      || (s.statusWord.getLsbD 3 && s.ctrlWord.getLsbD 2))

/-! ## The control block and the buffer window (10_state.md, 20_memory.md) -/

/-- R27: `ID` reads `0x4D584531` always; a write to it is ignored without rejection. -/
def Obligations.IdReadsItsConstant : Prop :=
  ∀ (s : State) (v : Word), s.resetLine = false →
    s.Does (.rd 0x00#16) { s with replies := .word 0x4D584531#32 :: s.replies } ∧ s.Does (.wr 0x00#16 v) s

/-- R28: `NBITS` and `BUFSZ` read the parameters, ignore writes, and are constant: no step changes them. -/
def Obligations.ParameterRegistersAreConstant : Prop :=
  (∀ (s : State) (v : Word), s.params.legal = true → s.resetLine = false →
    (∃ w : Word, w.toNat = s.params.nbits ∧ s.Does (.rd 0x04#16) { s with replies := .word w :: s.replies }) ∧
    (∃ w : Word, w.toNat = s.params.bufBytes ∧ s.Does (.rd 0x08#16) { s with replies := .word w :: s.replies }) ∧
    s.Does (.wr 0x04#16 v) s ∧ s.Does (.wr 0x08#16 v) s) ∧
  (∀ s t : State, step s = .next t → t.params = s.params)

/-- R29: `CTRL`: the enables in bits 0 to 2, each of its status bit onto the interrupt line, reserved bits read 0 and ignore writes, a write with bit 31 set is the soft
reset; writable at any time, also while a command is in execution. -/
def Obligations.CtrlHoldsEnablesAndSoftReset : Prop :=
  (∀ (s : State) (v : Word), s.resetLine = false →
    s.Does (.rd 0x0C#16) { s with replies := .word s.ctrlWord :: s.replies } ∧
    s.ctrlWord.getLsbD 0 = s.ctrl.ieDone ∧ s.ctrlWord.getLsbD 1 = s.ctrl.ieErr ∧
    s.ctrlWord.getLsbD 2 = s.ctrl.ieRej ∧ (∀ i, 3 ≤ i → s.ctrlWord.getLsbD i = false) ∧
    (v.getLsbD 31 = false →
      s.Does (.wr 0x0C#16 v) { s with ctrl := ⟨v.getLsbD 0, v.getLsbD 1, v.getLsbD 2⟩ }) ∧
    (v.getLsbD 31 = true → s.Does (.wr 0x0C#16 v) s.takeReset) ∧
    s.irq = ((s.done && s.ctrl.ieDone) || (s.err && s.ctrl.ieErr) || (s.rej && s.ctrl.ieRej))) ∧
  State.reset.ctrlWord = 0#32

/-- R30: `STATUS`: its bits, and what a host write clears; `BUSY` is not writable, reserved bits read 0, a read changes
nothing. -/
def Obligations.StatusBitsAreWriteOneToClear : Prop :=
  ∀ (s : State) (v : Word), s.resetLine = false →
    s.Does (.rd 0x10#16) { s with replies := .word s.statusWord :: s.replies } ∧
    (s.statusWord.getLsbD 0 = true ↔ s.phase = .busy) ∧ s.statusWord.getLsbD 1 = s.done ∧
    s.statusWord.getLsbD 2 = s.err ∧ s.statusWord.getLsbD 3 = s.rej ∧
    (∀ i, 4 ≤ i → s.statusWord.getLsbD i = false) ∧
    s.Does (.wr 0x10#16 v)
      { s with
        done := if v.getLsbD 1 then false else s.done
        err := if v.getLsbD 2 then false else s.err
        rej := if v.getLsbD 3 then false else s.rej }

/-- R38: acceptance. A word is accepted exactly when the engine is idle with no failure pending; while it is busy
nothing the command works on changes before the step that ends the command. -/
def Obligations.AcceptanceLatchesAndOperandsHold : Prop :=
  (∀ (s : State) (w : Word), s.resetLine = false →
    s.Does (.wr 0x14#16 w)
      (if s.phase = .busy ∨ s.err = true then { s with rej := true }
       else { s with cmdReg := w, done := false, phase := .busy })) ∧
  (∀ s t : State, s.phase = .busy → step s = .next t → t.phase = .busy →
    t.regs = s.regs ∧ t.buf = s.buf ∧ t.bufDraw = s.bufDraw ∧ t.len = s.len ∧ t.cmdReg = s.cmdReg)

/-- R31, R32, R34: what `CMD`, `ERRCODE`, `ERRCMD` and `LEN` read; `LEN` takes any value while idle and is rejected while
busy; writes to `ERRCODE` and `ERRCMD` are ignored. -/
def Obligations.CommandErrorAndLengthRegisters : Prop :=
  ∀ (s : State) (v : Word), s.resetLine = false →
    s.Does (.rd 0x14#16) { s with replies := .word s.cmdReg :: s.replies } ∧
    (∃ w : Word, w.toNat = s.errCode.toNat ∧
      s.Does (.rd 0x18#16) { s with replies := .word w :: s.replies }) ∧
    s.Does (.rd 0x1C#16) { s with replies := .word s.errCmd :: s.replies } ∧
    s.Does (.rd 0x20#16) { s with replies := .word s.len :: s.replies } ∧
    s.Does (.wr 0x18#16 v) s ∧ s.Does (.wr 0x1C#16 v) s ∧
    (s.phase = .idle → s.Does (.wr 0x20#16 v) { s with len := v }) ∧
    (s.phase = .busy → s.Does (.wr 0x20#16 v) { s with rej := true })

/-- R32: `ERRCODE` and `ERRCMD` are written only by a failing completion, or by reset, which makes them 0. -/
def Obligations.OnlyFailureOrResetWritesTheErrorRegisters : Prop :=
  ∀ s t : State, step s = .next t → (t.errCode ≠ s.errCode ∨ t.errCmd ≠ s.errCmd) →
    (s.phase = .busy ∧ t.phase = .idle ∧ t.err = true ∧ t.errCode ≠ 0#8 ∧ t.errCmd = s.cmdReg ∧
      t.regs = s.regs ∧ t.buf = s.buf ∧ t.len = s.len) ∨
    (t.phase = .idle ∧ t.err = false ∧ t.errCode = 0#8 ∧ t.errCmd = 0#32 ∧ t.cmdReg = 0#32)

/-- R35: `RFLAGS`: for each register `PRESENT`, `NEG`, `ZERO` and a reserved 0; never `NEG` and `ZERO` together; a function
of the big registers; `isNatural` read off the nibble; 0 after reset. -/
def Obligations.RflagsDescribeTheBigRegisters : Prop :=
  (∀ (s : State) (r : Reg), s.resetLine = false →
    s.Does (.rd 0x24#16) { s with replies := .word s.rflags :: s.replies } ∧
    (s.rflags.getLsbD (4 * r.index.toNat) = true ↔ ∃ z, s.reg r = .int z) ∧
    (s.rflags.getLsbD (4 * r.index.toNat + 1) = true ↔ ∃ z, s.reg r = .int z ∧ z < 0) ∧
    (s.rflags.getLsbD (4 * r.index.toNat + 2) = true ↔ s.reg r = .int 0) ∧
    s.rflags.getLsbD (4 * r.index.toNat + 3) = false ∧
    (s.rflags.getLsbD (4 * r.index.toNat + 1) && s.rflags.getLsbD (4 * r.index.toNat + 2)) = false ∧
    (nibbleNatural true (s.flagNibble r) = true ↔ ∃ z, s.reg r = .int z ∧ 0 ≤ z) ∧
    (nibbleNatural false (s.flagNibble r) = true ↔ ∃ z, s.reg r = .int z ∧ 0 < z)) ∧
  (∀ (s : State) (v : Word), s.resetLine = false → s.Does (.wr 0x24#16 v) s) ∧
  (∀ s t : State, s.regs = t.regs → s.rflags = t.rflags) ∧ State.reset.rflags = 0#32

/-- R36: `KSIZE` reads 0 when `N` is absent, and otherwise the least positive number of bytes that holds the magnitude of
`N`, so 1 when `N = Int 0`; 0 after reset. -/
def Obligations.KsizeIsMinimalModulusLength : Prop :=
  (∀ (s : State) (v : Word), s.Inv → s.resetLine = false →
    s.Does (.rd 0x28#16) { s with replies := .word s.ksize :: s.replies } ∧
    s.Does (.wr 0x28#16 v) s ∧
    (s.reg .n = .absent → s.ksize = 0#32) ∧
    (∀ z : Int, s.reg .n = .int z →
      0 < s.ksize.toNat ∧ z.natAbs < 256 ^ s.ksize.toNat ∧
      ∀ l : Nat, 0 < l → z.natAbs < 256 ^ l → s.ksize.toNat ≤ l) ∧
    (s.reg .n = .int 0 → s.ksize = 1#32)) ∧
  State.reset.ksize = 0#32

/-- R58: no accepted read has a side effect; `LEN`, `CTRL` with bit 31 clear and `BUF` writes store the value and do
nothing else; writes to read-only registers are ignored and not rejected. -/
def Obligations.ReadsHaveNoSideEffect : Prop :=
  ∀ s : State, s.resetLine = false →
    (∀ off ∈ [0x00#16, 0x04#16, 0x08#16, 0x0C#16, 0x10#16, 0x14#16, 0x18#16, 0x1C#16, 0x20#16, 0x24#16, 0x28#16],
      ∃ w, s.Does (.rd off) { s with replies := .word w :: s.replies } ∧
        State.Does { s with replies := .word w :: s.replies } (.rd off)
          { s with replies := .word w :: .word w :: s.replies }) ∧
    (∀ k < s.params.bufBytes, s.params.bufBytes ≤ 61440 → s.phase = .idle →
      s.Does (.rdb (BitVec.ofNat 16 (0x1000 + k))) { s with replies := .byte (s.bufByte k) :: s.replies } ∧
      State.Does { s with replies := .byte (s.bufByte k) :: s.replies } (.rdb (BitVec.ofNat 16 (0x1000 + k)))
        { s with replies := .byte (s.bufByte k) :: .byte (s.bufByte k) :: s.replies } ∧
      (∀ b : Byte, ∃ t, s.Does (.wrb (BitVec.ofNat 16 (0x1000 + k)) b) t ∧ t = { s with buf := t.buf } ∧
        ∀ j, t.bufByte j = if j = k then b else s.bufByte j)) ∧
    (∀ v : Word, s.phase = .idle → s.Does (.wr 0x20#16 v) { s with len := v }) ∧
    (∀ v : Word, v.getLsbD 31 = false →
      s.Does (.wr 0x0C#16 v) { s with ctrl := ⟨v.getLsbD 0, v.getLsbD 1, v.getLsbD 2⟩ }) ∧
    (∀ (v : Word), ∀ off ∈ [0x00#16, 0x04#16, 0x08#16, 0x18#16, 0x1C#16, 0x24#16, 0x28#16], s.Does (.wr off v) s)

/-- R60: a host access is rejected in exactly the cases J1 to J7, and the effect is the same in every case: `REJ` is set,
a write stores nothing and starts nothing, a read returns something, and no other state changes; an accepted access
does not set `REJ`. -/
def Obligations.AccessesAreRejectedInExactlyTheListedCases : Prop :=
  ∀ (s : State) (op : HostOp), (plainAccess op = true ∨ ∃ v, op = .wr 0x0C#16 v) → s.resetLine = false →
    ∃ t, s.Does op t ∧
      (s.rejects op = true → t = { s with rej := true, draws := t.draws, replies := t.replies }) ∧
      (s.rejects op = false → t.rej = true → s.rej = true) ∧
      (isRead op = true → ∃ r, t.replies = r :: s.replies) ∧ (isRead op = false → t.replies = s.replies)

/-- While a command is in execution no host access changes what it works on (R38, R60), and the completion takes them as
they were at acceptance: any accesses of the host may come before the engine's turn, and the outcome of the command is
the same. -/
def Obligations.OutcomeIsIndependentOfHostAccesses : Prop :=
  ∀ (ops : List HostOp) (s u : State), s.Inv → s.phase = .busy → s.resetLine = false →
    (∀ op ∈ ops, plainAccess op = true) → s.Completes u →
    ∃ t, State.After (ops.length + 1) (s.before (ops.map .host ++ [.engine])) t ∧
      t.regs = u.regs ∧ t.buf = u.buf ∧ t.bufDraw = u.bufDraw ∧ t.len = u.len ∧ t.cmdReg = u.cmdReg ∧
      t.phase = u.phase ∧ t.done = u.done ∧ t.err = u.err ∧ t.errCode = u.errCode ∧ t.errCmd = u.errCmd

/-- R59: accepted reads apart, the plain stores and the write-1-to-clear of `STATUS` are idempotent; a second `CMD` write
is rejected. -/
def Obligations.PlainStoresAreIdempotent : Prop :=
  ∀ (s : State) (v : Word), s.resetLine = false →
    (∃ t, s.Does (.wr 0x10#16 v) t ∧ t.Does (.wr 0x10#16 v) t) ∧
    (v.getLsbD 31 = false → ∃ t, s.Does (.wr 0x0C#16 v) t ∧ t.Does (.wr 0x0C#16 v) t) ∧
    (∃ t, s.Does (.wr 0x20#16 v) t ∧ t.Does (.wr 0x20#16 v) t) ∧
    (∀ (off : Offset) (b : Byte), ∃ t, s.Does (.wrb off b) t ∧ t.Does (.wrb off b) t) ∧
    (s.phase = .idle → s.err = false →
      ∃ t, s.Does (.wr 0x14#16 v) t ∧ t.rej = s.rej ∧ t.Does (.wr 0x14#16 v) { t with rej := true })

/-! ## Reset (70_reset_and_hazards.md) -/

/-- R43: after reset, hard or soft, every register has its listed value: the big registers absent, idle, the control
registers 0, the parameters unaffected, and the buffer a fresh draw. -/
def Obligations.ResetLeavesTheListedValues : Prop :=
  (∀ s t : State, (s.Does .assertReset t ∨
      (s.resetLine = false ∧ ∃ v : Word, v.getLsbD 31 = true ∧ s.Does (.wr 0x0C#16 v) t)) →
    (∀ r, t.reg r = .absent) ∧ t.phase = .idle ∧ t.cmdReg = 0#32 ∧ t.ctrlWord = 0#32 ∧ t.statusWord = 0#32 ∧
    t.errCode = 0#8 ∧ t.errCmd = 0#32 ∧ t.len = 0#32 ∧ (∀ k, t.bufByte k = Config.resetByte s.draws k) ∧
    t.params = s.params ∧ t.rflags = 0#32 ∧ t.ksize = 0#32 ∧ t.irq = false) ∧
  (∀ r, State.reset.reg r = .absent) ∧ State.reset.phase = .idle ∧ State.reset.cmdReg = 0#32 ∧
  State.reset.ctrlWord = 0#32 ∧ State.reset.statusWord = 0#32 ∧ State.reset.errCode = 0#8 ∧
  State.reset.errCmd = 0#32 ∧ State.reset.len = 0#32 ∧ State.reset.rflags = 0#32 ∧ State.reset.ksize = 0#32 ∧
  State.reset.irq = false

/-- R190: asserting hard reset gives every reset value, whatever the engine was doing; while it stays asserted every host
access is without effect (a read returns something); when it is released the engine is idle with those values. A command
in execution ends by completing or by a reset, in no other way. -/
def Obligations.AccessesInResetHaveNoEffect : Prop :=
  (∀ s : State, ∃ b d, s.Does .assertReset
    { State.resetOf s.params with
      resetLine := true, bufDraw := b, draws := d, script := s.script, replies := s.replies }) ∧
  (∀ s : State, s.Inv → s.resetLine = true →
    (∀ op : HostOp, (plainAccess op = true ∨ ∃ v, op = .wr 0x0C#16 v) →
      ∃ t, s.Does op t ∧ t = { s with draws := t.draws, replies := t.replies } ∧
        (isRead op = true → ∃ r, t.replies = r :: s.replies)) ∧
    s.Completes s ∧
    s.Does .releaseReset
      { State.resetOf s.params with
        bufDraw := s.bufDraw, draws := s.draws, script := s.script, replies := s.replies }) ∧
  (∀ s t : State, s.phase = .busy → step s = .next t → t.phase = .idle →
    t.done = true ∨ t.err = true ∨ (∀ r, t.reg r = .absent) ∧ t.cmdReg = 0#32)

/-- R192: the soft reset is exactly a hard reset asserted and released within one host step, whatever the other bits of
the value written. -/
def Obligations.SoftResetEqualsHardReset : Prop :=
  ∀ (s t u : State) (v : Word), s.resetLine = false → v.getLsbD 31 = true →
    s.Does .assertReset t → t.Does .releaseReset u → s.Does (.wr 0x0C#16 v) u

/-- R193: if reset comes while a command is in execution, the completion never happens: `DONE` and `ERR` stay 0, no code
is recorded, and the engine's next turn does nothing. -/
def Obligations.ResetAbandonsTheCommand : Prop :=
  ∀ (s t : State), s.phase = .busy →
    (s.Does .assertReset t ∨ (s.resetLine = false ∧ ∃ v : Word, v.getLsbD 31 = true ∧ s.Does (.wr 0x0C#16 v) t)) →
    t.phase = .idle ∧ t.done = false ∧ t.err = false ∧ t.errCode = 0#8 ∧ (∀ r, t.reg r = .absent) ∧ t.Completes t

/-! ## The machine -/

/-- R39: a turn of the engine, with a command in execution and out of reset, is the completion of the command `CMDREG`
decodes to, or code 5; with no command in execution, or in reset, the engine holds its state. That the turns stand in the
script is the model's choice (log 4), and so is the engine's turn when no event is left (log 5). -/
def Obligations.CompletionRunsTheDecodedCommand : Prop :=
  ∀ (s : State) (rest : List Event),
    (s.phase = .busy → s.resetLine = false →
      (∀ i, decode s.cmdReg = .ok i →
        step { s with script := .engine :: rest } = exec i { s with script := rest } ∧
        step { s with script := [] } = exec i { s with script := [] }) ∧
      (∀ e, decode s.cmdReg = .error e →
        step { s with script := .engine :: rest } = .next (State.failedWith { s with script := rest } 5#8) ∧
        step { s with script := [] } = .next (State.failedWith { s with script := [] } 5#8))) ∧
    (s.phase = .idle ∨ s.resetLine = true →
      step { s with script := .engine :: rest } = .next { s with script := rest } ∧
      step { s with script := [] } = .next { s with script := [] })

/-- R39: `execute` is total: every command with every register, buffer and length content either succeeds, with `DONE`
set and `ERR` as it was, or fails with a code; either way it ends, draws nothing, and leaves `CMDREG`, `CTRL`, `REJ`, the
parameters and the host alone. -/
def Obligations.EveryCommandSucceedsOrFails : Prop :=
  ∀ (i : Instr) (s : State), ∃ t, exec i s = .next t ∧ t.phase = .idle ∧
    (((t.done = true ∧ t.err = s.err ∧ t.errCode = s.errCode ∧ t.errCmd = s.errCmd) ∨
      ∃ k ∈ raises i.raw.mnemonic, t = s.fail k)) ∧
    t.draws = s.draws ∧ t.bufDraw = s.bufDraw ∧ t.cmdReg = s.cmdReg ∧ t.ctrl = s.ctrl ∧ t.rej = s.rej ∧
    t.params = s.params ∧ t.resetLine = s.resetLine ∧ t.script = s.script ∧ t.replies = s.replies

/-- The frame of the commands that write one big register (R23): every other register and its flags, every byte of the
buffer, `LEN`, and everything but `DONE`, `ERR`, `ERRCODE`, `ERRCMD` and `BUSY` are unchanged. -/
def Obligations.FrameOfRegisterCommands : Prop :=
  ∀ (rd rs1 rs2 : Reg) (s t : State),
    ∀ i ∈ [Instr.ldi rd, .ldo rd, .mov rd rs1, .clr rd, .gcd rd rs1 rs2, .lcm rd rs1 rs2, .modinv rd rs1 rs2,
      .pub rd rs1, .prv rd rs1],
      exec i s = .next t →
        (∀ q, q ≠ rd → t.reg q = s.reg q ∧ t.flagNibble q = s.flagNibble q) ∧
        (∀ k, t.bufByte k = s.bufByte k) ∧
        t = { s with regs := t.regs, done := t.done, err := t.err, errCode := t.errCode, errCmd := t.errCmd,
                     phase := t.phase }

/-- The frame of `EGCD` (R23): every register but `X`, `Y`, `G`, every byte of the buffer, `LEN`, and everything but the
status of the command are unchanged. -/
def Obligations.FrameOfEgcd : Prop :=
  ∀ (rs1 rs2 : Reg) (s t : State), exec (.egcd rs1 rs2) s = .next t →
    (∀ q, q ≠ .x → q ≠ .y → q ≠ .g → t.reg q = s.reg q ∧ t.flagNibble q = s.flagNibble q) ∧
    (∀ k, t.bufByte k = s.bufByte k) ∧
    t = { s with regs := t.regs, done := t.done, err := t.err, errCode := t.errCode, errCmd := t.errCmd,
                 phase := t.phase }

/-- The frame of the store commands (R23, R100): no big register changes; a store writes at index 0 as many bytes as the
minimal string of the magnitude has, and every byte beyond them is unchanged; a store that fails changes no byte and
not `LEN`. -/
def Obligations.FrameOfStores : Prop :=
  ∀ (rs1 : Reg) (s t : State), ∀ i ∈ [Instr.sti rs1, .stm rs1], exec i s = .next t →
    (∀ q, t.reg q = s.reg q) ∧ t.rflags = s.rflags ∧
    (∀ z : Int, s.reg rs1 = .int z → ∀ k, (intToBytes z.natAbs).length ≤ k → t.bufByte k = s.bufByte k) ∧
    (s.reg rs1 = .absent → ∀ k, t.bufByte k = s.bufByte k) ∧
    (s.err = false → t.err = true → (∀ k, t.bufByte k = s.bufByte k) ∧ t.len = s.len) ∧
    t = { s with buf := t.buf, len := t.len, done := t.done, err := t.err, errCode := t.errCode, errCmd := t.errCmd,
                 phase := t.phase }

/-- The invariant holds right after reset, whatever the parameters of the instance. -/
def Obligations.InvariantHoldsAtReset : Prop := State.reset.Inv ∧ ∀ p : Params, p.legal = true → (State.resetOf p).Inv

/-- Every step keeps the invariant: the parameters legal, every register in the domain of R21, the buffer canonical and
inside its bounds (R55), `BUSY` without `DONE` or `ERR` (R30), failures recorded (R175), reset held (R190). -/
def Obligations.EveryStepKeepsTheInvariant : Prop :=
  ∀ s t : State, s.Inv → step s = .next t → t.Inv

/-- R200: every accepted command completes: from every state with a command in execution, whatever the host does next,
the engine comes to be idle. The fairness of the model is log 5. -/
def Obligations.EveryAcceptedCommandEnds : Prop :=
  ∀ s : State, s.phase = .busy → s.resetLine = false → ∃ t, s.Reaches t ∧ t.phase = .idle

/-! ## Host sequences (43_host_sequences.md) -/

/-- R160: `LOAD r, s` leaves the big-endian value of the string in the register, and nothing else of the register file
changed. It rests on the model's turn of the engine after a poll that found `BUSY` (log 5) and on its form of the host's
control flow (log 14). -/
def Obligations.LoadSequencePutsTheValueInTheRegister : Prop :=
  ∀ (s : State) (r : Reg) (bytes : List Byte), s.Inv → s.phase = .idle → s.err = false → s.resetLine = false →
    bytes.length ≤ s.params.bufBytes → beInt bytes < 2 ^ s.params.nbits →
    ∃ t, State.Reaches (s.before ((load s.params r bytes).map .host)) t ∧ t.script = s.script ∧
      t.reg r = .int (beInt bytes) ∧ (∀ q, q ≠ r → t.reg q = s.reg q) ∧
      t.memRead bytes.length = bytes ∧ t.len.toNat = bytes.length ∧
      t.phase = .idle ∧ t.done = true ∧ t.err = false

/-- R161: `STORE r` hands the host the length and then the bytes of the minimal string of the register's value, and
leaves the registers alone. It rests on the model's turn of the engine after a poll that found `BUSY` (log 5) and on its
form of the host's control flow, `getBytes` and the error check (log 14). -/
def Obligations.StoreSequenceHandsBackTheString : Prop :=
  ∀ (s : State) (r : Reg) (v : Nat), s.Inv → s.phase = .idle → s.err = false → s.resetLine = false →
    s.reg r = .int v →
    ∃ t old, State.Reaches (s.before ((store r).map .host)) t ∧ t.script = s.script ∧ t.regs = s.regs ∧
      t.replies = ((intToBytes v).map Reply.byte).reverse ++ .word (BitVec.ofNat 32 (intToBytes v).length) :: old ∧
      t.phase = .idle ∧ t.err = false

/-- R162, R163: the host sequences of the two transforms, with a key loaded and an input below the modulus, hand the host
the length and then the bytes of the minimal string of `m^E mod N`, and of `c^D mod N`, as their last reads. It rests on
the model's turn of the engine after a poll that found `BUSY` (log 5) and on its form of the host's control flow (log
14). -/
def Obligations.TransformSequencesComputeTheTransforms : Prop :=
  ∀ (s : State) (data : List Byte) (n e : Nat), s.Inv → s.phase = .idle → s.err = false → s.resetLine = false →
    s.reg .n = .int n → data.length ≤ s.params.bufBytes → beInt data < n →
    (s.reg .e = .int e → ∃ t old, State.Reaches (s.before ((publicTransform s.params data).map .host)) t ∧
      t.script = s.script ∧
      t.replies = ((intToBytes (beInt data ^ e % n)).map Reply.byte).reverse
        ++ .word (BitVec.ofNat 32 (intToBytes (beInt data ^ e % n)).length) :: old ∧ t.err = false) ∧
    (s.reg .d = .int e → ∃ t old, State.Reaches (s.before ((privateTransform s.params data).map .host)) t ∧
      t.script = s.script ∧
      t.replies = ((intToBytes (beInt data ^ e % n)).map Reply.byte).reverse
        ++ .word (BitVec.ofNat 32 (intToBytes (beInt data ^ e % n)).length) :: old ∧ t.err = false)
end

