-- ==== Sys2Proof/Laws/Arith.lean ====
section
/-! SUPPORT. The laws of lengths and byte strings (00_scope.md R8, R9; 40_codec_load_store.md R107). -/

namespace Sys2Proof.Machine

open Sys2Proof

/-- `bitlen(v)` is the least `k` with `v < 2^k` (R8). -/
theorem bitlen_le_iff (v k : Nat) : bitlen v ≤ k ↔ v < 2 ^ k := by
  unfold bitlen
  split
  · next h => subst h; simp
  · next h => exact Nat.log2_lt h

/-- The overflow check is the comparison with `2^NBITS` (R21). -/
theorem fits_iff (p : Params) (v : Nat) : fits p v = true ↔ v < 2 ^ p.nbits := by
  simp [fits, bitlen_le_iff]

theorem fits_eq_false_iff (p : Params) (v : Nat) : fits p v = false ↔ 2 ^ p.nbits ≤ v := by
  rw [← Bool.not_eq_true, fits_iff, Nat.not_lt]

theorem bytelen_pos (v : Nat) : 0 < bytelen v := by unfold bytelen; omega

/-- `bytelen(v)` is the least positive `L` with `v < 256^L` (R8). -/
theorem bytelen_le_iff (v : Nat) {l : Nat} (hl : 0 < l) : bytelen v ≤ l ↔ v < 256 ^ l := by
  have h : (256 : Nat) ^ l = 2 ^ (8 * l) := by rw [Nat.pow_mul]
  rw [h, ← bitlen_le_iff]
  unfold bytelen
  omega

theorem lt_pow_bytelen (v : Nat) : v < 256 ^ bytelen v :=
  (bytelen_le_iff v (bytelen_pos v)).1 (Nat.le_refl _)

@[simp] theorem length_beBytes (v l : Nat) : (beBytes v l).length = l := by
  induction l with
  | zero => rfl
  | succ l ih => simp [beBytes, ih]

@[simp] theorem length_intToBytes (v : Nat) : (intToBytes v).length = bytelen v := by simp [intToBytes]

theorem foldl_beInt (a : Nat) (bs : List Byte) :
    bs.foldl (fun v b => v * 256 + b.toNat) a = a * 256 ^ bs.length + beInt bs := by
  unfold beInt
  induction bs generalizing a with
  | nil => simp
  | cons b bs ih =>
    simp only [List.foldl_cons, List.length_cons]
    rw [ih (a * 256 + b.toNat), ih (0 * 256 + b.toNat)]
    ring

@[simp] theorem beInt_nil : beInt [] = 0 := rfl

/-- The first byte is the most significant (R9, 20_memory.md R54). -/
theorem beInt_cons (b : Byte) (bs : List Byte) : beInt (b :: bs) = b.toNat * 256 ^ bs.length + beInt bs := by
  have := foldl_beInt (0 * 256 + b.toNat) bs
  simpa [beInt] using this

theorem beInt_lt (bs : List Byte) : beInt bs < 256 ^ bs.length := by
  induction bs with
  | nil => simp
  | cons b bs ih =>
    rw [beInt_cons, List.length_cons, Nat.pow_succ]
    have hb : b.toNat < 256 := b.isLt
    calc b.toNat * 256 ^ bs.length + beInt bs < b.toNat * 256 ^ bs.length + 256 ^ bs.length := by omega
      _ = (b.toNat + 1) * 256 ^ bs.length := by ring
      _ ≤ 256 * 256 ^ bs.length := Nat.mul_le_mul_right _ (by omega)
      _ = 256 ^ bs.length * 256 := Nat.mul_comm _ _

theorem beInt_beBytes_mod (v l : Nat) : beInt (beBytes v l) = v % 256 ^ l := by
  induction l with
  | zero => simp [beBytes, Nat.mod_one]
  | succ l ih =>
    have h256 : (BitVec.ofNat 8 (v / 256 ^ l)).toNat = v / 256 ^ l % 256 := by simp
    rw [beBytes, beInt_cons, ih, length_beBytes, h256, Nat.pow_succ, Nat.mod_mul]
    ring

/-- `be_int` undoes `be_bytes` (R9). -/
theorem beInt_beBytes {v l : Nat} (h : v < 256 ^ l) : beInt (beBytes v l) = v := by
  rw [beInt_beBytes_mod, Nat.mod_eq_of_lt h]

/-- The codec law of the source: a value survives the trip through its minimal string (R107). -/
theorem beInt_intToBytes (v : Nat) : beInt (intToBytes v) = v := beInt_beBytes (lt_pow_bytelen v)

theorem beBytes_beInt (bs : List Byte) : beBytes (beInt bs) bs.length = bs := by
  induction bs with
  | nil => rfl
  | cons b bs ih =>
    have hlt := beInt_lt bs
    have hpos : 0 < 256 ^ bs.length := Nat.pow_pos (by decide)
    have hq : beInt (b :: bs) / 256 ^ bs.length = b.toNat := by
      rw [beInt_cons, Nat.mul_comm, Nat.mul_add_div hpos, Nat.div_eq_of_lt hlt, Nat.add_zero]
    have hmod : ∀ l ≤ bs.length, beBytes (beInt (b :: bs)) l = beBytes (beInt bs) l := by
      intro l hl
      induction l with
      | zero => rfl
      | succ l ihl =>
        simp only [beBytes]
        rw [ihl (by omega)]
        congr 1
        apply BitVec.eq_of_toNat_eq
        have hd : (256 : Nat) ^ bs.length = 256 ^ l * (256 * 256 ^ (bs.length - l - 1)) := by
          rw [← Nat.pow_succ', ← Nat.pow_add]; congr 1; omega
        have hpl : 0 < 256 ^ l := Nat.pow_pos (by decide)
        have : beInt (b :: bs) / 256 ^ l = 256 * (b.toNat * 256 ^ (bs.length - l - 1)) + beInt bs / 256 ^ l := by
          rw [beInt_cons, hd]
          rw [show b.toNat * (256 ^ l * (256 * 256 ^ (bs.length - l - 1)))
            = 256 ^ l * (256 * (b.toNat * 256 ^ (bs.length - l - 1))) by ring, Nat.mul_add_div hpl]
        simp [this]
    simp only [List.length_cons, beBytes, hq, hmod _ (Nat.le_refl _), ih]
    simp

end Sys2Proof.Machine
end

