-- ==== Sys2Proof/Laws/Config.lean ====
section
/-! SUPPORT. The open parameters: whatever the two open choices are, the parameters are legal, and every legal pair
comes from some two choices, so a claim about `Config.params` is a claim about every instance (log 1). -/

namespace Sys2Proof

theorem Params.legal_iff (p : Params) :
    p.legal = true ↔ 0 < p.nbytes ∧ p.nbytes ≤ p.bufBytes ∧ p.bufBytes ≤ 61440 := by
  simp [Params.legal, and_assoc]

theorem Params.ofChoices_legal (a b : Nat) : (Params.ofChoices a b).legal = true := by
  rw [Params.legal_iff]
  have ha : a % 61440 < 61440 := Nat.mod_lt _ (by decide)
  have hb : b % (61440 - a % 61440) < 61440 - a % 61440 := Nat.mod_lt _ (by omega)
  simp only [Params.ofChoices]
  omega

theorem Params.exists_choices {p : Params} (h : p.legal = true) : ∃ a b, Params.ofChoices a b = p := by
  obtain ⟨h1, h2, h3⟩ := (Params.legal_iff p).1 h
  refine ⟨p.nbytes - 1, p.bufBytes - p.nbytes, ?_⟩
  have ha : (p.nbytes - 1) % 61440 = p.nbytes - 1 := Nat.mod_eq_of_lt (by omega)
  have hb : (p.bufBytes - p.nbytes) % (61440 - (p.nbytes - 1)) = p.bufBytes - p.nbytes :=
    Nat.mod_eq_of_lt (by omega)
  simp only [Params.ofChoices, ha, hb]
  cases p
  simp only [Params.mk.injEq]
  simp only at h1 h2
  omega

theorem Config.params_legal : Config.params.legal = true := Params.ofChoices_legal _ _

end Sys2Proof
end

