-- ==== Sys2Proof/Laws/Decode.lean ====
section
/-! SUPPORT. The register index and field (10_state.md R22, 30_encoding.md R72), and the match and mask table
(30_encoding.md R73): no two rows can match one word. -/

namespace Sys2Proof

@[simp] theorem Reg.ofIndex_index (r : Reg) : Reg.ofIndex r.index = r := by cases r <;> rfl

@[simp] theorem Reg.index_ofIndex (i : BitVec 3) : (Reg.ofIndex i).index = i := by revert i; decide

/-- The low three bits of a register field are the index. -/
@[simp] theorem Reg.field_low (r : Reg) : r.field.extractLsb' 0 3 = r.index := by cases r <;> decide

theorem Reg.field_legal (r : Reg) : registerFieldLegal true r.field = true := by cases r <;> decide

theorem registerFieldLegal_unused (f : BitVec 4) : registerFieldLegal false f = true ↔ f = 0#4 := by
  simp [registerFieldLegal]

/-- A used field is legal exactly when it names a register. -/
theorem registerFieldLegal_used (f : BitVec 4) : registerFieldLegal true f = true ↔ ∃ r : Reg, f = r.field := by
  constructor
  · intro h
    refine ⟨Reg.ofIndex (f.extractLsb' 0 3), ?_⟩
    revert h; revert f; decide
  · rintro ⟨r, rfl⟩; exact r.field_legal

/-- Two rows of the table differ in a bit both masks keep, so no word is in both (R73). -/
theorem decodeTable_disjoint :
    decodeTable.Pairwise fun q r => (q.pattern ^^^ r.pattern) &&& (q.mask &&& r.mask) ≠ 0#32 := by decide

/-- Every row fixes the opcode of its own mnemonic (R73). -/
theorem decodeTable_opcode :
    ∀ r ∈ decodeTable, r.pattern = r.mnemonic.opcode ++ 0#24 ∧ r.mask.extractLsb' 24 8 = 0xFF#8 := by decide

/-- Every row keeps out the bits its mnemonic does not use, and bit 3 of those it does (R72, R73). -/
theorem decodeTable_masks :
    ∀ r ∈ decodeTable,
      r.mask.extractLsb' 20 4 = (if r.mnemonic.usesRd then 0x8#4 else 0xF#4) ∧
      r.mask.extractLsb' 16 4 = (if r.mnemonic.usesRs1 then 0x8#4 else 0xF#4) ∧
      r.mask.extractLsb' 12 4 = (if r.mnemonic.usesRs2 then 0x8#4 else 0xF#4) ∧
      r.mask.extractLsb' 0 12 = 0xFFF#12 := by decide

@[simp] theorem Mnemonic.ofOpcode?_opcode (m : Mnemonic) : Mnemonic.ofOpcode? m.opcode = some m := by cases m <;> rfl

theorem Mnemonic.opcode_injective {m m' : Mnemonic} (h : m.opcode = m'.opcode) : m = m' := by
  simpa using congrArg Mnemonic.ofOpcode? h

end Sys2Proof
end

