-- ==== Sys2Proof/Laws/Euclid.lean ====
section
/-! SUPPORT. The extended Euclidean algorithm (41_modular_arithmetic.md R121, R126): one lemma says everything
`xeuclid` gives. -/

namespace Sys2Proof.Machine

open Sys2Proof

/-- The invariant of the loop: the rows of R121, the signs of the coefficients, and their bounds. `neg` is the sign of
the iteration: `s1` and `t0` carry it. -/
structure EuclidInv (n m r0 r1 : Nat) (s0 s1 t0 t1 : Int) : Prop where
  row0 : (r0 : Int) = s0 * n + t0 * m
  row1 : (r1 : Int) = s1 * n + t1 * m
  gcd : Nat.gcd r0 r1 = Nat.gcd n m
  det : s0 * t1 - s1 * t0 = 1 ∨ s0 * t1 - s1 * t0 = -1
  /-- The magnitudes weighted by the remainders add up to the operands. -/
  wsum : s0.natAbs * r1 + s1.natAbs * r0 = m
  vsum : t0.natAbs * r1 + t1.natAbs * r0 = n
  sign : (0 ≤ s0 ∧ s1 ≤ 0 ∧ t0 ≤ 0 ∧ 0 ≤ t1) ∨ (s0 ≤ 0 ∧ 0 ≤ s1 ∧ 0 ≤ t0 ∧ t1 ≤ 0)

theorem EuclidInv.start (n m : Nat) : EuclidInv n m n m 1 0 0 1 where
  row0 := by simp
  row1 := by simp
  gcd := rfl
  det := by simp
  wsum := by simp
  vsum := by simp
  sign := by simp

theorem natAbs_update {a b : Int} (q : Nat) (h : (0 ≤ a ∧ b ≤ 0) ∨ (a ≤ 0 ∧ 0 ≤ b)) :
    (a - (q : Int) * b).natAbs = a.natAbs + q * b.natAbs := by
  rcases h with ⟨ha, hb⟩ | ⟨ha, hb⟩
  · have h1 : (q : Int) * b ≤ 0 := Int.mul_nonpos_of_nonneg_of_nonpos (by omega) hb
    have h2 : ((q * b.natAbs : Nat) : Int) = -((q : Int) * b) := by
      push_cast; rw [abs_of_nonpos hb]; ring
    omega
  · have h1 : 0 ≤ (q : Int) * b := Int.mul_nonneg (by omega) hb
    have h2 : ((q * b.natAbs : Nat) : Int) = (q : Int) * b := by
      push_cast; rw [abs_of_nonneg hb]
    omega

theorem EuclidInv.next {n m r0 r1 : Nat} {s0 s1 t0 t1 : Int} (h : EuclidInv n m r0 r1 s0 s1 t0 t1) :
    EuclidInv n m r1 (r0 % r1) s1 (s0 - ((r0 / r1 : Nat) : Int) * s1) t1 (t0 - ((r0 / r1 : Nat) : Int) * t1) := by
  have hmod : ((r0 % r1 : Nat) : Int) = r0 - ((r0 / r1 : Nat) : Int) * r1 := by
    have := Nat.div_add_mod r0 r1
    have h2 : (r0 : Int) = r1 * ((r0 / r1 : Nat) : Int) + ((r0 % r1 : Nat) : Int) := by exact_mod_cast this.symm
    rw [Int.mul_comm] at h2
    omega
  have hdm : r0 / r1 * r1 + r0 % r1 = r0 := by rw [Nat.mul_comm]; exact Nat.div_add_mod r0 r1
  have hs : (s0 - ((r0 / r1 : Nat) : Int) * s1).natAbs = s0.natAbs + r0 / r1 * s1.natAbs :=
    natAbs_update _ (h.sign.imp (fun p => ⟨p.1, p.2.1⟩) (fun p => ⟨p.1, p.2.1⟩))
  have ht : (t0 - ((r0 / r1 : Nat) : Int) * t1).natAbs = t0.natAbs + r0 / r1 * t1.natAbs :=
    natAbs_update _ (h.sign.symm.imp (fun p => ⟨p.2.2.1, p.2.2.2⟩) (fun p => ⟨p.2.2.1, p.2.2.2⟩))
  refine ⟨h.row1, ?_, ?_, ?_, ?_, ?_, ?_⟩
  · rw [hmod, h.row0, h.row1]; ring
  · rw [← h.gcd, Nat.gcd_comm r1, ← Nat.gcd_rec, Nat.gcd_comm]
  · rcases h.det with hd | hd
    · right; linarith [hd]
    · left; linarith [hd]
  · rw [hs]
    calc s1.natAbs * (r0 % r1) + (s0.natAbs + r0 / r1 * s1.natAbs) * r1
        = s0.natAbs * r1 + s1.natAbs * (r0 / r1 * r1 + r0 % r1) := by ring
      _ = m := by rw [hdm]; exact h.wsum
  · rw [ht]
    calc t1.natAbs * (r0 % r1) + (t0.natAbs + r0 / r1 * t1.natAbs) * r1
        = t0.natAbs * r1 + t1.natAbs * (r0 / r1 * r1 + r0 % r1) := by ring
      _ = n := by rw [hdm]; exact h.vsum
  · have hq : (0 : Int) ≤ ((r0 / r1 : Nat) : Int) := Int.natCast_nonneg _
    rcases h.sign with ⟨a, b, c, d⟩ | ⟨a, b, c, d⟩
    · right
      have := Int.mul_nonpos_of_nonneg_of_nonpos hq b
      have := Int.mul_nonneg hq d
      exact ⟨b, by omega, d, by omega⟩
    · left
      have := Int.mul_nonneg hq b
      have := Int.mul_nonpos_of_nonneg_of_nonpos hq d
      exact ⟨b, by omega, d, by omega⟩

/-- With enough fuel the loop ends with a zero remainder, in a row of the invariant; if it ran at all, the coefficients
it returns are no larger than the last ones it computed. -/
theorem xeuclidLoop_spec {n m : Nat} (fuel : Nat) {r0 r1 : Nat} {s0 s1 t0 t1 : Int} (hf : r1 ≤ fuel)
    (h : EuclidInv n m r0 r1 s0 s1 t0 t1) :
    ∃ s1' t1', EuclidInv n m (xeuclidLoop fuel r0 r1 s0 s1 t0 t1).2.2 0
      (xeuclidLoop fuel r0 r1 s0 s1 t0 t1).1 s1' (xeuclidLoop fuel r0 r1 s0 s1 t0 t1).2.1 t1' ∧
      (0 < r0 → 0 < r1 → (xeuclidLoop fuel r0 r1 s0 s1 t0 t1).1.natAbs ≤ s1'.natAbs ∧
        (xeuclidLoop fuel r0 r1 s0 s1 t0 t1).2.1.natAbs ≤ t1'.natAbs) := by
  induction fuel generalizing r0 r1 s0 s1 t0 t1 with
  | zero =>
    obtain rfl : r1 = 0 := by omega
    exact ⟨s1, t1, h, fun _ h0 => absurd h0 (Nat.lt_irrefl 0)⟩
  | succ fuel ih =>
    simp only [xeuclidLoop]
    split
    · next h0 => subst h0; exact ⟨s1, t1, h, fun _ h0 => absurd h0 (Nat.lt_irrefl 0)⟩
    · next h0 =>
      have hlt : r0 % r1 < r1 := Nat.mod_lt _ (by omega)
      by_cases hz : r0 % r1 = 0
      · have hn := h.next
        rw [hz] at hn ⊢
        have hstop : ∀ a b c d : Int, xeuclidLoop fuel r1 0 a b c d = (a, c, r1) := by
          intro a b c d; cases fuel <;> simp [xeuclidLoop]
        rw [hstop]
        refine ⟨_, _, hn, fun hr0 _ => ?_⟩
        have hq : 1 ≤ r0 / r1 := by
          have := Nat.div_add_mod r0 r1
          rcases Nat.eq_zero_or_pos (r0 / r1) with h1 | h1
          · rw [h1, hz] at this; omega
          · exact h1
        rw [natAbs_update _ (h.sign.imp (fun p => ⟨p.1, p.2.1⟩) (fun p => ⟨p.1, p.2.1⟩)),
          natAbs_update _ (h.sign.symm.imp (fun p => ⟨p.2.2.1, p.2.2.2⟩) (fun p => ⟨p.2.2.1, p.2.2.2⟩))]
        exact ⟨Nat.le_add_left_of_le (Nat.le_mul_of_pos_left _ hq),
          Nat.le_add_left_of_le (Nat.le_mul_of_pos_left _ hq)⟩
      · obtain ⟨s', t', hi, hb⟩ := ih (by omega) h.next
        exact ⟨s', t', hi, fun _ _ => hb (by omega) (by omega)⟩

/-- `xeuclid(n, m) = (x, y, g)` has `x*n + y*m = g` and `g = gcd(n, m)` (R121, R126 item 1). -/
theorem xeuclid_spec (n m : Nat) :
    (xeuclid n m).1 * n + (xeuclid n m).2.1 * m = (xeuclid n m).2.2 ∧ (xeuclid n m).2.2 = Nat.gcd n m := by
  obtain ⟨s1, t1, h, -⟩ := xeuclidLoop_spec (n := n) (m := m) m (Nat.le_refl m) (EuclidInv.start n m)
  exact ⟨h.row0.symm, by simpa [xeuclid] using h.gcd⟩

/-- The coefficients are bounded: `abs(x) <= m / g` and `abs(y) <= n / g` (R126 item 3). -/
theorem xeuclid_bounds {n m : Nat} (hn : 0 < n) (hm : 0 < m) :
    (xeuclid n m).1.natAbs ≤ m / Nat.gcd n m ∧ (xeuclid n m).2.1.natAbs ≤ n / Nat.gcd n m := by
  obtain ⟨s1, t1, h, hb⟩ := xeuclidLoop_spec (n := n) (m := m) m (Nat.le_refl m) (EuclidInv.start n m)
  have hg : 0 < Nat.gcd n m := Nat.gcd_pos_of_pos_left m hn
  have hgcd : (xeuclidLoop m n m 1 0 0 1).2.2 = Nat.gcd n m := by simpa using h.gcd
  have hw : s1.natAbs * Nat.gcd n m = m := by rw [← hgcd]; simpa using h.wsum
  have hv : t1.natAbs * Nat.gcd n m = n := by rw [← hgcd]; simpa using h.vsum
  have h1 : m / Nat.gcd n m = s1.natAbs := Nat.div_eq_of_eq_mul_left hg hw.symm
  have h2 : n / Nat.gcd n m = t1.natAbs := Nat.div_eq_of_eq_mul_left hg hv.symm
  rw [h1, h2]
  exact hb hn hm

end Sys2Proof.Machine
end

