-- ==== Sys2Proof/Laws/Modexp.lean ====
section
/-! SUPPORT. The loop of `modexp` computes the power (42_rsa_transform.md R140). -/

namespace Sys2Proof.Machine

open Sys2Proof

/-- The invariant of R140: after the iteration for bit `i`, `acc = b^(e div 2^i) mod n`. -/
theorem modexpLoop_spec (b e n i : Nat) : modexpLoop b e n i (b ^ (e / 2 ^ i) % n) = b ^ e % n := by
  induction i with
  | zero => simp [modexpLoop]
  | succ i ih =>
    have hsplit : e / 2 ^ i = 2 * (e / 2 ^ (i + 1)) + (e.testBit i).toNat := by
      rw [Nat.pow_succ, ← Nat.div_div_eq_div_mul, Nat.toNat_testBit]
      omega
    have hsq : b ^ (e / 2 ^ (i + 1)) % n * (b ^ (e / 2 ^ (i + 1)) % n) % n = b ^ (2 * (e / 2 ^ (i + 1))) % n := by
      rw [← Nat.mul_mod, ← Nat.pow_add, ← Nat.two_mul]
    simp only [modexpLoop, hsq]
    rw [← ih, hsplit]
    cases e.testBit i with
    | false => simp
    | true => simp [Nat.pow_succ, Nat.mod_mul_mod]

/-- `modexp(b, e, n) = b^e mod n` (R140). -/
theorem modexp_eq (b e n : Nat) : modexp b e n = b ^ e % n := by
  have h : e / 2 ^ bitlen e = 0 := Nat.div_eq_of_lt ((bitlen_le_iff e _).1 (Nat.le_refl _))
  have := modexpLoop_spec b e n (bitlen e)
  rwa [h, Nat.pow_zero] at this

end Sys2Proof.Machine
end

