-- ==== Sys2Proof/Laws/Operands.lean ====
section
/-! SUPPORT. What each operand form answers (40_codec_load_store.md R101; 41_modular_arithmetic.md R120;
42_rsa_transform.md R141, R142): one lemma for each outcome, in the order of the checks. -/

namespace Sys2Proof.Machine

open Sys2Proof

variable {s : State} {rs1 rs2 : Reg}

/-! The byte string of a load. -/

theorem State.loadOperand_tooLong (h : s.params.bufBytes < s.len.toNat) :
    s.loadOperand = .error .bufferLength := by
  simp [State.loadOperand, h]

theorem State.loadOperand_overflow (h : s.len.toNat ≤ s.params.bufBytes)
    (hv : 2 ^ s.params.nbits ≤ beInt (s.memRead s.len.toNat)) : s.loadOperand = .error .resultOverflow := by
  simp [State.loadOperand, Nat.not_lt.2 h, (fits_eq_false_iff _ _).2 hv]

theorem State.loadOperand_ok (h : s.len.toNat ≤ s.params.bufBytes)
    (hv : beInt (s.memRead s.len.toNat) < 2 ^ s.params.nbits) :
    s.loadOperand = .ok (beInt (s.memRead s.len.toNat)) := by
  simp [State.loadOperand, Nat.not_lt.2 h, (fits_iff _ _).2 hv]

/-- Everything a load's operand can be. -/
theorem State.loadOperand_cases (s : State) :
    (s.params.bufBytes < s.len.toNat ∧ s.loadOperand = .error .bufferLength) ∨
    (s.len.toNat ≤ s.params.bufBytes ∧ 2 ^ s.params.nbits ≤ beInt (s.memRead s.len.toNat) ∧
      s.loadOperand = .error .resultOverflow) ∨
    (s.len.toNat ≤ s.params.bufBytes ∧ beInt (s.memRead s.len.toNat) < 2 ^ s.params.nbits ∧
      s.loadOperand = .ok (beInt (s.memRead s.len.toNat))) := by
  rcases Nat.lt_or_ge s.params.bufBytes s.len.toNat with h | h
  · exact .inl ⟨h, State.loadOperand_tooLong h⟩
  · rcases Nat.lt_or_ge (beInt (s.memRead s.len.toNat)) (2 ^ s.params.nbits) with hv | hv
    · exact .inr (.inr ⟨h, hv, State.loadOperand_ok h hv⟩)
    · exact .inr (.inl ⟨h, hv, State.loadOperand_overflow h hv⟩)

/-! The positive pair. -/

theorem State.positivePair_absent (h : s.reg rs1 = .absent ∨ s.reg rs2 = .absent) :
    s.positivePair rs1 rs2 = .error .operandAbsent := by
  unfold State.positivePair
  rcases h with h | h
  · rw [h]
  · rw [h]; cases s.reg rs1 <;> rfl

theorem State.positivePair_domain {n m : Int} (h1 : s.reg rs1 = .int n) (h2 : s.reg rs2 = .int m)
    (h : n ≤ 0 ∨ m ≤ 0) : s.positivePair rs1 rs2 = .error .operandDomain := by
  simp [State.positivePair, h1, h2, h]

theorem State.positivePair_ok {n m : Nat} (h1 : s.reg rs1 = .int n) (h2 : s.reg rs2 = .int m) (hn : 0 < n)
    (hm : 0 < m) : s.positivePair rs1 rs2 = .ok (n, m) := by
  simp [State.positivePair, h1, h2, Nat.ne_of_gt hn, Nat.ne_of_gt hm]

/-- Everything the positive pair can be. -/
theorem State.positivePair_cases (s : State) (rs1 rs2 : Reg) :
    ((s.reg rs1 = .absent ∨ s.reg rs2 = .absent) ∧ s.positivePair rs1 rs2 = .error .operandAbsent) ∨
    (∃ n m : Int, s.reg rs1 = .int n ∧ s.reg rs2 = .int m ∧ (n ≤ 0 ∨ m ≤ 0) ∧
      s.positivePair rs1 rs2 = .error .operandDomain) ∨
    (∃ n m : Nat, s.reg rs1 = .int n ∧ s.reg rs2 = .int m ∧ 0 < n ∧ 0 < m ∧
      s.positivePair rs1 rs2 = .ok (n, m)) := by
  cases h1 : s.reg rs1 with
  | absent => exact .inl ⟨.inl rfl, State.positivePair_absent (.inl h1)⟩
  | int n =>
    cases h2 : s.reg rs2 with
    | absent => exact .inl ⟨.inr rfl, State.positivePair_absent (.inr h2)⟩
    | int m =>
      by_cases h : n ≤ 0 ∨ m ≤ 0
      · exact .inr (.inl ⟨n, m, rfl, rfl, h, State.positivePair_domain h1 h2 h⟩)
      · obtain ⟨n, rfl⟩ := Int.eq_ofNat_of_zero_le (a := n) (by omega)
        obtain ⟨m, rfl⟩ := Int.eq_ofNat_of_zero_le (a := m) (by omega)
        exact .inr (.inr ⟨n, m, rfl, rfl, by omega, by omega,
          State.positivePair_ok h1 h2 (by omega) (by omega)⟩)

/-! The operands of the public transform. -/

theorem State.publicOperands_absent (h : s.reg rs1 = .absent ∨ s.reg .n = .absent ∨ s.reg .e = .absent) :
    s.publicOperands rs1 = .error .operandAbsent := by
  unfold State.publicOperands
  rcases h with h | h | h
  · rw [h]
  · rw [h]; cases s.reg rs1 <;> rfl
  · rw [h]; cases s.reg rs1 <;> cases s.reg .n <;> rfl

theorem State.publicOperands_domain {m n e : Int} (h1 : s.reg rs1 = .int m) (h2 : s.reg .n = .int n)
    (h3 : s.reg .e = .int e) (h : m < 0 ∨ n < 0 ∨ e < 0) : s.publicOperands rs1 = .error .operandDomain := by
  simp [State.publicOperands, h1, h2, h3, h]

theorem State.publicOperands_tooLarge {m n e : Nat} (h1 : s.reg rs1 = .int m) (h2 : s.reg .n = .int n)
    (h3 : s.reg .e = .int e) (h : n ≤ m) : s.publicOperands rs1 = .error .dataTooLarge := by
  have : ¬ ((m : Int) < 0 ∨ (n : Int) < 0 ∨ (e : Int) < 0) := by omega
  simp [State.publicOperands, h1, h2, h3, this, h]

theorem State.publicOperands_ok {m n e : Nat} (h1 : s.reg rs1 = .int m) (h2 : s.reg .n = .int n)
    (h3 : s.reg .e = .int e) (h : m < n) : s.publicOperands rs1 = .ok (m, n, e) := by
  have : ¬ ((m : Int) < 0 ∨ (n : Int) < 0 ∨ (e : Int) < 0) := by omega
  simp [State.publicOperands, h1, h2, h3, this, Nat.not_le.2 h]

/-- Everything the operands of `PUB` can be. -/
theorem State.publicOperands_cases (s : State) (rs1 : Reg) :
    ((s.reg rs1 = .absent ∨ s.reg .n = .absent ∨ s.reg .e = .absent) ∧
      s.publicOperands rs1 = .error .operandAbsent) ∨
    (∃ m n e : Int, s.reg rs1 = .int m ∧ s.reg .n = .int n ∧ s.reg .e = .int e ∧ (m < 0 ∨ n < 0 ∨ e < 0) ∧
      s.publicOperands rs1 = .error .operandDomain) ∨
    (∃ m n e : Nat, s.reg rs1 = .int m ∧ s.reg .n = .int n ∧ s.reg .e = .int e ∧ n ≤ m ∧
      s.publicOperands rs1 = .error .dataTooLarge) ∨
    (∃ m n e : Nat, s.reg rs1 = .int m ∧ s.reg .n = .int n ∧ s.reg .e = .int e ∧ m < n ∧
      s.publicOperands rs1 = .ok (m, n, e)) := by
  cases h1 : s.reg rs1 with
  | absent => exact .inl ⟨.inl rfl, State.publicOperands_absent (.inl h1)⟩
  | int m =>
    cases h2 : s.reg .n with
    | absent => exact .inl ⟨.inr (.inl rfl), State.publicOperands_absent (.inr (.inl h2))⟩
    | int n =>
      cases h3 : s.reg .e with
      | absent => exact .inl ⟨.inr (.inr rfl), State.publicOperands_absent (.inr (.inr h3))⟩
      | int e =>
        by_cases h : m < 0 ∨ n < 0 ∨ e < 0
        · exact .inr (.inl ⟨m, n, e, rfl, rfl, rfl, h, State.publicOperands_domain h1 h2 h3 h⟩)
        · obtain ⟨m, rfl⟩ := Int.eq_ofNat_of_zero_le (a := m) (by omega)
          obtain ⟨n, rfl⟩ := Int.eq_ofNat_of_zero_le (a := n) (by omega)
          obtain ⟨e, rfl⟩ := Int.eq_ofNat_of_zero_le (a := e) (by omega)
          rcases Nat.lt_or_ge m n with hlt | hge
          · exact .inr (.inr (.inr ⟨m, n, e, rfl, rfl, rfl, hlt, State.publicOperands_ok h1 h2 h3 hlt⟩))
          · exact .inr (.inr (.inl ⟨m, n, e, rfl, rfl, rfl, hge, State.publicOperands_tooLarge h1 h2 h3 hge⟩))

/-! The operands of the private transform. -/

theorem BigValue.negative_iff (v : BigValue) : v.negative = true ↔ ∃ z, v = .int z ∧ z < 0 := by
  cases v <;> simp [BigValue.negative]

theorem State.privateOperands_absent (h : s.reg rs1 = .absent ∨ s.reg .n = .absent) :
    s.privateOperands rs1 = .error .operandAbsent := by
  unfold State.privateOperands
  rcases h with h | h
  · rw [h]
  · rw [h]; cases s.reg rs1 <;> rfl

theorem State.privateOperands_domain {c n : Int} (h1 : s.reg rs1 = .int c) (h2 : s.reg .n = .int n)
    (h : c < 0 ∨ n < 0 ∨ ∃ d, s.reg .d = .int d ∧ d < 0) : s.privateOperands rs1 = .error .operandDomain := by
  rw [← BigValue.negative_iff] at h
  simp [State.privateOperands, h1, h2, h]

/-- The domain check passes. -/
theorem State.private_domain_ok {c n : Nat} (hd : ∀ d, s.reg .d = .int d → 0 ≤ d) :
    ¬ ((c : Int) < 0 ∨ (n : Int) < 0 ∨ (s.reg .d).negative = true) := by
  rw [BigValue.negative_iff]
  rintro (h | h | ⟨d, h, hlt⟩)
  · omega
  · omega
  · exact absurd (hd d h) (by omega)

theorem State.privateOperands_tooLarge {c n : Nat} (h1 : s.reg rs1 = .int c) (h2 : s.reg .n = .int n)
    (hd : ∀ d, s.reg .d = .int d → 0 ≤ d) (h : n ≤ c) : s.privateOperands rs1 = .error .dataTooLarge := by
  simp [State.privateOperands, h1, h2, State.private_domain_ok hd, h]

theorem State.privateOperands_missing {c n : Nat} (h1 : s.reg rs1 = .int c) (h2 : s.reg .n = .int n)
    (hd : s.reg .d = .absent) (h : c < n) : s.privateOperands rs1 = .error .missingPrivateComponent := by
  have := State.private_domain_ok (s := s) (c := c) (n := n) (by simp [hd])
  rw [hd] at this
  simp only [State.privateOperands, h1, h2, if_neg this, Int.ofNat_le, if_neg (Nat.not_le.2 h), hd]

theorem State.privateOperands_ok {c n d : Nat} (h1 : s.reg rs1 = .int c) (h2 : s.reg .n = .int n)
    (h3 : s.reg .d = .int d) (h : c < n) : s.privateOperands rs1 = .ok (c, n, d) := by
  have := State.private_domain_ok (s := s) (c := c) (n := n) (by rw [h3]; rintro _ ⟨⟩; omega)
  rw [h3] at this
  simp only [State.privateOperands, h1, h2, if_neg this, Int.ofNat_le, if_neg (Nat.not_le.2 h), h3, Int.toNat_natCast]

/-- Everything the operands of `PRV` can be. -/
theorem State.privateOperands_cases (s : State) (rs1 : Reg) :
    ((s.reg rs1 = .absent ∨ s.reg .n = .absent) ∧ s.privateOperands rs1 = .error .operandAbsent) ∨
    (∃ c n : Int, s.reg rs1 = .int c ∧ s.reg .n = .int n ∧ (c < 0 ∨ n < 0 ∨ ∃ d, s.reg .d = .int d ∧ d < 0) ∧
      s.privateOperands rs1 = .error .operandDomain) ∨
    (∃ c n : Nat, s.reg rs1 = .int c ∧ s.reg .n = .int n ∧ n ≤ c ∧
      s.privateOperands rs1 = .error .dataTooLarge) ∨
    (∃ c n : Nat, s.reg rs1 = .int c ∧ s.reg .n = .int n ∧ c < n ∧ s.reg .d = .absent ∧
      s.privateOperands rs1 = .error .missingPrivateComponent) ∨
    (∃ c n d : Nat, s.reg rs1 = .int c ∧ s.reg .n = .int n ∧ s.reg .d = .int d ∧ c < n ∧
      s.privateOperands rs1 = .ok (c, n, d)) := by
  cases h1 : s.reg rs1 with
  | absent => exact .inl ⟨.inl rfl, State.privateOperands_absent (.inl h1)⟩
  | int c =>
    cases h2 : s.reg .n with
    | absent => exact .inl ⟨.inr rfl, State.privateOperands_absent (.inr h2)⟩
    | int n =>
      by_cases h : c < 0 ∨ n < 0 ∨ ∃ d, s.reg .d = .int d ∧ d < 0
      · exact .inr (.inl ⟨c, n, rfl, rfl, h, State.privateOperands_domain h1 h2 h⟩)
      · simp only [not_or, not_exists, not_and, not_lt] at h
        obtain ⟨hc, hn, hd⟩ := h
        obtain ⟨c, rfl⟩ := Int.eq_ofNat_of_zero_le hc
        obtain ⟨n, rfl⟩ := Int.eq_ofNat_of_zero_le hn
        rcases Nat.lt_or_ge c n with hlt | hge
        · cases h3 : s.reg .d with
          | absent =>
            exact .inr (.inr (.inr (.inl ⟨c, n, rfl, rfl, hlt, rfl, State.privateOperands_missing h1 h2 h3 hlt⟩)))
          | int d =>
            obtain ⟨d, rfl⟩ := Int.eq_ofNat_of_zero_le (hd d h3)
            exact .inr (.inr (.inr (.inr ⟨c, n, d, rfl, rfl, rfl, hlt, State.privateOperands_ok h1 h2 h3 hlt⟩)))
        · exact .inr (.inr (.inl ⟨c, n, rfl, rfl, hge, State.privateOperands_tooLarge h1 h2 hd hge⟩))

end Sys2Proof.Machine
end

