-- ==== Sys2Proof/Laws/Exec.lean ====
section
/-! SUPPORT. The outcome of each command in one place (10_state.md R39): what it can write, or how it can fail. -/

namespace Sys2Proof.Machine

open Sys2Proof

/-- The outcome of a command. -/
def commandResult : Instr → State → Result
  | .ldi rd => ldiResult rd
  | .ldo rd => ldoResult rd
  | .sti rs1 => stiResult rs1
  | .stm rs1 => stmResult rs1
  | .mov rd rs1 => movResult rd rs1
  | .clr rd => clrResult rd
  | .egcd rs1 rs2 => egcdResult rs1 rs2
  | .gcd rd rs1 rs2 => gcdResult rd rs1 rs2
  | .lcm rd rs1 rs2 => lcmResult rd rs1 rs2
  | .modinv rd rs1 rs2 => modinvResult rd rs1 rs2
  | .pub rd rs1 => pubResult rd rs1
  | .prv rd rs1 => prvResult rd rs1

/-- Every command is the completion with its outcome. -/
theorem exec_eq (i : Instr) (s : State) : exec i s = .next (s.finish (commandResult i s)) := by cases i <;> rfl

/-- What an outcome can be: a write of one big register, the three of `EGCD`, a string, or a failure. -/
inductive Result.Shape : Result → Prop where
  | reg (r : Reg) (v : BigValue) : Shape (.success [.reg r v])
  | triple (x y g : BigValue) : Shape (.success [.reg .x x, .reg .y y, .reg .g g])
  | string (v : Nat) : Shape (.success [.string (intToBytes v)])
  | failure (k : ErrorKind) : Shape (.failure k)

theorem commandResult_shape (i : Instr) (s : State) : (commandResult i s).Shape := by
  cases i <;> simp only [commandResult, ldiResult, ldoResult, stiResult, stmResult, movResult, clrResult, egcdResult,
    gcdResult, lcmResult, modinvResult, pubResult, prvResult] <;> (repeat' split) <;> constructor

/-- A value in the domain of a big register (10_state.md R21). -/
def BigValue.InDomain (p : Params) (v : BigValue) : Prop := ∀ z, v = .int z → z.natAbs < 2 ^ p.nbits

/-- Every big register is in its domain. -/
def State.RegsFit (s : State) : Prop := ∀ r, (s.reg r).InDomain s.params

/-- A write a command may make: a register value in the domain, or a string that fits the width. -/
def Write.Fits (p : Params) : Write → Prop
  | .reg _ v => v.InDomain p
  | .string bytes => bytes.length ≤ max 1 p.nbytes

/-- With every register in its domain, every command writes values in the domain and strings that fit
(R21, 20_memory.md R55, 41_modular_arithmetic.md R127). -/
theorem commandResult_fits {i : Instr} {s : State} (hs : s.RegsFit) {ws : List Write}
    (h : commandResult i s = .success ws) : ∀ w ∈ ws, w.Fits s.params := by
  have nat {r : Reg} {n : Nat} (hr : s.reg r = .int n) : n < 2 ^ s.params.nbits := by
    simpa using hs r n hr
  have str (n : Nat) (hn : n < 2 ^ s.params.nbits) : (intToBytes n).length ≤ max 1 s.params.nbytes := by
    rw [length_intToBytes, bytelen_le_iff n (by omega)]
    refine hn.trans_le ?_
    rw [show (256 : Nat) = 2 ^ 8 from rfl, ← Nat.pow_mul]
    exact Nat.pow_le_pow_right (by omega) (by unfold Params.nbits; omega)
  have one (r : Reg) {v : BigValue} (hv : v.InDomain s.params) :
      ∀ w ∈ [Write.reg r v], w.Fits s.params := by
    intro w hw
    rw [List.mem_singleton] at hw
    subst hw
    exact hv
  have dom {v : Nat} (hv : v < 2 ^ s.params.nbits) : (BigValue.int v).InDomain s.params := by
    rintro z ⟨⟩
    simpa using hv
  have none : BigValue.absent.InDomain s.params := by rintro z ⟨⟩
  cases i with
  | ldi rd =>
    simp only [commandResult, ldiResult] at h
    rcases s.loadOperand_cases with ⟨_, h'⟩ | ⟨_, _, h'⟩ | ⟨_, hv, h'⟩ <;> rw [h'] at h <;> cases h
    exact one _ (dom hv)
  | ldo rd =>
    simp only [commandResult, ldoResult] at h
    rcases s.loadOperand_cases with ⟨_, h'⟩ | ⟨_, _, h'⟩ | ⟨_, hv, h'⟩ <;> rw [h'] at h <;> cases h
    split
    · exact one _ none
    · exact one _ (dom hv)
  | sti rs1 =>
    simp only [commandResult, stiResult] at h
    split at h
    · cases h
    · next z hz =>
      split at h
      · cases h
      · cases h
        intro w hw
        rw [List.mem_singleton] at hw
        subst hw
        exact str _ (by have := hs rs1 z hz; omega)
  | stm rs1 =>
    simp only [commandResult, stmResult] at h
    split at h
    · cases h
    · next z hz =>
      cases h
      intro w hw
      rw [List.mem_singleton] at hw
      subst hw
      exact str _ (hs rs1 z hz)
  | mov rd rs1 => cases h; exact one _ (hs rs1)
  | clr rd => cases h; exact one _ none
  | egcd rs1 rs2 =>
    simp only [commandResult, egcdResult] at h
    rcases s.positivePair_cases rs1 rs2 with ⟨_, h'⟩ | ⟨_, _, _, _, _, h'⟩ | ⟨n, m, hn, hm, n0, m0, h'⟩ <;>
      rw [h'] at h <;> cases h
    have b := xeuclid_bounds n0 m0
    have g := xeuclid_spec n m
    have gm : (xeuclid n m).2.2 ≤ m := by rw [g.2]; exact Nat.gcd_le_right n m0
    have := nat hn
    have := nat hm
    have q1 := Nat.div_le_self m (Nat.gcd n m)
    have q2 := Nat.div_le_self n (Nat.gcd n m)
    intro w hw
    simp only [List.mem_cons, List.not_mem_nil, or_false] at hw
    rcases hw with rfl | rfl | rfl <;> rintro z ⟨⟩ <;> omega
  | gcd rd rs1 rs2 =>
    simp only [commandResult, gcdResult] at h
    rcases s.positivePair_cases rs1 rs2 with ⟨_, h'⟩ | ⟨_, _, _, _, _, h'⟩ | ⟨n, m, hn, hm, n0, m0, h'⟩ <;>
      rw [h'] at h <;> cases h
    have g := xeuclid_spec n m
    have gm : (xeuclid n m).2.2 ≤ m := by rw [g.2]; exact Nat.gcd_le_right n m0
    exact one _ (dom (gm.trans_lt (nat hm)))
  | lcm rd rs1 rs2 =>
    simp only [commandResult, lcmResult] at h
    rcases s.positivePair_cases rs1 rs2 with ⟨_, h'⟩ | ⟨_, _, _, _, _, h'⟩ | ⟨n, m, hn, hm, n0, m0, h'⟩ <;>
      rw [h'] at h
    · cases h
    · cases h
    · dsimp only at h
      split at h
      · next hf => cases h; exact one _ (dom ((fits_iff _ _).1 hf))
      · cases h
  | modinv rd rs1 rs2 =>
    simp only [commandResult, modinvResult] at h
    rcases s.positivePair_cases rs1 rs2 with ⟨_, h'⟩ | ⟨_, _, _, _, _, h'⟩ | ⟨n, m, hn, hm, n0, m0, h'⟩ <;>
      rw [h'] at h
    · cases h
    · cases h
    · dsimp only at h
      (repeat' split at h) <;> cases h
      refine one _ ?_
      rintro z ⟨⟩
      have h0 := Int.emod_nonneg ((xeuclid n m).1 + (m : Int)) (b := (m : Int)) (by omega)
      have h1 := Int.emod_lt_of_pos ((xeuclid n m).1 + (m : Int)) (b := (m : Int)) (by omega)
      have := nat hm
      omega
  | pub rd rs1 =>
    simp only [commandResult, pubResult] at h
    rcases s.publicOperands_cases rs1 with
      ⟨_, h'⟩ | ⟨_, _, _, _, _, _, _, h'⟩ | ⟨_, _, _, _, _, _, _, h'⟩ | ⟨m, n, e, hm, hn, he, hlt, h'⟩ <;>
      rw [h'] at h <;> cases h
    refine one _ (dom ?_)
    rw [modexp_eq]
    exact (Nat.mod_lt _ (by omega)).trans (nat hn)
  | prv rd rs1 =>
    simp only [commandResult, prvResult] at h
    rcases s.privateOperands_cases rs1 with ⟨_, h'⟩ | ⟨_, _, _, _, _, h'⟩ | ⟨_, _, _, _, _, h'⟩ |
      ⟨_, _, _, _, _, _, h'⟩ | ⟨c, n, d, hc, hn, hd, hlt, h'⟩ <;>
      rw [h'] at h <;> cases h
    refine one _ (dom ?_)
    rw [modexp_eq]
    exact (Nat.mod_lt _ (by omega)).trans (nat hn)

end Sys2Proof.Machine
end

