-- ==== Sys2Proof/Laws/Flags.lean ====
section
/-! SUPPORT. The words `RFLAGS`, `STATUS` and `CTRL` by their fields (10_state.md R29, R30, R35). -/

namespace Sys2Proof.Machine

open Sys2Proof

/-- The nibbles of a word put together from eight are those eight. -/
theorem extract_nibbles (g y x b a d e n : BitVec 4) :
    let w := g ++ y ++ x ++ b ++ a ++ d ++ e ++ n
    w.extractLsb' 0 4 = n ∧ w.extractLsb' 4 4 = e ∧ w.extractLsb' 8 4 = d ∧ w.extractLsb' 12 4 = a ∧
    w.extractLsb' 16 4 = b ∧ w.extractLsb' 20 4 = x ∧ w.extractLsb' 24 4 = y ∧ w.extractLsb' 28 4 = g := by
  refine ⟨?_, ?_, ?_, ?_, ?_, ?_, ?_, ?_⟩ <;>
  · apply BitVec.eq_of_getLsbD_eq
    intro i hi
    rw [BitVec.getLsbD_extractLsb']
    simp only [BitVec.getLsbD_append]
    obtain rfl | rfl | rfl | rfl : i = 0 ∨ i = 1 ∨ i = 2 ∨ i = 3 := by omega
    all_goals simp

/-- The `RFLAGS` nibble at `4i+3 : 4i` is that of `x[i]` (R35). -/
theorem State.rflags_nibble (s : State) (r : Reg) :
    s.rflags.extractLsb' (4 * r.index.toNat) 4 = (s.reg r).nibble := by
  obtain ⟨h0, h1, h2, h3, h4, h5, h6, h7⟩ := extract_nibbles s.regs.g.nibble s.regs.y.nibble s.regs.x.nibble
    s.regs.b.nibble s.regs.a.nibble s.regs.d.nibble s.regs.e.nibble s.regs.n.nibble
  cases r <;> assumption

/-- One bit of `RFLAGS` (R35). -/
theorem State.rflags_bit (s : State) (r : Reg) {j : Nat} (hj : j < 4) :
    s.rflags.getLsbD (4 * r.index.toNat + j) = (s.reg r).nibble.getLsbD j := by
  rw [← State.rflags_nibble, BitVec.getLsbD_extractLsb']
  simp [hj]

@[simp] theorem BigValue.nibble_absent : BigValue.absent.nibble = 0#4 := rfl

theorem BigValue.nibble_pos {z : Int} (h : 0 < z) : (BigValue.int z).nibble = 0b0001#4 := by
  have h1 : ¬ z = 0 := by omega
  have h2 : ¬ z < 0 := by omega
  simp [BigValue.nibble, h1, h2]

theorem BigValue.nibble_zero : (BigValue.int 0).nibble = 0b0101#4 := by decide

theorem BigValue.nibble_neg {z : Int} (h : z < 0) : (BigValue.int z).nibble = 0b0011#4 := by
  have h1 : ¬ z = 0 := by omega
  simp [BigValue.nibble, h1, h]

/-- The nibble of a natural value (R101, R141). -/
theorem BigValue.nibble_nat (v : Nat) : (BigValue.int v).nibble = if v = 0 then 0b0101#4 else 0b0001#4 := by
  split
  · next h => subst h; exact BigValue.nibble_zero
  · next h => exact BigValue.nibble_pos (by omega)

/-- `STATUS` bit by bit (R30). -/
theorem State.statusWord_bits (s : State) :
    s.statusWord.getLsbD 0 = s.busy ∧ s.statusWord.getLsbD 1 = s.done ∧ s.statusWord.getLsbD 2 = s.err ∧
    s.statusWord.getLsbD 3 = s.rej := by
  refine ⟨?_, ?_, ?_, ?_⟩ <;>
  · simp only [State.statusWord, BitVec.getLsbD_append, BitVec.getLsbD_ofBool, Nat.reduceLT, Nat.reduceSub, reduceIte]
    simp

theorem State.statusWord_reserved (s : State) {i : Nat} (h : 4 ≤ i) : s.statusWord.getLsbD i = false := by
  obtain ⟨k, rfl⟩ := Nat.exists_eq_add_of_le h
  have h3 : ¬ 4 + k < 1 := by omega
  have h4 : ¬ 4 + k - 1 < 1 := by omega
  have h5 : ¬ 4 + k - 1 - 1 < 1 := by omega
  have h6 : ¬ 4 + k - 1 - 1 - 1 < 1 := by omega
  simp only [State.statusWord, BitVec.getLsbD_append, h3, h4, h5, h6]
  simp

/-- `CTRL` bit by bit (R29). -/
theorem State.ctrlWord_bits (s : State) :
    s.ctrlWord.getLsbD 0 = s.ctrl.ieDone ∧ s.ctrlWord.getLsbD 1 = s.ctrl.ieErr ∧
    s.ctrlWord.getLsbD 2 = s.ctrl.ieRej := by
  refine ⟨?_, ?_, ?_⟩ <;>
  · simp only [State.ctrlWord, BitVec.getLsbD_append, BitVec.getLsbD_ofBool, Nat.reduceLT, Nat.reduceSub, reduceIte]
    simp

theorem State.ctrlWord_reserved (s : State) {i : Nat} (h : 3 ≤ i) : s.ctrlWord.getLsbD i = false := by
  obtain ⟨k, rfl⟩ := Nat.exists_eq_add_of_le h
  have h3 : ¬ 3 + k < 1 := by omega
  have h4 : ¬ 3 + k - 1 < 1 := by omega
  have h5 : ¬ 3 + k - 1 - 1 < 1 := by omega
  simp only [State.ctrlWord, BitVec.getLsbD_append, h3, h4, h5]
  simp

end Sys2Proof.Machine
end

