-- ==== Sys2Proof/Laws/HostSeq.lean ====
section
/-! SUPPORT. What the host puts and what it gets (43_host_sequences.md R160, R161): stripping a string that is too long
keeps its value, a string that fits is put as it is, and the string read back is the bytes that were read. -/

namespace Sys2Proof.Machine

open Sys2Proof

/-- Leading zero bytes do not change the value. -/
theorem beInt_zeros_append {zeros : List Byte} (h : zeros.all (· == 0x00#8) = true) (bytes : List Byte) :
    beInt (zeros ++ bytes) = beInt bytes := by
  induction zeros with
  | nil => rfl
  | cons b zeros ih =>
    simp only [List.all_cons, Bool.and_eq_true, beq_iff_eq] at h
    obtain ⟨rfl, h⟩ := h
    simp [beInt_cons, ih h]

theorem stripExcess_of_le {cap : Nat} {bytes : List Byte} (h : bytes.length ≤ cap) : stripExcess cap bytes = bytes := by
  simp [stripExcess, Nat.sub_eq_zero_of_le h]

/-- Stripping keeps the value. -/
@[simp] theorem beInt_stripExcess (cap : Nat) (bytes : List Byte) : beInt (stripExcess cap bytes) = beInt bytes := by
  unfold stripExcess
  split
  · next h =>
    conv_rhs => rw [← List.take_append_drop (bytes.length - cap) bytes]
    exact (beInt_zeros_append h _).symm
  · rfl

/-- Stripping leaves the string as it is, or just as long as the buffer. -/
theorem length_stripExcess (cap : Nat) (bytes : List Byte) :
    stripExcess cap bytes = bytes ∨ (stripExcess cap bytes).length = cap := by
  rcases Nat.le_total bytes.length cap with h | h
  · exact .inl (stripExcess_of_le h)
  · unfold stripExcess
    split
    · right; rw [List.length_drop]; omega
    · exact .inl rfl

/-- A string that fits is put as it is (R160). -/
theorem putBytes_of_le {p : Params} {bytes : List Byte} (h : bytes.length ≤ p.bufBytes) :
    putBytes p bytes = putFrom 0 bytes ++ [.wr CtrlReg.len.offset (BitVec.ofNat 32 bytes.length)] := by
  simp [putBytes, stripExcess_of_le h, h]

/-- The length written for a string that cannot be put is above `BUFBYTES`, whatever the string's length. -/
theorem tooLong_length {p : Params} (hp : p.bufBytes ≤ 61440) {bytes : List Byte} (h : p.bufBytes < bytes.length) :
    p.bufBytes < (BitVec.ofNat 32 (min bytes.length 0xFFFFFFFF)).toNat := by
  rw [BitVec.toNat_ofNat, Nat.mod_eq_of_lt (by omega)]
  omega

@[simp] theorem leadingBytes_bytes (bytes : List Byte) (w : Word) (old : List Reply) :
    leadingBytes (bytes.map Reply.byte ++ .word w :: old) = bytes := by
  induction bytes with
  | nil => rfl
  | cons b bytes ih => simp [leadingBytes, ih]

/-- What `GETBYTES` returns is the bytes read after `LEN` (R161). -/
theorem stringRead_bytes (bytes : List Byte) (w : Word) (old : List Reply) :
    stringRead ((bytes.map Reply.byte).reverse ++ .word w :: old) = bytes := by
  rw [stringRead, ← List.map_reverse, leadingBytes_bytes, List.reverse_reverse]

end Sys2Proof.Machine
end

