-- ==== Sys2Proof/Laws/State.lean ====
section
/-! SUPPORT. What each update of the state does to each field: one lemma for each field and update, so that no later
proof unfolds a record update. -/

namespace Sys2Proof.Machine

open Sys2Proof

variable (s : State)

/-! `apply_reg` -/

@[simp] theorem State.apply_reg_params (r : Reg) (v : BigValue) : (s.apply (.reg r v)).params = s.params := rfl
@[simp] theorem State.apply_reg_regs (r : Reg) (v : BigValue) : (s.apply (.reg r v)).regs = s.regs.set r v := rfl
@[simp] theorem State.apply_reg_phase (r : Reg) (v : BigValue) : (s.apply (.reg r v)).phase = s.phase := rfl
@[simp] theorem State.apply_reg_cmdReg (r : Reg) (v : BigValue) : (s.apply (.reg r v)).cmdReg = s.cmdReg := rfl
@[simp] theorem State.apply_reg_ctrl (r : Reg) (v : BigValue) : (s.apply (.reg r v)).ctrl = s.ctrl := rfl
@[simp] theorem State.apply_reg_done (r : Reg) (v : BigValue) : (s.apply (.reg r v)).done = s.done := rfl
@[simp] theorem State.apply_reg_err (r : Reg) (v : BigValue) : (s.apply (.reg r v)).err = s.err := rfl
@[simp] theorem State.apply_reg_rej (r : Reg) (v : BigValue) : (s.apply (.reg r v)).rej = s.rej := rfl
@[simp] theorem State.apply_reg_errCode (r : Reg) (v : BigValue) : (s.apply (.reg r v)).errCode = s.errCode := rfl
@[simp] theorem State.apply_reg_errCmd (r : Reg) (v : BigValue) : (s.apply (.reg r v)).errCmd = s.errCmd := rfl
@[simp] theorem State.apply_reg_len (r : Reg) (v : BigValue) : (s.apply (.reg r v)).len = s.len := rfl
@[simp] theorem State.apply_reg_buf (r : Reg) (v : BigValue) : (s.apply (.reg r v)).buf = s.buf := rfl
@[simp] theorem State.apply_reg_resetLine (r : Reg) (v : BigValue) : (s.apply (.reg r v)).resetLine = s.resetLine := rfl
@[simp] theorem State.apply_reg_bufDraw (r : Reg) (v : BigValue) : (s.apply (.reg r v)).bufDraw = s.bufDraw := rfl
@[simp] theorem State.apply_reg_draws (r : Reg) (v : BigValue) : (s.apply (.reg r v)).draws = s.draws := rfl
@[simp] theorem State.apply_reg_script (r : Reg) (v : BigValue) : (s.apply (.reg r v)).script = s.script := rfl
@[simp] theorem State.apply_reg_replies (r : Reg) (v : BigValue) : (s.apply (.reg r v)).replies = s.replies := rfl

/-! `apply_string` -/

@[simp] theorem State.apply_string_params (bytes : List Byte) : (s.apply (.string bytes)).params = s.params := rfl
@[simp] theorem State.apply_string_regs (bytes : List Byte) : (s.apply (.string bytes)).regs = s.regs := rfl
@[simp] theorem State.apply_string_phase (bytes : List Byte) : (s.apply (.string bytes)).phase = s.phase := rfl
@[simp] theorem State.apply_string_cmdReg (bytes : List Byte) : (s.apply (.string bytes)).cmdReg = s.cmdReg := rfl
@[simp] theorem State.apply_string_ctrl (bytes : List Byte) : (s.apply (.string bytes)).ctrl = s.ctrl := rfl
@[simp] theorem State.apply_string_done (bytes : List Byte) : (s.apply (.string bytes)).done = s.done := rfl
@[simp] theorem State.apply_string_err (bytes : List Byte) : (s.apply (.string bytes)).err = s.err := rfl
@[simp] theorem State.apply_string_rej (bytes : List Byte) : (s.apply (.string bytes)).rej = s.rej := rfl
@[simp] theorem State.apply_string_errCode (bytes : List Byte) : (s.apply (.string bytes)).errCode = s.errCode := rfl
@[simp] theorem State.apply_string_errCmd (bytes : List Byte) : (s.apply (.string bytes)).errCmd = s.errCmd := rfl
@[simp] theorem State.apply_string_len (bytes : List Byte) : (s.apply (.string bytes)).len = BitVec.ofNat 32 bytes.length := rfl
@[simp] theorem State.apply_string_buf (bytes : List Byte) : (s.apply (.string bytes)).buf = Memory.writeAll s.buf 0 bytes := rfl
@[simp] theorem State.apply_string_resetLine (bytes : List Byte) : (s.apply (.string bytes)).resetLine = s.resetLine := rfl
@[simp] theorem State.apply_string_bufDraw (bytes : List Byte) : (s.apply (.string bytes)).bufDraw = s.bufDraw := rfl
@[simp] theorem State.apply_string_draws (bytes : List Byte) : (s.apply (.string bytes)).draws = s.draws := rfl
@[simp] theorem State.apply_string_script (bytes : List Byte) : (s.apply (.string bytes)).script = s.script := rfl
@[simp] theorem State.apply_string_replies (bytes : List Byte) : (s.apply (.string bytes)).replies = s.replies := rfl

/-! `fail` -/

@[simp] theorem State.fail_params (k : ErrorKind) : (s.fail k).params = s.params := rfl
@[simp] theorem State.fail_regs (k : ErrorKind) : (s.fail k).regs = s.regs := rfl
@[simp] theorem State.fail_phase (k : ErrorKind) : (s.fail k).phase = .idle := rfl
@[simp] theorem State.fail_cmdReg (k : ErrorKind) : (s.fail k).cmdReg = s.cmdReg := rfl
@[simp] theorem State.fail_ctrl (k : ErrorKind) : (s.fail k).ctrl = s.ctrl := rfl
@[simp] theorem State.fail_done (k : ErrorKind) : (s.fail k).done = s.done := rfl
@[simp] theorem State.fail_err (k : ErrorKind) : (s.fail k).err = true := rfl
@[simp] theorem State.fail_rej (k : ErrorKind) : (s.fail k).rej = s.rej := rfl
@[simp] theorem State.fail_errCode (k : ErrorKind) : (s.fail k).errCode = k.code := rfl
@[simp] theorem State.fail_errCmd (k : ErrorKind) : (s.fail k).errCmd = s.cmdReg := rfl
@[simp] theorem State.fail_len (k : ErrorKind) : (s.fail k).len = s.len := rfl
@[simp] theorem State.fail_buf (k : ErrorKind) : (s.fail k).buf = s.buf := rfl
@[simp] theorem State.fail_resetLine (k : ErrorKind) : (s.fail k).resetLine = s.resetLine := rfl
@[simp] theorem State.fail_bufDraw (k : ErrorKind) : (s.fail k).bufDraw = s.bufDraw := rfl
@[simp] theorem State.fail_draws (k : ErrorKind) : (s.fail k).draws = s.draws := rfl
@[simp] theorem State.fail_script (k : ErrorKind) : (s.fail k).script = s.script := rfl
@[simp] theorem State.fail_replies (k : ErrorKind) : (s.fail k).replies = s.replies := rfl

/-! `acknowledge` -/

@[simp] theorem State.acknowledge_params (v : Word) : (s.acknowledge v).params = s.params := rfl
@[simp] theorem State.acknowledge_regs (v : Word) : (s.acknowledge v).regs = s.regs := rfl
@[simp] theorem State.acknowledge_phase (v : Word) : (s.acknowledge v).phase = s.phase := rfl
@[simp] theorem State.acknowledge_cmdReg (v : Word) : (s.acknowledge v).cmdReg = s.cmdReg := rfl
@[simp] theorem State.acknowledge_ctrl (v : Word) : (s.acknowledge v).ctrl = s.ctrl := rfl
@[simp] theorem State.acknowledge_done (v : Word) : (s.acknowledge v).done = (s.done && !v.getLsbD 1) := rfl
@[simp] theorem State.acknowledge_err (v : Word) : (s.acknowledge v).err = (s.err && !v.getLsbD 2) := rfl
@[simp] theorem State.acknowledge_rej (v : Word) : (s.acknowledge v).rej = (s.rej && !v.getLsbD 3) := rfl
@[simp] theorem State.acknowledge_errCode (v : Word) : (s.acknowledge v).errCode = s.errCode := rfl
@[simp] theorem State.acknowledge_errCmd (v : Word) : (s.acknowledge v).errCmd = s.errCmd := rfl
@[simp] theorem State.acknowledge_len (v : Word) : (s.acknowledge v).len = s.len := rfl
@[simp] theorem State.acknowledge_buf (v : Word) : (s.acknowledge v).buf = s.buf := rfl
@[simp] theorem State.acknowledge_resetLine (v : Word) : (s.acknowledge v).resetLine = s.resetLine := rfl
@[simp] theorem State.acknowledge_bufDraw (v : Word) : (s.acknowledge v).bufDraw = s.bufDraw := rfl
@[simp] theorem State.acknowledge_draws (v : Word) : (s.acknowledge v).draws = s.draws := rfl
@[simp] theorem State.acknowledge_script (v : Word) : (s.acknowledge v).script = s.script := rfl
@[simp] theorem State.acknowledge_replies (v : Word) : (s.acknowledge v).replies = s.replies := rfl

/-! `accept` -/

@[simp] theorem State.accept_params (w : Word) : (s.accept w).params = s.params := rfl
@[simp] theorem State.accept_regs (w : Word) : (s.accept w).regs = s.regs := rfl
@[simp] theorem State.accept_phase (w : Word) : (s.accept w).phase = .busy := rfl
@[simp] theorem State.accept_cmdReg (w : Word) : (s.accept w).cmdReg = w := rfl
@[simp] theorem State.accept_ctrl (w : Word) : (s.accept w).ctrl = s.ctrl := rfl
@[simp] theorem State.accept_done (w : Word) : (s.accept w).done = false := rfl
@[simp] theorem State.accept_err (w : Word) : (s.accept w).err = s.err := rfl
@[simp] theorem State.accept_rej (w : Word) : (s.accept w).rej = s.rej := rfl
@[simp] theorem State.accept_errCode (w : Word) : (s.accept w).errCode = s.errCode := rfl
@[simp] theorem State.accept_errCmd (w : Word) : (s.accept w).errCmd = s.errCmd := rfl
@[simp] theorem State.accept_len (w : Word) : (s.accept w).len = s.len := rfl
@[simp] theorem State.accept_buf (w : Word) : (s.accept w).buf = s.buf := rfl
@[simp] theorem State.accept_resetLine (w : Word) : (s.accept w).resetLine = s.resetLine := rfl
@[simp] theorem State.accept_bufDraw (w : Word) : (s.accept w).bufDraw = s.bufDraw := rfl
@[simp] theorem State.accept_draws (w : Word) : (s.accept w).draws = s.draws := rfl
@[simp] theorem State.accept_script (w : Word) : (s.accept w).script = s.script := rfl
@[simp] theorem State.accept_replies (w : Word) : (s.accept w).replies = s.replies := rfl

/-! `reject` -/

@[simp] theorem State.reject_params : s.reject.params = s.params := rfl
@[simp] theorem State.reject_regs : s.reject.regs = s.regs := rfl
@[simp] theorem State.reject_phase : s.reject.phase = s.phase := rfl
@[simp] theorem State.reject_cmdReg : s.reject.cmdReg = s.cmdReg := rfl
@[simp] theorem State.reject_ctrl : s.reject.ctrl = s.ctrl := rfl
@[simp] theorem State.reject_done : s.reject.done = s.done := rfl
@[simp] theorem State.reject_err : s.reject.err = s.err := rfl
@[simp] theorem State.reject_rej : s.reject.rej = true := rfl
@[simp] theorem State.reject_errCode : s.reject.errCode = s.errCode := rfl
@[simp] theorem State.reject_errCmd : s.reject.errCmd = s.errCmd := rfl
@[simp] theorem State.reject_len : s.reject.len = s.len := rfl
@[simp] theorem State.reject_buf : s.reject.buf = s.buf := rfl
@[simp] theorem State.reject_resetLine : s.reject.resetLine = s.resetLine := rfl
@[simp] theorem State.reject_bufDraw : s.reject.bufDraw = s.bufDraw := rfl
@[simp] theorem State.reject_draws : s.reject.draws = s.draws := rfl
@[simp] theorem State.reject_script : s.reject.script = s.script := rfl
@[simp] theorem State.reject_replies : s.reject.replies = s.replies := rfl

/-! `draw` -/

@[simp] theorem State.draw_params : s.draw.2.params = s.params := rfl
@[simp] theorem State.draw_regs : s.draw.2.regs = s.regs := rfl
@[simp] theorem State.draw_phase : s.draw.2.phase = s.phase := rfl
@[simp] theorem State.draw_cmdReg : s.draw.2.cmdReg = s.cmdReg := rfl
@[simp] theorem State.draw_ctrl : s.draw.2.ctrl = s.ctrl := rfl
@[simp] theorem State.draw_done : s.draw.2.done = s.done := rfl
@[simp] theorem State.draw_err : s.draw.2.err = s.err := rfl
@[simp] theorem State.draw_rej : s.draw.2.rej = s.rej := rfl
@[simp] theorem State.draw_errCode : s.draw.2.errCode = s.errCode := rfl
@[simp] theorem State.draw_errCmd : s.draw.2.errCmd = s.errCmd := rfl
@[simp] theorem State.draw_len : s.draw.2.len = s.len := rfl
@[simp] theorem State.draw_buf : s.draw.2.buf = s.buf := rfl
@[simp] theorem State.draw_resetLine : s.draw.2.resetLine = s.resetLine := rfl
@[simp] theorem State.draw_bufDraw : s.draw.2.bufDraw = s.bufDraw := rfl
@[simp] theorem State.draw_draws : s.draw.2.draws = s.draws + 1 := rfl
@[simp] theorem State.draw_script : s.draw.2.script = s.script := rfl
@[simp] theorem State.draw_replies : s.draw.2.replies = s.replies := rfl

/-! `reply` -/

@[simp] theorem State.reply_params (r : Reply) : (s.reply r).params = s.params := rfl
@[simp] theorem State.reply_regs (r : Reply) : (s.reply r).regs = s.regs := rfl
@[simp] theorem State.reply_phase (r : Reply) : (s.reply r).phase = s.phase := rfl
@[simp] theorem State.reply_cmdReg (r : Reply) : (s.reply r).cmdReg = s.cmdReg := rfl
@[simp] theorem State.reply_ctrl (r : Reply) : (s.reply r).ctrl = s.ctrl := rfl
@[simp] theorem State.reply_done (r : Reply) : (s.reply r).done = s.done := rfl
@[simp] theorem State.reply_err (r : Reply) : (s.reply r).err = s.err := rfl
@[simp] theorem State.reply_rej (r : Reply) : (s.reply r).rej = s.rej := rfl
@[simp] theorem State.reply_errCode (r : Reply) : (s.reply r).errCode = s.errCode := rfl
@[simp] theorem State.reply_errCmd (r : Reply) : (s.reply r).errCmd = s.errCmd := rfl
@[simp] theorem State.reply_len (r : Reply) : (s.reply r).len = s.len := rfl
@[simp] theorem State.reply_buf (r : Reply) : (s.reply r).buf = s.buf := rfl
@[simp] theorem State.reply_resetLine (r : Reply) : (s.reply r).resetLine = s.resetLine := rfl
@[simp] theorem State.reply_bufDraw (r : Reply) : (s.reply r).bufDraw = s.bufDraw := rfl
@[simp] theorem State.reply_draws (r : Reply) : (s.reply r).draws = s.draws := rfl
@[simp] theorem State.reply_script (r : Reply) : (s.reply r).script = s.script := rfl
@[simp] theorem State.reply_replies (r : Reply) : (s.reply r).replies = r :: s.replies := rfl

/-! `releaseReset` -/

@[simp] theorem State.releaseReset_params : s.releaseReset.params = s.params := rfl
@[simp] theorem State.releaseReset_regs : s.releaseReset.regs = s.regs := rfl
@[simp] theorem State.releaseReset_phase : s.releaseReset.phase = s.phase := rfl
@[simp] theorem State.releaseReset_cmdReg : s.releaseReset.cmdReg = s.cmdReg := rfl
@[simp] theorem State.releaseReset_ctrl : s.releaseReset.ctrl = s.ctrl := rfl
@[simp] theorem State.releaseReset_done : s.releaseReset.done = s.done := rfl
@[simp] theorem State.releaseReset_err : s.releaseReset.err = s.err := rfl
@[simp] theorem State.releaseReset_rej : s.releaseReset.rej = s.rej := rfl
@[simp] theorem State.releaseReset_errCode : s.releaseReset.errCode = s.errCode := rfl
@[simp] theorem State.releaseReset_errCmd : s.releaseReset.errCmd = s.errCmd := rfl
@[simp] theorem State.releaseReset_len : s.releaseReset.len = s.len := rfl
@[simp] theorem State.releaseReset_buf : s.releaseReset.buf = s.buf := rfl
@[simp] theorem State.releaseReset_resetLine : s.releaseReset.resetLine = false := rfl
@[simp] theorem State.releaseReset_bufDraw : s.releaseReset.bufDraw = s.bufDraw := rfl
@[simp] theorem State.releaseReset_draws : s.releaseReset.draws = s.draws := rfl
@[simp] theorem State.releaseReset_script : s.releaseReset.script = s.script := rfl
@[simp] theorem State.releaseReset_replies : s.releaseReset.replies = s.replies := rfl

/-! `before` -/

@[simp] theorem State.before_params (events : List Event) : (s.before events).params = s.params := rfl
@[simp] theorem State.before_regs (events : List Event) : (s.before events).regs = s.regs := rfl
@[simp] theorem State.before_phase (events : List Event) : (s.before events).phase = s.phase := rfl
@[simp] theorem State.before_cmdReg (events : List Event) : (s.before events).cmdReg = s.cmdReg := rfl
@[simp] theorem State.before_ctrl (events : List Event) : (s.before events).ctrl = s.ctrl := rfl
@[simp] theorem State.before_done (events : List Event) : (s.before events).done = s.done := rfl
@[simp] theorem State.before_err (events : List Event) : (s.before events).err = s.err := rfl
@[simp] theorem State.before_rej (events : List Event) : (s.before events).rej = s.rej := rfl
@[simp] theorem State.before_errCode (events : List Event) : (s.before events).errCode = s.errCode := rfl
@[simp] theorem State.before_errCmd (events : List Event) : (s.before events).errCmd = s.errCmd := rfl
@[simp] theorem State.before_len (events : List Event) : (s.before events).len = s.len := rfl
@[simp] theorem State.before_buf (events : List Event) : (s.before events).buf = s.buf := rfl
@[simp] theorem State.before_resetLine (events : List Event) : (s.before events).resetLine = s.resetLine := rfl
@[simp] theorem State.before_bufDraw (events : List Event) : (s.before events).bufDraw = s.bufDraw := rfl
@[simp] theorem State.before_draws (events : List Event) : (s.before events).draws = s.draws := rfl
@[simp] theorem State.before_script (events : List Event) : (s.before events).script = events ++ s.script := rfl
@[simp] theorem State.before_replies (events : List Event) : (s.before events).replies = s.replies := rfl

/-! `instead` -/

@[simp] theorem State.instead_params (events : List Event) : (s.instead events).params = s.params := rfl
@[simp] theorem State.instead_regs (events : List Event) : (s.instead events).regs = s.regs := rfl
@[simp] theorem State.instead_phase (events : List Event) : (s.instead events).phase = s.phase := rfl
@[simp] theorem State.instead_cmdReg (events : List Event) : (s.instead events).cmdReg = s.cmdReg := rfl
@[simp] theorem State.instead_ctrl (events : List Event) : (s.instead events).ctrl = s.ctrl := rfl
@[simp] theorem State.instead_done (events : List Event) : (s.instead events).done = s.done := rfl
@[simp] theorem State.instead_err (events : List Event) : (s.instead events).err = s.err := rfl
@[simp] theorem State.instead_rej (events : List Event) : (s.instead events).rej = s.rej := rfl
@[simp] theorem State.instead_errCode (events : List Event) : (s.instead events).errCode = s.errCode := rfl
@[simp] theorem State.instead_errCmd (events : List Event) : (s.instead events).errCmd = s.errCmd := rfl
@[simp] theorem State.instead_len (events : List Event) : (s.instead events).len = s.len := rfl
@[simp] theorem State.instead_buf (events : List Event) : (s.instead events).buf = s.buf := rfl
@[simp] theorem State.instead_resetLine (events : List Event) : (s.instead events).resetLine = s.resetLine := rfl
@[simp] theorem State.instead_bufDraw (events : List Event) : (s.instead events).bufDraw = s.bufDraw := rfl
@[simp] theorem State.instead_draws (events : List Event) : (s.instead events).draws = s.draws := rfl
@[simp] theorem State.instead_script (events : List Event) : (s.instead events).script = events := rfl
@[simp] theorem State.instead_replies (events : List Event) : (s.instead events).replies = s.replies := rfl

/-! `takeReset` -/

@[simp] theorem State.takeReset_params : s.takeReset.params = s.params := rfl
@[simp] theorem State.takeReset_regs : s.takeReset.regs = ⟨.absent, .absent, .absent, .absent, .absent, .absent, .absent, .absent⟩ := rfl
@[simp] theorem State.takeReset_phase : s.takeReset.phase = .idle := rfl
@[simp] theorem State.takeReset_cmdReg : s.takeReset.cmdReg = 0#32 := rfl
@[simp] theorem State.takeReset_ctrl : s.takeReset.ctrl = ⟨false, false, false⟩ := rfl
@[simp] theorem State.takeReset_done : s.takeReset.done = false := rfl
@[simp] theorem State.takeReset_err : s.takeReset.err = false := rfl
@[simp] theorem State.takeReset_rej : s.takeReset.rej = false := rfl
@[simp] theorem State.takeReset_errCode : s.takeReset.errCode = 0#8 := rfl
@[simp] theorem State.takeReset_errCmd : s.takeReset.errCmd = 0#32 := rfl
@[simp] theorem State.takeReset_len : s.takeReset.len = 0#32 := rfl
@[simp] theorem State.takeReset_buf : s.takeReset.buf = [] := rfl
@[simp] theorem State.takeReset_resetLine : s.takeReset.resetLine = s.resetLine := rfl
@[simp] theorem State.takeReset_bufDraw : s.takeReset.bufDraw = s.draws := rfl
@[simp] theorem State.takeReset_draws : s.takeReset.draws = s.draws + 1 := rfl
@[simp] theorem State.takeReset_script : s.takeReset.script = s.script := rfl
@[simp] theorem State.takeReset_replies : s.takeReset.replies = s.replies := rfl

/-! `assertReset` -/

@[simp] theorem State.assertReset_params : s.assertReset.params = s.params := rfl
@[simp] theorem State.assertReset_regs : s.assertReset.regs = ⟨.absent, .absent, .absent, .absent, .absent, .absent, .absent, .absent⟩ := rfl
@[simp] theorem State.assertReset_phase : s.assertReset.phase = .idle := rfl
@[simp] theorem State.assertReset_cmdReg : s.assertReset.cmdReg = 0#32 := rfl
@[simp] theorem State.assertReset_ctrl : s.assertReset.ctrl = ⟨false, false, false⟩ := rfl
@[simp] theorem State.assertReset_done : s.assertReset.done = false := rfl
@[simp] theorem State.assertReset_err : s.assertReset.err = false := rfl
@[simp] theorem State.assertReset_rej : s.assertReset.rej = false := rfl
@[simp] theorem State.assertReset_errCode : s.assertReset.errCode = 0#8 := rfl
@[simp] theorem State.assertReset_errCmd : s.assertReset.errCmd = 0#32 := rfl
@[simp] theorem State.assertReset_len : s.assertReset.len = 0#32 := rfl
@[simp] theorem State.assertReset_buf : s.assertReset.buf = [] := rfl
@[simp] theorem State.assertReset_resetLine : s.assertReset.resetLine = true := rfl
@[simp] theorem State.assertReset_bufDraw : s.assertReset.bufDraw = s.draws := rfl
@[simp] theorem State.assertReset_draws : s.assertReset.draws = s.draws + 1 := rfl
@[simp] theorem State.assertReset_script : s.assertReset.script = s.script := rfl
@[simp] theorem State.assertReset_replies : s.assertReset.replies = s.replies := rfl

/-! The writes of a successful command, applied in turn: only the big registers, `BUF` and `LEN` can change. -/

@[simp] theorem State.foldl_apply_params (ws : List Write) : (ws.foldl State.apply s).params = s.params := by
  induction ws generalizing s with
  | nil => rfl
  | cons w ws ih => cases w <;> simp [ih]

@[simp] theorem State.foldl_apply_phase (ws : List Write) : (ws.foldl State.apply s).phase = s.phase := by
  induction ws generalizing s with
  | nil => rfl
  | cons w ws ih => cases w <;> simp [ih]

@[simp] theorem State.foldl_apply_cmdReg (ws : List Write) : (ws.foldl State.apply s).cmdReg = s.cmdReg := by
  induction ws generalizing s with
  | nil => rfl
  | cons w ws ih => cases w <;> simp [ih]

@[simp] theorem State.foldl_apply_ctrl (ws : List Write) : (ws.foldl State.apply s).ctrl = s.ctrl := by
  induction ws generalizing s with
  | nil => rfl
  | cons w ws ih => cases w <;> simp [ih]

@[simp] theorem State.foldl_apply_done (ws : List Write) : (ws.foldl State.apply s).done = s.done := by
  induction ws generalizing s with
  | nil => rfl
  | cons w ws ih => cases w <;> simp [ih]

@[simp] theorem State.foldl_apply_err (ws : List Write) : (ws.foldl State.apply s).err = s.err := by
  induction ws generalizing s with
  | nil => rfl
  | cons w ws ih => cases w <;> simp [ih]

@[simp] theorem State.foldl_apply_rej (ws : List Write) : (ws.foldl State.apply s).rej = s.rej := by
  induction ws generalizing s with
  | nil => rfl
  | cons w ws ih => cases w <;> simp [ih]

@[simp] theorem State.foldl_apply_errCode (ws : List Write) : (ws.foldl State.apply s).errCode = s.errCode := by
  induction ws generalizing s with
  | nil => rfl
  | cons w ws ih => cases w <;> simp [ih]

@[simp] theorem State.foldl_apply_errCmd (ws : List Write) : (ws.foldl State.apply s).errCmd = s.errCmd := by
  induction ws generalizing s with
  | nil => rfl
  | cons w ws ih => cases w <;> simp [ih]

@[simp] theorem State.foldl_apply_resetLine (ws : List Write) : (ws.foldl State.apply s).resetLine = s.resetLine := by
  induction ws generalizing s with
  | nil => rfl
  | cons w ws ih => cases w <;> simp [ih]

@[simp] theorem State.foldl_apply_bufDraw (ws : List Write) : (ws.foldl State.apply s).bufDraw = s.bufDraw := by
  induction ws generalizing s with
  | nil => rfl
  | cons w ws ih => cases w <;> simp [ih]

@[simp] theorem State.foldl_apply_draws (ws : List Write) : (ws.foldl State.apply s).draws = s.draws := by
  induction ws generalizing s with
  | nil => rfl
  | cons w ws ih => cases w <;> simp [ih]

@[simp] theorem State.foldl_apply_script (ws : List Write) : (ws.foldl State.apply s).script = s.script := by
  induction ws generalizing s with
  | nil => rfl
  | cons w ws ih => cases w <;> simp [ih]

@[simp] theorem State.foldl_apply_replies (ws : List Write) : (ws.foldl State.apply s).replies = s.replies := by
  induction ws generalizing s with
  | nil => rfl
  | cons w ws ih => cases w <;> simp [ih]

/-! `succeed` -/

@[simp] theorem State.succeed_params (ws : List Write) : (s.succeed ws).params = s.params :=
  State.foldl_apply_params s ws
@[simp] theorem State.succeed_regs (ws : List Write) :
    (s.succeed ws).regs = (ws.foldl State.apply s).regs := rfl
@[simp] theorem State.succeed_phase (ws : List Write) : (s.succeed ws).phase = .idle := rfl
@[simp] theorem State.succeed_cmdReg (ws : List Write) : (s.succeed ws).cmdReg = s.cmdReg :=
  State.foldl_apply_cmdReg s ws
@[simp] theorem State.succeed_ctrl (ws : List Write) : (s.succeed ws).ctrl = s.ctrl :=
  State.foldl_apply_ctrl s ws
@[simp] theorem State.succeed_done (ws : List Write) : (s.succeed ws).done = true := rfl
@[simp] theorem State.succeed_err (ws : List Write) : (s.succeed ws).err = s.err :=
  State.foldl_apply_err s ws
@[simp] theorem State.succeed_rej (ws : List Write) : (s.succeed ws).rej = s.rej :=
  State.foldl_apply_rej s ws
@[simp] theorem State.succeed_errCode (ws : List Write) : (s.succeed ws).errCode = s.errCode :=
  State.foldl_apply_errCode s ws
@[simp] theorem State.succeed_errCmd (ws : List Write) : (s.succeed ws).errCmd = s.errCmd :=
  State.foldl_apply_errCmd s ws
@[simp] theorem State.succeed_len (ws : List Write) :
    (s.succeed ws).len = (ws.foldl State.apply s).len := rfl
@[simp] theorem State.succeed_buf (ws : List Write) :
    (s.succeed ws).buf = (ws.foldl State.apply s).buf := rfl
@[simp] theorem State.succeed_resetLine (ws : List Write) : (s.succeed ws).resetLine = s.resetLine :=
  State.foldl_apply_resetLine s ws
@[simp] theorem State.succeed_bufDraw (ws : List Write) : (s.succeed ws).bufDraw = s.bufDraw :=
  State.foldl_apply_bufDraw s ws
@[simp] theorem State.succeed_draws (ws : List Write) : (s.succeed ws).draws = s.draws :=
  State.foldl_apply_draws s ws
@[simp] theorem State.succeed_script (ws : List Write) : (s.succeed ws).script = s.script :=
  State.foldl_apply_script s ws
@[simp] theorem State.succeed_replies (ws : List Write) : (s.succeed ws).replies = s.replies :=
  State.foldl_apply_replies s ws

/-! `finish` is `succeed` or `fail`. -/

@[simp] theorem State.finish_success (ws : List Write) : s.finish (.success ws) = s.succeed ws := rfl
@[simp] theorem State.finish_failure (k : ErrorKind) : s.finish (.failure k) = s.fail k := rfl

/-- A failing completion changes no big register (R175). -/
@[simp] theorem State.fail_reg (k : ErrorKind) (r : Reg) : (s.fail k).reg r = s.reg r := rfl

/-- Whatever the outcome, the command is over. -/
@[simp] theorem State.finish_phase (r : Result) : (s.finish r).phase = .idle := by cases r <;> rfl

@[simp] theorem State.finish_params (r : Result) : (s.finish r).params = s.params := by cases r <;> simp
@[simp] theorem State.finish_cmdReg (r : Result) : (s.finish r).cmdReg = s.cmdReg := by cases r <;> simp
@[simp] theorem State.finish_ctrl (r : Result) : (s.finish r).ctrl = s.ctrl := by cases r <;> simp
@[simp] theorem State.finish_rej (r : Result) : (s.finish r).rej = s.rej := by cases r <;> simp
@[simp] theorem State.finish_resetLine (r : Result) : (s.finish r).resetLine = s.resetLine := by cases r <;> simp
@[simp] theorem State.finish_bufDraw (r : Result) : (s.finish r).bufDraw = s.bufDraw := by cases r <;> simp
@[simp] theorem State.finish_draws (r : Result) : (s.finish r).draws = s.draws := by cases r <;> simp
@[simp] theorem State.finish_script (r : Result) : (s.finish r).script = s.script := by cases r <;> simp
@[simp] theorem State.finish_replies (r : Result) : (s.finish r).replies = s.replies := by cases r <;> simp

end Sys2Proof.Machine
end

