-- ==== Sys2Proof/Laws/Memory.lean ====
section
/-! SUPPORT. The laws of the big register file and of the buffer list: read after write, frames, the canonical form,
and that the canonical form is one list for each content. -/

namespace Sys2Proof.Machine

open Sys2Proof

@[simp] theorem BigRegs.get_set_same (x : BigRegs) (r : Reg) (v : BigValue) : (x.set r v).get r = v := by
  cases r <;> rfl

theorem BigRegs.get_set_other (x : BigRegs) {r q : Reg} (v : BigValue) (h : q ≠ r) :
    (x.set r v).get q = x.get q := by
  cases r <;> cases q <;> first | rfl | exact absurd rfl h

theorem BigRegs.get_set (x : BigRegs) (r q : Reg) (v : BigValue) :
    (x.set r v).get q = if q = r then v else x.get q := by
  split
  · next h => rw [h, BigRegs.get_set_same]
  · next h => exact BigRegs.get_set_other x v h

/-- Two register files that read alike are equal. -/
theorem BigRegs.ext_get {x y : BigRegs} (h : ∀ r, x.get r = y.get r) : x = y := by
  cases x; cases y
  have := h .n; have := h .e; have := h .d; have := h .a
  have := h .b; have := h .x; have := h .y; have := h .g
  simp_all [BigRegs.get]

namespace Memory

@[simp] theorem read?_write_same (m : Memory) (k : Nat) (v : Byte) : read? (write m k v) k = some v := by
  induction m with
  | nil => simp [write, read?]
  | cons c m ih =>
    obtain ⟨j, w⟩ := c
    simp only [write]
    split
    · simp [read?]
    · split
      · simp [read?]
      · next h => simp only [read?, if_neg (Ne.symm h)]; exact ih

theorem read?_write_other (m : Memory) {k q : Nat} (v : Byte) (h : q ≠ k) :
    read? (write m k v) q = read? m q := by
  induction m with
  | nil => simp [write, read?, Ne.symm h]
  | cons c m ih =>
    obtain ⟨j, w⟩ := c
    simp only [write]
    split
    · simp only [read?, if_neg (Ne.symm h)]
    · split
      · next hk => subst hk; simp only [read?, if_neg (Ne.symm h)]
      · simp only [read?, ih]

theorem read?_write (m : Memory) (k q : Nat) (v : Byte) :
    read? (write m k v) q = if q = k then some v else read? m q := by
  split
  · next h => rw [h, read?_write_same]
  · next h => exact read?_write_other m v h

theorem read?_writeAll (m : Memory) (k q : Nat) (vs : List Byte) :
    read? (writeAll m k vs) q =
      if k ≤ q ∧ q < k + vs.length then vs[q - k]? else read? m q := by
  induction vs generalizing m k with
  | nil => simp [writeAll]
  | cons v vs ih =>
    simp only [writeAll, ih, read?_write, List.length_cons]
    by_cases h1 : k + 1 ≤ q ∧ q < k + 1 + vs.length
    · have h2 : k ≤ q ∧ q < k + (vs.length + 1) := by omega
      have h3 : q - k = (q - (k + 1)) + 1 := by omega
      rw [if_pos h1, if_pos h2, h3, List.getElem?_cons_succ]
    · rw [if_neg h1]
      by_cases hq : q = k
      · subst hq; simp
      · have h2 : ¬ (k ≤ q ∧ q < k + (vs.length + 1)) := by omega
        rw [if_neg h2, if_neg hq]

theorem mem_write {m : Memory} {k : Nat} {v : Byte} {c : Host.Cell} (h : c ∈ write m k v) :
    c = (k, v) ∨ c ∈ m := by
  induction m with
  | nil => simpa [write] using h
  | cons d m ih =>
    obtain ⟨j, w⟩ := d
    simp only [write] at h
    split at h
    · simpa using h
    · split at h
      · rcases List.mem_cons.1 h with h | h
        · exact .inl h
        · exact .inr (List.mem_cons_of_mem _ h)
      · rcases List.mem_cons.1 h with h | h
        · exact .inr (h ▸ List.mem_cons_self)
        · exact (ih h).imp_right (List.mem_cons_of_mem _)

theorem wf_iff (m : Memory) : wf m = true ↔ m.Pairwise fun c d => c.1 < d.1 := by simp [wf]

/-- A write keeps the canonical form. -/
theorem wf_write {m : Memory} (h : wf m = true) (k : Nat) (v : Byte) : wf (write m k v) = true := by
  rw [wf_iff] at h ⊢
  induction m with
  | nil => simp [write]
  | cons d m ih =>
    obtain ⟨j, w⟩ := d
    have hm := (List.pairwise_cons.1 h).2
    have hj := (List.pairwise_cons.1 h).1
    simp only [write]
    split
    · next hk =>
      refine List.pairwise_cons.2 ⟨fun c hc => ?_, h⟩
      rcases List.mem_cons.1 hc with rfl | hc
      · exact hk
      · exact Nat.lt_trans hk (hj c hc)
    · next hk =>
      split
      · next he => subst he; exact List.pairwise_cons.2 ⟨hj, hm⟩
      · next he =>
        refine List.pairwise_cons.2 ⟨fun c hc => ?_, ih hm⟩
        rcases mem_write hc with rfl | hc
        · show j < k; omega
        · exact hj c hc

/-- Writing a string keeps the canonical form. -/
theorem wf_writeAll {m : Memory} (h : wf m = true) (k : Nat) (vs : List Byte) :
    wf (writeAll m k vs) = true := by
  induction vs generalizing m k with
  | nil => exact h
  | cons v vs ih => exact ih (wf_write h k v) (k + 1)

theorem below_write {n : Nat} {m : Memory} (h : below n m = true) {k : Nat} (hk : k < n) (v : Byte) :
    below n (write m k v) = true := by
  simp only [below, List.all_eq_true, decide_eq_true_eq] at h ⊢
  intro c hc
  rcases mem_write hc with rfl | hc
  · exact hk
  · exact h c hc

theorem below_writeAll {n : Nat} {m : Memory} (h : below n m = true) {k : Nat} {vs : List Byte}
    (hk : k + vs.length ≤ n) : below n (writeAll m k vs) = true := by
  induction vs generalizing m k with
  | nil => exact h
  | cons v vs ih =>
    simp only [List.length_cons] at hk
    exact ih (below_write h (by omega) v) (by omega)

theorem read?_eq_some_of_mem {m : Memory} (h : wf m = true) {c : Host.Cell} (hc : c ∈ m) :
    read? m c.1 = some c.2 := by
  rw [wf_iff] at h
  induction m with
  | nil => cases hc
  | cons d m ih =>
    obtain ⟨j, w⟩ := d
    rcases List.mem_cons.1 hc with rfl | hm
    · simp [read?]
    · have : j < c.1 := (List.pairwise_cons.1 h).1 c hm
      simp only [read?, if_neg (Nat.ne_of_lt this)]
      exact ih (List.pairwise_cons.1 h).2 hm

theorem mem_of_read? {m : Memory} {k : Nat} {v : Byte} (h : read? m k = some v) : (k, v) ∈ m := by
  induction m with
  | nil => cases h
  | cons d m ih =>
    obtain ⟨j, w⟩ := d
    simp only [read?] at h
    split at h
    · next hj => cases h; subst hj; exact List.mem_cons_self
    · exact List.mem_cons_of_mem _ (ih h)

/-- Equal contents are equal lists: two canonical lists that read alike are the same. -/
theorem ext_read? {m₁ m₂ : Memory} (h₁ : wf m₁ = true) (h₂ : wf m₂ = true)
    (h : ∀ k, read? m₁ k = read? m₂ k) : m₁ = m₂ := by
  have hmem : ∀ c, c ∈ m₁ ↔ c ∈ m₂ := fun c =>
    ⟨fun hc => mem_of_read? (h c.1 ▸ read?_eq_some_of_mem h₁ hc),
     fun hc => mem_of_read? ((h c.1).symm ▸ read?_eq_some_of_mem h₂ hc)⟩
  have nd : ∀ {m : Memory}, wf m = true → m.Nodup := fun hm =>
    ((wf_iff _).1 hm).imp fun {a b} hab => by rintro rfl; exact Nat.lt_irrefl _ hab
  refine List.Perm.eq_of_pairwise (le := fun c d => c.1 < d.1) ?_ ((wf_iff _).1 h₁) ((wf_iff _).1 h₂)
    ((List.perm_ext_iff_of_nodup (nd h₁) (nd h₂)).2 hmem)
  intro a b _ _ hab hba
  exact absurd hab (Nat.lt_asymm hba)

end Memory

/-- What `BUF[q]` holds after a string is written from index 0. -/
theorem State.bufByte_apply_string (s : State) (bytes : List Byte) (q : Nat) :
    (s.apply (.string bytes)).bufByte q = bytes[q]?.getD (s.bufByte q) := by
  simp only [State.bufByte, State.apply_string_buf, State.apply_string_bufDraw, Memory.read?_writeAll]
  by_cases h : q < bytes.length
  · simp [h]
  · simp [h]

@[simp] theorem State.length_memRead (s : State) (n : Nat) : (s.memRead n).length = n := by
  simp [State.memRead]

/-- A string written from index 0 is read back whole. -/
theorem State.memRead_apply_string (s : State) (bytes : List Byte) :
    (s.apply (.string bytes)).memRead bytes.length = bytes := by
  apply List.ext_getElem
  · simp
  · intro i h1 h2
    simp [State.memRead, State.bufByte_apply_string, h2]

/-- Reset keeps the canonical form: nothing is listed. -/
theorem State.reset_buf_wf : Memory.wf State.reset.buf = true := rfl

end Sys2Proof.Machine
end

