-- ==== Sys2Proof/Laws/PerInstr.lean ====
section
/-! SUPPORT. One family of facts for each command as syntax: its raw fields are legal (30_encoding.md R72), and its word
carries its opcode, fits its row of the table, and has a `zero` field of 0 (R71, R73). -/

namespace Sys2Proof.Laws.Encodes

open Sys2Proof

/-- The fields of the command are legal, and its word is in the row of the command's mnemonic. -/
def Statement (i : Instr) : Prop :=
  i.raw.wellFormed = true ∧ (encode i).extractLsb' 24 8 = i.raw.mnemonic.opcode ∧
    (encode i).extractLsb' 0 12 = 0#12 ∧
    ∃ r ∈ decodeTable, r.mnemonic = i.raw.mnemonic ∧ r.matchesWord (encode i) = true

theorem ldi (rd : Reg) : Statement (.ldi rd) := by cases rd <;> (unfold Statement; decide)

theorem ldo (rd : Reg) : Statement (.ldo rd) := by cases rd <;> (unfold Statement; decide)

theorem sti (rs1 : Reg) : Statement (.sti rs1) := by cases rs1 <;> (unfold Statement; decide)

theorem stm (rs1 : Reg) : Statement (.stm rs1) := by cases rs1 <;> (unfold Statement; decide)

theorem mov (rd rs1 : Reg) : Statement (.mov rd rs1) := by cases rd <;> cases rs1 <;> (unfold Statement; decide)

theorem clr (rd : Reg) : Statement (.clr rd) := by cases rd <;> (unfold Statement; decide)

theorem egcd (rs1 rs2 : Reg) : Statement (.egcd rs1 rs2) := by cases rs1 <;> cases rs2 <;> (unfold Statement; decide)

theorem gcd (rd rs1 rs2 : Reg) : Statement (.gcd rd rs1 rs2) := by
  cases rd <;> cases rs1 <;> cases rs2 <;> (unfold Statement; decide)

theorem lcm (rd rs1 rs2 : Reg) : Statement (.lcm rd rs1 rs2) := by
  cases rd <;> cases rs1 <;> cases rs2 <;> (unfold Statement; decide)

theorem modinv (rd rs1 rs2 : Reg) : Statement (.modinv rd rs1 rs2) := by
  cases rd <;> cases rs1 <;> cases rs2 <;> (unfold Statement; decide)

theorem pub (rd rs1 : Reg) : Statement (.pub rd rs1) := by cases rd <;> cases rs1 <;> (unfold Statement; decide)

theorem prv (rd rs1 : Reg) : Statement (.prv rd rs1) := by cases rd <;> cases rs1 <;> (unfold Statement; decide)

end Sys2Proof.Laws.Encodes
end

