-- ==== Sys2Proof/Laws/Step.lean ====
section
/-! SUPPORT. What one step can do (20_memory.md R57): the kinds of change to the engine, whichever event comes next and
whatever the host reads, asks next or draws. Each shared operation has its lemma; `step_changes` is the one to cite. -/

namespace Sys2Proof.Machine

open Sys2Proof

/-- Two states that differ at most in the environment: script, replies, and the number of draws made. -/
structure State.SameEngine (s t : State) : Prop where
  params : t.params = s.params
  regs : t.regs = s.regs
  phase : t.phase = s.phase
  cmdReg : t.cmdReg = s.cmdReg
  ctrl : t.ctrl = s.ctrl
  done : t.done = s.done
  err : t.err = s.err
  rej : t.rej = s.rej
  errCode : t.errCode = s.errCode
  errCmd : t.errCmd = s.errCmd
  len : t.len = s.len
  buf : t.buf = s.buf
  resetLine : t.resetLine = s.resetLine
  bufDraw : t.bufDraw = s.bufDraw
  draws : s.draws ≤ t.draws

/-- The kinds of change one step makes to the engine. -/
inductive State.Change (s : State) : State → Prop where
  /-- No change. -/
  | same : Change s s
  /-- A rejected access (R60). -/
  | rejected (out : s.resetLine = false) : Change s s.reject
  /-- A write to `STATUS` (R30). -/
  | acknowledged (out : s.resetLine = false) (v : Word) : Change s (s.acknowledge v)
  /-- A write to `CTRL` with bit 31 clear (R29). -/
  | enables (out : s.resetLine = false) (c : Ctrl) : Change s { s with ctrl := c }
  /-- A write to `LEN` while idle (R34). -/
  | length (out : s.resetLine = false) (idle : s.phase = .idle) (v : Word) : Change s { s with len := v }
  /-- A write of a buffer byte while idle (R33). -/
  | byte (out : s.resetLine = false) (idle : s.phase = .idle) (k : Nat) (v : Byte) (lt : k < s.params.bufBytes) :
      Change s { s with buf := Memory.write s.buf k v }
  /-- An accepted command (R38). -/
  | accepted (out : s.resetLine = false) (idle : s.phase = .idle) (clear : s.err = false) (w : Word) :
      Change s (s.accept w)
  /-- A soft reset (R192). -/
  | softReset (out : s.resetLine = false) : Change s s.takeReset
  /-- A hard reset asserted (R190). -/
  | hardReset : Change s s.assertReset
  /-- A hard reset released (R190). -/
  | released : Change s s.releaseReset
  /-- A completion of the command in execution (R39). -/
  | completed (busy : s.phase = .busy) (out : s.resetLine = false) (i : Instr) (h : decode s.cmdReg = .ok i) :
      Change s (s.finish (commandResult i s))
  /-- A completion of an illegal word (R76). -/
  | illegal (busy : s.phase = .busy) (out : s.resetLine = false) (e : IllegalWord)
      (h : decode s.cmdReg = .error e) : Change s (s.fail .illegalCommand)

theorem State.SameEngine.refl (s : State) : s.SameEngine s :=
  ⟨rfl, rfl, rfl, rfl, rfl, rfl, rfl, rfl, rfl, rfl, rfl, rfl, rfl, rfl, Nat.le_refl _⟩

theorem State.SameEngine.trans {s t u : State} (h : s.SameEngine t) (h' : t.SameEngine u) : s.SameEngine u :=
  ⟨h'.params.trans h.params, h'.regs.trans h.regs, h'.phase.trans h.phase, h'.cmdReg.trans h.cmdReg,
    h'.ctrl.trans h.ctrl, h'.done.trans h.done, h'.err.trans h.err, h'.rej.trans h.rej,
    h'.errCode.trans h.errCode, h'.errCmd.trans h.errCmd, h'.len.trans h.len, h'.buf.trans h.buf,
    h'.resetLine.trans h.resetLine, h'.bufDraw.trans h.bufDraw, h.draws.trans h'.draws⟩

theorem State.SameEngine.env (s : State) (script : List Event) (replies : List Reply) {draws : Nat}
    (h : s.draws ≤ draws) : s.SameEngine { s with script := script, replies := replies, draws := draws } :=
  ⟨rfl, rfl, rfl, rfl, rfl, rfl, rfl, rfl, rfl, rfl, rfl, rfl, rfl, rfl, h⟩

/-- A state of the same engine is that state with another environment. -/
theorem State.SameEngine.eq {s t : State} (h : s.SameEngine t) :
    t = { s with script := t.script, replies := t.replies, draws := t.draws } := by
  cases s; cases t; cases h; simp_all

/-- A 32-bit write is one kind of change. -/
theorem State.write32_change (s : State) (off : Offset) (v : Word) : s.Change (s.write32 off v) := by
  unfold State.write32
  split
  · exact .same
  · next hr =>
    have hr : s.resetLine = false := by simpa using hr
    split
    · next r _ =>
      cases r
      case ctrl => simp only [State.writeReg, State.writeCtrl]; split; exacts [.softReset hr, .enables hr _]
      case status => exact .acknowledged hr v
      case cmd =>
        simp only [State.writeReg, State.writeCmd]
        split
        · exact .rejected hr
        · next h =>
          rw [not_or] at h
          exact .accepted hr (by cases hp : s.phase; exacts [rfl, absurd hp h.1]) (by simpa using h.2) v
      case len =>
        simp only [State.writeReg, State.writeLen]
        split
        · exact .rejected hr
        · next h => exact .length hr (by cases hp : s.phase; exacts [rfl, absurd hp h]) v
      all_goals exact .same
    · exact .rejected hr

/-- An 8-bit write is one kind of change. -/
theorem State.write8_change (s : State) (off : Offset) (v : Byte) : s.Change (s.write8 off v) := by
  unfold State.write8
  split
  · exact .same
  · next hr =>
    have hr : s.resetLine = false := by simpa using hr
    split
    · next k hk =>
      split
      · exact .rejected hr
      · next h =>
        refine .byte hr (by cases hp : s.phase; exacts [rfl, absurd hp h]) k v ?_
        unfold windowIndex at hk
        split at hk
        · have := Option.some.inj hk
          omega
        · exact absurd hk (by simp)
    · exact .rejected hr

theorem State.write16_change (s : State) (off : Offset) (v : Half) : s.Change (s.write16 off v) := by
  unfold State.write16
  split
  · exact .same
  · next hr => exact .rejected (by simpa using hr)

/-- A draw leaves the engine alone. -/
theorem State.draw_same (s : State) : s.SameEngine s.draw.2 := State.SameEngine.env s s.script s.replies (by simp)

/-- A read changes nothing but the environment, or is rejected. -/
theorem State.read32_change (s : State) (off : Offset) : ∃ u, s.Change u ∧ u.SameEngine (s.read32 off).2 := by
  unfold State.read32
  split
  · exact ⟨s, .same, s.draw_same⟩
  · next hr =>
    split
    · exact ⟨s, .same, .refl s⟩
    · exact ⟨_, .rejected (by simpa using hr), s.reject.draw_same⟩

theorem State.read8_change (s : State) (off : Offset) : ∃ u, s.Change u ∧ u.SameEngine (s.read8 off).2 := by
  unfold State.read8
  split
  · exact ⟨s, .same, s.draw_same⟩
  · next hr =>
    split
    · split
      · exact ⟨_, .rejected (by simpa using hr), s.reject.draw_same⟩
      · exact ⟨s, .same, .refl s⟩
    · exact ⟨_, .rejected (by simpa using hr), s.reject.draw_same⟩

theorem State.read16_change (s : State) (off : Offset) : ∃ u, s.Change u ∧ u.SameEngine (s.read16 off).2 := by
  unfold State.read16
  split
  · exact ⟨s, .same, s.draw_same⟩
  · next hr => exact ⟨_, .rejected (by simpa using hr), s.reject.draw_same⟩

/-- A turn of the engine is one kind of change. -/
theorem engineTurn_change (s : State) : ∃ t, engineTurn s = .next t ∧ s.Change t := by
  unfold engineTurn complete
  split
  · next h =>
    split
    · next i hi => exact ⟨_, exec_eq i s, .completed h.1 h.2 i hi⟩
    · next e he => exact ⟨_, rfl, .illegal h.1 h.2 e he⟩
  · exact ⟨s, rfl, .same⟩

theorem State.reply_same {s t : State} (h : s.SameEngine t) (r : Reply) : s.SameEngine (t.reply r) :=
  h.trans (State.SameEngine.env t t.script _ (Nat.le_refl _))

theorem State.before_same {s t : State} (h : s.SameEngine t) (es : List Event) : s.SameEngine (t.before es) :=
  h.trans (State.SameEngine.env t _ t.replies (Nat.le_refl _))

theorem State.instead_same {s t : State} (h : s.SameEngine t) (es : List Event) : s.SameEngine (t.instead es) :=
  h.trans (State.SameEngine.env t _ t.replies (Nat.le_refl _))

/-- An operation of the host is one kind of change, and a change of the environment after it. -/
theorem hostTurn_change (op : HostOp) (s : State) :
    ∃ t u v, hostTurn op s = .next t ∧ s.SameEngine v ∧ v.Change u ∧ u.SameEngine t := by
  have plain {t : State} (h : s.Change t) : ∃ t' u v, Host.Outcome.next (φ := Fault) (ρ := Refusal) t = .next t' ∧
      s.SameEngine v ∧ v.Change u ∧ u.SameEngine t' := ⟨t, t, s, rfl, .refl s, h, .refl t⟩
  cases op with
  | wr off v => exact plain (s.write32_change off v)
  | wrb off v => exact plain (s.write8_change off v)
  | wrh off v => exact plain (s.write16_change off v)
  | rd off =>
    obtain ⟨u, hu, h⟩ := s.read32_change off
    exact ⟨_, u, s, rfl, .refl s, hu, State.reply_same h _⟩
  | rdb off =>
    obtain ⟨u, hu, h⟩ := s.read8_change off
    exact ⟨_, u, s, rfl, .refl s, hu, State.reply_same h _⟩
  | rdh off =>
    obtain ⟨u, hu, h⟩ := s.read16_change off
    exact ⟨_, u, s, rfl, .refl s, hu, State.reply_same h _⟩
  | assertReset => exact plain .hardReset
  | releaseReset => exact plain .released
  | wait =>
    obtain ⟨u, hu, h⟩ := s.read32_change CtrlReg.status.offset
    refine ⟨_, u, s, rfl, .refl s, hu, ?_⟩
    simp only [State.readThen]
    split
    exacts [State.before_same (State.reply_same h _) _, State.reply_same h _]
  | check =>
    obtain ⟨u, hu, h⟩ := s.read32_change CtrlReg.status.offset
    refine ⟨_, u, s, rfl, .refl s, hu, ?_⟩
    simp only [State.readThen]
    split
    exacts [State.instead_same (State.reply_same h _) _, State.reply_same h _]
  | getBytes =>
    obtain ⟨u, hu, h⟩ := s.read32_change CtrlReg.len.offset
    exact ⟨_, u, s, rfl, .refl s, hu, State.before_same (State.reply_same h _) _⟩
  | storeIfPresent r =>
    obtain ⟨u, hu, h⟩ := s.read32_change CtrlReg.rflags.offset
    refine ⟨_, u, s, rfl, .refl s, hu, ?_⟩
    simp only [State.readThen]
    split
    exacts [State.before_same (State.reply_same h _) _, State.reply_same h _]
  | waitIrq =>
    simp only [hostTurn]
    split
    · exact plain .same
    · obtain ⟨t, ht, hc⟩ := engineTurn_change (s.before [.host .waitIrq])
      exact ⟨t, t, _, ht, State.before_same (.refl s) _, hc, .refl t⟩

/-- A step never faults and is never refused; it changes the engine in one of the ways of `State.Change`, with changes
of the environment before and after. -/
theorem step_changes (s : State) :
    ∃ t u v, step s = .next t ∧ s.SameEngine v ∧ v.Change u ∧ u.SameEngine t := by
  unfold step turn
  split
  · obtain ⟨t, ht, hc⟩ := engineTurn_change s
    exact ⟨t, t, s, ht, .refl s, hc, .refl t⟩
  · next rest _ =>
    obtain ⟨t, ht, hc⟩ := engineTurn_change (s.instead rest)
    exact ⟨t, t, _, ht, State.instead_same (.refl s) _, hc, .refl t⟩
  · next op rest _ =>
    obtain ⟨t, u, v, ht, hv, hc, hu⟩ := hostTurn_change op (s.instead rest)
    exact ⟨t, u, v, ht, (State.instead_same (.refl s) _).trans hv, hc, hu⟩

theorem step_next (s : State) : ∃ t, step s = .next t := by
  obtain ⟨t, _, _, h, _⟩ := step_changes s
  exact ⟨t, h⟩

end Sys2Proof.Machine
end

