-- ==== Sys2Proof/Tests/Slice0.lean ====
section
/-! SUPPORT. Small tests on fixed values, with the expected results taken from the vectors of 95_test_vectors.md, and a
witness for the hypotheses of every statement of Certificates/Slice0/Obligations.lean, clause by clause. -/

namespace Sys2Proof.Tests

open Sys2Proof Sys2Proof.Machine

/-! ## Helpers -/

/-- `NBITS = 32`, `BUFBYTES = 8`: the parameters of the programs of 95_test_vectors.md section 7. -/
def p32 : Params := ⟨4, 8⟩

/-- `NBITS = 8`, `BUFBYTES = 2`: the smallest width, with a buffer longer than it. -/
def p8 : Params := ⟨1, 2⟩

/-- An idle engine with a byte string in the buffer and its length in `LEN`. -/
def holding (p : Params) (bytes : List Byte) : State :=
  { State.resetOf p with buf := Memory.writeAll [] 0 bytes, len := BitVec.ofNat 32 bytes.length }

/-- An idle engine with `A`, `B` and `X` set. -/
def withAbx (p : Params) (a b x : BigValue) : State :=
  { State.resetOf p with regs := { (State.resetOf p).regs with a := a, b := b, x := x } }

/-- An idle engine with the key `N`, `E`, `D` and the input `A`. -/
def withKey (n e d a : BigValue) : State :=
  { State.resetOf p32 with regs := { (State.resetOf p32).regs with n := n, e := e, d := d, a := a } }

/-- The key of the source's S7, with an input. -/
def textbook (a : Int) : State := withKey (.int 3233) (.int 65537) (.int 413) (.int a)

/-- The engine with a command in execution. -/
def busyWith (s : State) (w : Word) : State := s.accept w

/-- What is seen of the state after a command, if there is one. -/
def seen {α : Type} (o : Host.Outcome State Fault Refusal) (f : State → α) : Option α :=
  match o with
  | .next s => some (f s)
  | .fault _ => none
  | .refused _ => none

/-- `DONE`, `ERR` and `ERRCODE`. -/
def verdict (s : State) : Bool × Bool × Byte := (s.done, s.err, s.errCode)

/-- Success. -/
def ok : Bool × Bool × Byte := (true, false, 0#8)

/-- Failure with a code. -/
def code (c : Byte) : Bool × Bool × Byte := (false, true, c)

/-- `BUF[0..3]`, as far as written. -/
def first4 (s : State) : List (Option Byte) := (List.range 4).map (Memory.read? s.buf)

/-! ## Well-formedness (30_encoding.md R72): one ill-formed command for each check -/

theorem test_wf_legal : (RawCommand.mk .gcd 5 3 4 0).wellFormed = true := by decide
theorem test_wf_refuses_rd_8 : (RawCommand.mk .ldi 8 0 0 0).wellFormed = false := by decide
theorem test_wf_refuses_rs1_8 : (RawCommand.mk .sti 0 8 0 0).wellFormed = false := by decide
theorem test_wf_refuses_rs2_8 : (RawCommand.mk .modinv 0 0 8 0).wellFormed = false := by decide
theorem test_wf_refuses_unused_rd : (RawCommand.mk .egcd 1 3 4 0).wellFormed = false := by decide
theorem test_wf_refuses_unused_rs1 : (RawCommand.mk .ldi 0 1 0 0).wellFormed = false := by decide
theorem test_wf_refuses_unused_rs2 : (RawCommand.mk .pub 5 3 8 0).wellFormed = false := by decide
theorem test_wf_refuses_zero_field : (RawCommand.mk .ldi 0 0 0 1).wellFormed = false := by decide

/-! ## Decoding: a word for each constructor, field by field `opcode rd rs1 rs2 zero` from R71 and R73 -/

theorem test_decode_ldi : decode 0b00000001_0111_0000_0000_000000000000#32 = .ok (.ldi .g) := by decide
theorem test_decode_ldo : decode 0b00000010_0010_0000_0000_000000000000#32 = .ok (.ldo .d) := by decide
theorem test_decode_sti : decode 0b00000011_0000_0101_0000_000000000000#32 = .ok (.sti .x) := by decide
theorem test_decode_stm : decode 0b00000100_0000_0110_0000_000000000000#32 = .ok (.stm .y) := by decide
theorem test_decode_mov : decode 0b00000101_0010_0110_0000_000000000000#32 = .ok (.mov .d .y) := by decide
theorem test_decode_clr : decode 0b00000110_0010_0000_0000_000000000000#32 = .ok (.clr .d) := by decide
theorem test_decode_egcd : decode 0b00010000_0000_0011_0100_000000000000#32 = .ok (.egcd .a .b) := by decide
theorem test_decode_gcd : decode 0b00010001_0101_0011_0100_000000000000#32 = .ok (.gcd .x .a .b) := by decide
theorem test_decode_lcm : decode 0b00010010_0100_0011_0100_000000000000#32 = .ok (.lcm .b .a .b) := by decide
theorem test_decode_modinv : decode 0b00010011_0010_0001_0101_000000000000#32 = .ok (.modinv .d .e .x) := by decide
theorem test_decode_pub : decode 0b00100000_0000_0011_0000_000000000000#32 = .ok (.pub .n .a) := by decide
theorem test_decode_prv : decode 0b00100001_0110_0101_0000_000000000000#32 = .ok (.prv .y .x) := by decide

/-- E11 to E14: unassigned opcodes. -/
theorem test_decode_unassigned :
    decode 0x00000000#32 = .error .unknownOpcode ∧
    decode 0xFFFFFFFF#32 = .error .unknownOpcode ∧
    decode 0x07000000#32 = .error .unknownOpcode ∧
    decode 0x0F000000#32 = .error .unknownOpcode ∧
    decode 0x14000000#32 = .error .unknownOpcode ∧
    decode 0x22000000#32 = .error .unknownOpcode := by decide

/-- E15, E16, E20: a register field of 8. -/
theorem test_decode_reserved_register :
    decode 0x01800000#32 = .error .reservedRegister ∧
    decode 0x03080000#32 = .error .reservedRegister ∧
    decode 0x13008000#32 = .error .reservedRegister := by decide

/-- E17 to E19: an unused register field that is not 0. -/
theorem test_decode_unused_field :
    decode 0x01010000#32 = .error .unusedFieldSet ∧
    decode 0x10134000#32 = .error .unusedFieldSet ∧
    decode 0x20538000#32 = .error .unusedFieldSet := by decide

/-- E21, E22: the `zero` field. -/
theorem test_decode_zero_field :
    decode 0x01000001#32 = .error .zeroFieldSet ∧
    decode 0x11534800#32 = .error .zeroFieldSet := by decide

/-- The opcode table's numbering is that of the word. -/
theorem test_decode_table_word :
    decodeTableWord 32 0x13215000 = some (.modinv .d .e .x) ∧ decodeTableWord 32 0x13215001 = none := by decide

/-! ## One command each (95_test_vectors.md sections 3 to 5) -/

/-- CD5. -/
theorem test_ldi : seen (exec (.ldi .n) (holding p32 [0x0C#8, 0xA1#8])) (fun s => (verdict s, s.regs.n, s.ksize))
    = some (ok, .int 3233, 2#32) := by decide

/-- CD9 at the width 8: the value is one too large. -/
theorem test_ldi_overflow : seen (exec (.ldi .a) (holding p8 [0x01#8, 0x00#8])) (fun s => (verdict s, s.regs.a))
    = some (code 8#8, .absent) := by decide

/-- CD2. -/
theorem test_ldo_empty : seen (exec (.ldo .d) (withKey .absent .absent (.int 413) .absent))
    (fun s => (verdict s, s.regs.d)) = some (ok, .absent) := by decide

/-- CD12: the length check comes before all else. -/
theorem test_ldo_length : seen (exec (.ldo .a) { State.resetOf p32 with len := 0xFFFFFFFF#32 })
    (fun s => (verdict s, s.regs.a)) = some (code 9#8, .absent) := by decide

/-- CD23. -/
theorem test_sti : seen
    (exec (.sti .x) { holding p32 [0xAA#8, 0xBB#8, 0xCC#8, 0xDD#8] with regs := (withAbx p32 .absent .absent (.int 2790)).regs })
    (fun s => (verdict s, first4 s, s.len)) = some (ok, [some 0x0A#8, some 0xE6#8, some 0xCC#8, some 0xDD#8], 2#32) := by
  decide

/-- CD25: a negative value fails and nothing is stored. -/
theorem test_sti_negative : seen
    (exec (.sti .x) { holding p32 [0xAA#8, 0xBB#8, 0xCC#8, 0xDD#8] with regs := (withAbx p32 .absent .absent (.int (-367))).regs })
    (fun s => (verdict s, first4 s, s.len))
    = some (code 1#8, [some 0xAA#8, some 0xBB#8, some 0xCC#8, some 0xDD#8], 4#32) := by
  decide

/-- CD26. -/
theorem test_stm : seen
    (exec (.stm .x) { holding p32 [0xAA#8, 0xBB#8, 0xCC#8, 0xDD#8] with regs := (withAbx p32 .absent .absent (.int (-367))).regs })
    (fun s => (verdict s, first4 s, s.len)) = some (ok, [some 0x01#8, some 0x6F#8, some 0xCC#8, some 0xDD#8], 2#32) := by
  decide

/-- CD31: the sign is copied. -/
theorem test_mov : seen (exec (.mov .a .x) (withAbx p32 .absent .absent (.int (-367))))
    (fun s => (verdict s, s.regs.a, s.flagNibble .a)) = some (ok, .int (-367), 0b0011#4) := by decide

/-- CD34. -/
theorem test_clr : seen (exec (.clr .d) (textbook 0)) (fun s => (verdict s, s.regs.d, s.rflags))
    = some (ok, .absent, 0x00005011#32) := by decide

/-- M1, with the flag word of section 3. -/
theorem test_egcd : seen (exec (.egcd .a .b) (withAbx p32 (.int 65537) (.int 780) .absent))
    (fun s => (verdict s, s.regs.x, s.regs.y, s.regs.g, s.rflags))
    = some (ok, .int (-367), .int 30836, .int 1, 0x11311000#32) := by decide

/-- M2b: operands in the other order are not the swap of M2. -/
theorem test_egcd_order : seen (exec (.egcd .b .a) (withAbx p32 (.int 4) (.int 8) .absent))
    (fun s => (s.regs.x, s.regs.y, s.regs.g)) = some (.int 0, .int 1, .int 4) := by decide

/-- M10. -/
theorem test_gcd : seen (exec (.gcd .x .a .b) (withAbx p32 (.int 60) (.int 52) .absent))
    (fun s => (verdict s, s.regs.x, s.regs.y)) = some (ok, .int 4, .absent) := by decide

/-- M10 with a destination that is a source. -/
theorem test_lcm : seen (exec (.lcm .b .a .b) (withAbx p32 (.int 60) (.int 52) .absent))
    (fun s => (verdict s, s.regs.b)) = some (ok, .int 780) := by decide

/-- M15 and its neighbour at the width 8: 255 fits, 272 does not. -/
theorem test_lcm_width :
    seen (exec (.lcm .x .a .b) (withAbx p8 (.int 15) (.int 17) .absent)) (fun s => (verdict s, s.regs.x))
      = some (ok, .int 255) ∧
    seen (exec (.lcm .x .a .b) (withAbx p8 (.int 16) (.int 17) .absent)) (fun s => (verdict s, s.regs.x))
      = some (code 8#8, .absent) := by decide

/-- M20. -/
theorem test_modinv : seen (exec (.modinv .x .a .b) (withAbx p32 (.int 65537) (.int 780) .absent))
    (fun s => (verdict s, s.regs.x)) = some (ok, .int 413) := by decide

/-- M28. -/
theorem test_modinv_fails : seen (exec (.modinv .x .a .b) (withAbx p32 (.int 4) (.int 8) (.int 7)))
    (fun s => (verdict s, s.regs.x)) = some (code 4#8, .int 7) := by decide

/-- T1. -/
theorem test_pub : seen (exec (.pub .x .a) (textbook 65)) (fun s => (verdict s, s.regs.x))
    = some (ok, .int 2790) := by decide

/-- T6 and T7: the boundary at the modulus. -/
theorem test_pub_boundary :
    seen (exec (.pub .x .a) (textbook 3232)) (fun s => (verdict s, s.regs.x)) = some (ok, .int 3232) ∧
    seen (exec (.pub .x .a) (textbook 3233)) (fun s => (verdict s, s.regs.x)) = some (code 2#8, .absent) := by decide

/-- T3. -/
theorem test_prv : seen (exec (.prv .x .a) (textbook 65)) (fun s => (verdict s, s.regs.x))
    = some (ok, .int 588) := by decide

/-- T9 and T10: a missing private exponent is reported after too large an input. -/
theorem test_prv_order :
    seen (exec (.prv .x .a) (withKey (.int 3233) (.int 65537) .absent (.int 65))) verdict = some (code 3#8) ∧
    seen (exec (.prv .x .a) (withKey (.int 3233) (.int 65537) .absent (.int 3233))) verdict = some (code 2#8) := by decide

/-! ## Lifecycle (95_test_vectors.md section 6) -/

/-- Q2: `BUSY` after acceptance. -/
theorem test_accept : seen (step ((withAbx p32 (.int 4) (.int 8) .absent).before [.host (issue (.gcd .x .a .b))]))
    (fun s => (s.statusWord, s.cmdReg)) = some (0x00000001#32, 0x11534000#32) := by decide

/-- Q3: a second command while busy is rejected. -/
theorem test_busy_rejects : seen
    (step ((busyWith (State.resetOf p32) 0x11534000#32).before [.host (.wr 0x14#16 0x06200000#32)]))
    (fun s => (s.statusWord, s.cmdReg)) = some (0x00000009#32, 0x11534000#32) := by decide

/-- Q6: an illegal word fails at completion. -/
theorem test_illegal : seen (step (busyWith (State.resetOf p32) 0x00000000#32))
    (fun s => (s.statusWord, s.errCode, s.errCmd)) = some (0x00000004#32, 5#8, 0#32) := by decide

/-- Q18: the reserved bits of `CTRL` are ignored. -/
theorem test_ctrl_reserved : seen (step ((State.resetOf p32).before [.host (.wr 0x0C#16 0x7FFFFFF8#32)]))
    (fun s => s.ctrlWord) = some 0#32 := by decide

/-- Q10: an unmapped and a misaligned read, and a 16-bit one, are rejected. -/
theorem test_rejections :
    ∀ op ∈ [HostOp.rd 0x2C#16, .rd 0x12#16, .rdh 0x14#16, .rd 0x1000#16, .rdb 0x1008#16, .wrb 0x14#16 0#8],
      seen (step ((State.resetOf p32).before [.host op])) (fun s => s.rej) = some true := by decide

/-- From the state after reset, whatever the parameters, a placed word runs: `LDI N` of the empty string is 0 (CD1). -/
theorem test_fetch_ldi : seen (step (State.reset.withFetchWord 32 0x01000000)) (fun s => (verdict s, s.regs.n))
    = some (ok, .int 0) := by decide

/-- From the state after reset `EGCD N, N` finds its operands absent (program P5, step 7). -/
theorem test_fetch_egcd : seen (step (State.reset.withFetchWord 32 0x10000000)) (fun s => (verdict s, s.errCmd))
    = some (code 6#8, 0x10000000#32) := by decide

/-! ## Host sequences (43_host_sequences.md) -/

/-- R160: `LOADOPT` of the empty string is just `wr LEN, 0`, `LDO D`, `wait`. -/
theorem test_loadOpt_empty :
    loadOpt p8 .d [] = [.wr 0x20#16 0#32, .wr 0x14#16 0x02200000#32, .wait] := by decide

/-- R160: a string longer than the buffer is stripped of leading zero bytes, or is not put. -/
theorem test_put_long :
    putBytes p8 [0x00#8, 0x00#8, 0x07#8]
      = [.wrb 0x1000#16 0x00#8, .wrb 0x1001#16 0x07#8, .wr 0x20#16 2#32] ∧
    putBytes p8 [0x01#8, 0x00#8, 0x07#8] = [.wr 0x20#16 3#32] := by decide

/-- P2, step 11: the host reads `01 9D` and computes `dP = 53`, `dQ = 49`. -/
theorem test_crt_exponents :
    hostCrtExponents (stringRead [.byte 0x9D#8, .byte 0x01#8, .word 2#32, .byte 0x26#8]) 61 53 = (53, 49) := by decide

/-- R164: without its optional step 5 `GENERATE` stores nothing. -/
theorem test_generate_without_option :
    (generate p32 false 61 53).contains .getBytes = false ∧ (generate p32 true 61 53).contains .getBytes = true := by
  decide

/-! ## Witnesses: states and operands that meet the hypotheses of the obligations -/

/-- A check that implies the invariant, for a state out of reset. -/
def invCheck (s : State) : Bool :=
  s.params.legal && Memory.wf s.buf && Memory.below s.params.bufBytes s.buf
    && [Reg.n, .e, .d, .a, .b, .x, .y, .g].all (fun r =>
        match s.reg r with
        | .absent => true
        | .int z => decide (z.natAbs < 2 ^ s.params.nbits))
    && (!s.busy || (!s.done && !s.err)) && !(s.done && s.err) && decide (s.errCode ≤ 9#8)
    && (!s.err || (s.errCode != 0#8 && s.errCmd == s.cmdReg)) && !s.resetLine && decide (s.bufDraw < s.draws)

theorem inv_of_check {s : State} (h : invCheck s = true) : s.Inv := by
  simp only [invCheck, Bool.and_eq_true, List.all_cons, List.all_nil] at h
  obtain ⟨⟨⟨⟨⟨⟨⟨⟨⟨hp, hw⟩, hb⟩, hn, he, hd, ha, hB, hx, hy, hg, -⟩, h1⟩, h2⟩, h3⟩, h4⟩, h5⟩, h6⟩ := h
  refine ⟨hp, ?_, hw, hb, ?_, ?_, by simpa using h3, ?_, ?_, by simpa using h6⟩
  · intro r z hz
    cases r <;> simp_all
  · intro hbusy; simpa [State.busy, hbusy] using h1
  · intro hdone; simpa [hdone] using h2
  · intro herr; simpa [herr] using h4
  · intro hr; simp [hr] at h5

/-- A failed engine: `MODINV` of the source's example has reported code 4. -/
def failedEngine : State :=
  { withAbx p32 (.int 4) (.int 8) .absent with err := true, errCode := 4#8, errCmd := 0x13534000#32, cmdReg := 0x13534000#32 }

/-- A busy engine: `GCD X, A, B` in execution. -/
def busyEngine : State := busyWith (withAbx p32 (.int 4) (.int 8) .absent) 0x11534000#32

/-- An engine held in reset. -/
def heldEngine : State := { State.resetOf p32 with resetLine := true }

theorem busyEngine_inv : busyEngine.Inv := inv_of_check (by decide)
theorem failedEngine_inv : failedEngine.Inv := inv_of_check (by decide)
theorem textbook_inv : (textbook 65).Inv := inv_of_check (by decide)

theorem heldEngine_inv : heldEngine.Inv :=
  ⟨by decide, fun r z h => (by cases r <;> cases h), by decide, by decide, fun h => (by cases h), fun h => (by cases h),
    by decide +kernel, fun h => (by cases h), fun _ => rfl, by decide⟩

/-! Encoding. -/

theorem witness_DecodeFollowsTableAndEncodeInvertsIt :
    (⟨.ldi, 0x01000000#32, 0xFF8FFFFF#32⟩ ∈ decodeTable ∧ 0x01700000#32 &&& 0xFF8FFFFF#32 = 0x01000000#32) ∧
    (⟨.prv, 0x21000000#32, 0xFF88FFFF#32⟩ ∈ decodeTable ∧ 0x21770000#32 &&& 0xFF88FFFF#32 = 0x21000000#32) ∧
    (∀ r ∈ decodeTable, 0xFFFFFFFF#32 &&& r.mask ≠ r.pattern) ∧ decode 0x21770000#32 = .ok (.prv .g .g) := by decide

theorem witness_IllegalWordIsAcceptedAndFailsWithFive :
    ((∃ e, decode 0x00000000#32 = .error e) ∧ (State.resetOf p32).phase = .idle ∧ (State.resetOf p32).err = false ∧
      (State.resetOf p32).resetLine = false) ∧
    Mnemonic.ofOpcode? ((0x22000000#32 : Word).extractLsb' 24 8) = none ∧
    (∃ c, RawCommand.ofWord? 0x01800000#32 = some c ∧ c.wellFormed = false) :=
  ⟨⟨⟨.unknownOpcode, by decide⟩, by decide⟩, by decide, ⟨⟨.ldi, 8, 0, 0, 0⟩, by decide⟩⟩

/-! Loads and stores. -/

theorem witness_LdiLoadsBigEndianInteger :
    p32.bufBytes < ({ State.resetOf p32 with len := 9#32 } : State).len.toNat ∧
    ((holding p8 [0x01#8, 0x00#8]).len.toNat ≤ p8.bufBytes ∧ 2 ^ p8.nbits ≤ beInt ((holding p8 [0x01#8, 0x00#8]).memRead 2)) ∧
    ((holding p8 [0x00#8, 0xFF#8]).len.toNat ≤ p8.bufBytes ∧ beInt ((holding p8 [0x00#8, 0xFF#8]).memRead 2) < 2 ^ p8.nbits) ∧
    (State.resetOf p8).len = 0#32 := by decide

theorem witness_LdoLoadsOptionalInteger :
    p32.bufBytes < ({ State.resetOf p32 with len := 9#32 } : State).len.toNat ∧ (State.resetOf p8).len = 0#32 ∧
    ((holding p8 [0x01#8, 0x00#8]).len ≠ 0#32 ∧ (holding p8 [0x01#8, 0x00#8]).len.toNat ≤ p8.bufBytes ∧
      2 ^ p8.nbits ≤ beInt ((holding p8 [0x01#8, 0x00#8]).memRead 2)) ∧
    ((holding p8 [0x00#8, 0xFF#8]).len ≠ 0#32 ∧ (holding p8 [0x00#8, 0xFF#8]).len.toNat ≤ p8.bufBytes ∧
      beInt ((holding p8 [0x00#8, 0xFF#8]).memRead 2) < 2 ^ p8.nbits) ∧
    ((holding p8 [0x00#8]).len = 1#32 ∧ 1 ≤ p8.bufBytes ∧ (holding p8 [0x00#8]).bufByte 0 = 0x00#8) := by decide

theorem witness_StiStoresMinimalString :
    (State.resetOf p32).reg .x = .absent ∧ ((withAbx p32 .absent .absent (.int (-1))).reg .x = .int (-1) ∧ (-1 : Int) < 0) ∧
    ((withAbx p32 .absent .absent (.int 0)).Inv ∧ (withAbx p32 .absent .absent (.int 0)).reg .x = .int (0 : Nat)) ∧
    (withAbx p32 .absent .absent (.int 4294967295)).Inv ∧
      (withAbx p32 .absent .absent (.int 4294967295)).reg .x = .int (4294967295 : Nat) :=
  ⟨by decide, by decide, ⟨inv_of_check (by decide), by decide⟩, inv_of_check (by decide), by decide⟩

theorem witness_StmStoresMagnitude :
    (State.resetOf p32).reg .x = .absent ∧
    ((withAbx p32 .absent .absent (.int (-4294967295))).Inv ∧
      (withAbx p32 .absent .absent (.int (-4294967295))).reg .x = .int (-4294967295)) ∧
    (withAbx p32 .absent .absent (.int 0)).reg .x = .int (0 : Nat) :=
  ⟨by decide, ⟨inv_of_check (by decide), by decide⟩, by decide⟩

theorem witness_MovCopiesAnyValue : ∃ rd rs1 : Reg, rd = rs1 := ⟨.g, .g, rfl⟩

theorem witness_ClrMakesRegisterAbsent :
    (State.resetOf p32).reg .d = .absent ∧
    (Reg.a ≠ .d ∧ (textbook 3232).reg .a = .int (3232 : Nat) ∧ (textbook 3232).reg .n = .int (3233 : Nat) ∧ 3232 < 3233) := by
  decide

theorem witness_ByteStringsAreBigEndian : 65535 < 256 ^ 2 ∧ 0 < 256 ^ 0 := by decide

theorem witness_CodecRoundTrips :
    ((textbook 65).Inv ∧ (textbook 65).reg .a = .int (65 : Nat)) ∧
    ((holding p8 [0x00#8, 0xFF#8]).Inv ∧ (holding p8 [0x00#8, 0xFF#8]).len.toNat ≤ p8.bufBytes ∧
      beInt ((holding p8 [0x00#8, 0xFF#8]).memRead 2) < 2 ^ p8.nbits) ∧
    ((State.resetOf p8).Inv ∧ (State.resetOf p8).len.toNat ≤ p8.bufBytes ∧
      beInt ((State.resetOf p8).memRead 0) < 2 ^ p8.nbits) :=
  ⟨⟨textbook_inv, by decide⟩, ⟨inv_of_check (by decide), by decide, by decide⟩,
    inv_of_check (by decide), by decide, by decide⟩

theorem witness_MinimalStringIsPaddedHexDigits : 0 < (intToBytes 0).length ∧ 1 < (intToBytes 256).length := by decide

theorem witness_LeftPaddingKeepsTheValue : 1 < 2 ∧ 255 < 256 ^ (2 - 1) := by decide

/-! Modular arithmetic. -/

/-- The operand errors of the Euclid family: either operand absent, either one not positive. -/
theorem witness_EuclidOperandsAreCheckedInOrder :
    (withAbx p32 .absent (.int 8) .absent).reg .a = .absent ∧ (withAbx p32 (.int 4) .absent .absent).reg .b = .absent ∧
    ((withAbx p32 (.int 0) (.int 8) .absent).reg .a = .int 0 ∧ (withAbx p32 (.int 0) (.int 8) .absent).reg .b = .int 8 ∧
      (0 : Int) ≤ 0) ∧
    ((withAbx p32 (.int 4) (.int (-1)) .absent).reg .a = .int 4 ∧
      (withAbx p32 (.int 4) (.int (-1)) .absent).reg .b = .int (-1) ∧ (-1 : Int) ≤ 0) := by decide

/-- Two positive operands and a failure of another kind. -/
theorem witness_EuclidOperandsAreCheckedInOrder_positive :
    (withAbx p32 (.int 4) (.int 8) .absent).reg .a = .int 4 ∧ (withAbx p32 (.int 4) (.int 8) .absent).reg .b = .int 8 ∧
    (0 : Int) < 4 ∧ (0 : Int) < 8 ∧ (withAbx p32 (.int 4) (.int 8) .absent).err = false ∧
    ∃ t, exec (.modinv .x .a .b) (withAbx p32 (.int 4) (.int 8) .absent) = .next t ∧ t.err = true :=
  ⟨by decide, by decide, by decide, by decide, by decide, _, exec_eq _ _, by decide⟩

theorem witness_EgcdWritesBezoutTriple :
    (0 < 1 ∧ 0 < 1 ∧ (withAbx p32 (.int 1) (.int 1) .absent).reg .a = .int (1 : Nat) ∧
      (withAbx p32 (.int 1) (.int 1) .absent).reg .b = .int (1 : Nat)) ∧
    (1 = 1 ∧ 1 < 2) ∧ 4 ∣ 8 ∧ (4 ∣ 8 ∧ 4 < 8) ∧
    (Nat.gcd 3 7 = 1 ∧ (xeuclid 3 7).1 ≠ 0 ∧ (xeuclid 3 7).2.1 ≠ 0) := by decide

theorem witness_GcdWritesGreatestCommonDivisor :
    0 < 60 ∧ 0 < 52 ∧ (withAbx p32 (.int 60) (.int 52) .absent).reg .a = .int (60 : Nat) ∧
      (withAbx p32 (.int 60) (.int 52) .absent).reg .b = .int (52 : Nat) := by decide

theorem witness_LcmWritesLeastCommonMultiple :
    (0 < 16 ∧ 0 < 17 ∧ (withAbx p8 (.int 16) (.int 17) .absent).reg .a = .int (16 : Nat) ∧
      (withAbx p8 (.int 16) (.int 17) .absent).reg .b = .int (17 : Nat) ∧ 2 ^ p8.nbits ≤ Nat.lcm 16 17) ∧
    (0 < 15 ∧ 0 < 17 ∧ (withAbx p8 (.int 15) (.int 17) .absent).reg .a = .int (15 : Nat) ∧
      (withAbx p8 (.int 15) (.int 17) .absent).reg .b = .int (17 : Nat) ∧ Nat.lcm 15 17 < 2 ^ p8.nbits) := by decide

theorem witness_ModinvWritesTheInverse :
    ((withAbx p32 (.int 4) (.int 8) .absent).reg .a = .int (4 : Nat) ∧
      (withAbx p32 (.int 4) (.int 8) .absent).reg .b = .int (8 : Nat) ∧ Nat.gcd 4 8 ≠ 1) ∧
    ((withAbx p32 (.int 7) (.int 1) .absent).reg .a = .int (7 : Nat) ∧
      (withAbx p32 (.int 7) (.int 1) .absent).reg .b = .int (1 : Nat) ∧ Nat.gcd 7 1 = 1) ∧
    ((withAbx p32 (.int 1) (.int 2) .absent).reg .a = .int (1 : Nat) ∧
      (withAbx p32 (.int 1) (.int 2) .absent).reg .b = .int (2 : Nat) ∧ Nat.gcd 1 2 = 1 ∧ 1 < 2) := by decide

theorem witness_EuclidLoopEnds : 7 ≤ 7 := by decide

/-! Transforms. -/

theorem witness_PubComputesThePublicTransform :
    (withKey (.int 3233) (.int 65537) .absent .absent).reg .a = .absent ∧
    (withKey .absent (.int 65537) .absent (.int 65)).reg .n = .absent ∧
    (withKey (.int 3233) .absent .absent (.int 65)).reg .e = .absent ∧
    ((textbook (-367)).reg .a = .int (-367) ∧ (textbook (-367)).reg .n = .int 3233 ∧
      (textbook (-367)).reg .e = .int 65537 ∧ (-367 : Int) < 0) ∧
    ((textbook 3233).reg .a = .int (3233 : Nat) ∧ (textbook 3233).reg .n = .int (3233 : Nat) ∧
      (textbook 3233).reg .e = .int (65537 : Nat) ∧ 3233 ≤ 3233) ∧
    ((withKey (.int 1) (.int 3) .absent (.int 0)).reg .a = .int (0 : Nat) ∧
      (withKey (.int 1) (.int 3) .absent (.int 0)).reg .n = .int (1 : Nat) ∧
      (withKey (.int 1) (.int 3) .absent (.int 0)).reg .e = .int (3 : Nat) ∧ 0 < 1) := by decide

theorem witness_PrvComputesThePrivateTransform :
    (withKey (.int 3233) .absent .absent .absent).reg .a = .absent ∧
    (withKey .absent .absent .absent (.int 65)).reg .n = .absent ∧
    ((withKey (.int 3233) .absent (.int (-367)) (.int 65)).reg .a = .int 65 ∧
      (withKey (.int 3233) .absent (.int (-367)) (.int 65)).reg .n = .int 3233 ∧
      (withKey (.int 3233) .absent (.int (-367)) (.int 65)).reg .d = .int (-367) ∧ (-367 : Int) < 0) ∧
    ((withKey (.int 3233) .absent .absent (.int 3232)).reg .a = .int (3232 : Nat) ∧
      (withKey (.int 3233) .absent .absent (.int 3232)).reg .n = .int (3233 : Nat) ∧
      (withKey (.int 3233) .absent .absent (.int 3232)).reg .d = .absent ∧ 3232 < 3233) ∧
    ((textbook 3233).reg .a = .int (3233 : Nat) ∧ (textbook 3233).reg .n = .int (3233 : Nat) ∧ 3233 ≤ 3233 ∧
      (textbook 3233).reg .d = .int (413 : Nat)) := by decide

/-- The condition on `D` in the same statement: it is met by an absent `D` and by one that is not negative. -/
theorem witness_PrvComputesThePrivateTransform_d :
    (∀ d : Int, (withKey (.int 3233) .absent .absent (.int 3232)).reg .d = .int d → 0 ≤ d) ∧
    (∀ d : Int, (textbook 3232).reg .d = .int d → 0 ≤ d) :=
  ⟨fun d h => (by cases h), fun d h => (by cases h; decide)⟩

theorem witness_ModexpCornerValues : 1 < 2 ∧ 1 ≤ 1 ∧ 2 < 3 ∧ 0 < 1 ∧ 2 % 2 = 0 := by decide

theorem witness_TransformsIgnoreTheOtherExponent :
    (Reg.a ≠ .d ∧ Reg.x ≠ .d ∧ ∃ t, exec (.pub .x .a) (textbook 65) = .next t) ∧
    (Reg.a ≠ .e ∧ Reg.x ≠ .e ∧ ∃ t, exec (.prv .x .a) (textbook 65) = .next t) :=
  ⟨⟨by decide, by decide, _, exec_eq _ _⟩, by decide, by decide, _, exec_eq _ _⟩

theorem witness_TransformsRoundTripUnderAValidKey :
    (textbook 3232).ValidKey 61 53 65537 413 ∧ (textbook 3232).reg .a = .int (3232 : Nat) ∧ 3232 < 61 * 53 :=
  ⟨⟨by norm_num, by norm_num, by decide, by decide, by decide, by decide, by decide⟩, by decide, by decide⟩

theorem witness_MontgomeryFormComputesModexp :
    (1 % 2 = 1 ∧ 1 < 2 ^ 1 ∧ 0 < 1) ∧ (255 % 2 = 1 ∧ 255 < 2 ^ 8 ∧ 254 < 255) := by decide

/-! Errors. -/

theorem witness_CommandsRaiseTheListedErrors :
    (∃ (i : Instr) (s : State), i.raw.mnemonic = .modinv ∧ s.Inv ∧ exec i s = .next (s.fail .noInverse)) ∧
    ErrorKind.noInverse ∈ raises .modinv ∧
    ((busyWith (State.resetOf p32) 0#32).phase = .busy ∧ (busyWith (State.resetOf p32) 0#32).resetLine = false ∧
      ∃ e, decode (busyWith (State.resetOf p32) 0#32).cmdReg = .error e) :=
  ⟨⟨.modinv .x .a .b, withAbx p32 (.int 4) (.int 8) .absent, rfl, inv_of_check (by decide), rfl⟩, by decide, by decide,
    by decide, .unknownOpcode, by decide⟩

theorem witness_FailureChangesNothingElse :
    ((withAbx p32 (.int 4) (.int 8) .absent).err = false ∧
      ∃ t, exec (.modinv .x .a .b) (withAbx p32 (.int 4) (.int 8) .absent) = .next t ∧ t.err = true) ∧
    ((busyWith (State.resetOf p32) 0#32).phase = .busy ∧ (busyWith (State.resetOf p32) 0#32).resetLine = false ∧
      ∃ e, decode (busyWith (State.resetOf p32) 0#32).cmdReg = .error e) :=
  ⟨⟨by decide, _, exec_eq _ _, by decide⟩, by decide, by decide, .unknownOpcode, by decide⟩

theorem witness_AcknowledgeIsTheReturnFromFailure :
    failedEngine.resetLine = false ∧ failedEngine.err = true ∧ (0x00000004#32 : Word).getLsbD 2 = true ∧
      failedEngine.phase = .idle ∧ (0x80000004#32 : Word).getLsbD 31 = true ∧
      (∃ t, failedEngine.Does .assertReset t) ∧ ∃ t, failedEngine.Does (.wr 0x0C#16 0x80000004#32) t :=
  ⟨by decide, by decide, by decide, by decide, by decide, step_next _, step_next _⟩

theorem witness_ErrorCheckFailsTheSequence :
    (failedEngine.resetLine = false ∧ failedEngine.err = true) ∧
    ((State.resetOf p32).resetLine = false ∧ (State.resetOf p32).err = false) := by decide

/-! Control block and buffer window. -/

/-- `resetLine = false`, the one hypothesis of `IdReadsItsConstant`, `StatusBitsAreWriteOneToClear` and of the first parts
of `RflagsDescribeTheBigRegisters` and `ReadsHaveNoSideEffect`, idle and busy. -/
theorem witness_IdReadsItsConstant : (State.resetOf p32).resetLine = false ∧ busyEngine.resetLine = false := by decide

theorem witness_StatusBitsAreWriteOneToClear : failedEngine.resetLine = false ∧ busyEngine.resetLine = false := by decide

theorem witness_ParameterRegistersAreConstant :
    ((State.resetOf ⟨1, 1⟩).params.legal = true ∧ (State.resetOf ⟨1, 1⟩).resetLine = false) ∧
    ((State.resetOf ⟨61440, 61440⟩).params.legal = true ∧ (State.resetOf ⟨61440, 61440⟩).resetLine = false) ∧
    ∃ t, step busyEngine = .next t :=
  ⟨by decide, by decide, step_next _⟩

theorem witness_CtrlHoldsEnablesAndSoftReset :
    busyEngine.resetLine = false ∧ (0x7FFFFFFF#32 : Word).getLsbD 31 = false ∧ (0x80000000#32 : Word).getLsbD 31 = true := by
  decide

/-- A busy engine stays busy over a read of `STATUS`. -/
theorem witness_AcceptanceLatchesAndOperandsHold :
    (State.resetOf p32).resetLine = false ∧
    ((busyEngine.before [.host (.rd 0x10#16)]).phase = .busy ∧
      ∃ t, step (busyEngine.before [.host (.rd 0x10#16)]) = .next t ∧ t.phase = .busy) :=
  ⟨by decide, by decide, _, rfl, by decide⟩

theorem witness_CommandErrorAndLengthRegisters :
    (failedEngine.resetLine = false ∧ failedEngine.phase = .idle) ∧
    (busyEngine.resetLine = false ∧ busyEngine.phase = .busy) := by decide

theorem witness_OnlyFailureOrResetWritesTheErrorRegisters :
    (∃ t, step (busyWith (State.resetOf p32) 0#32) = .next t ∧ t.errCode ≠ (busyWith (State.resetOf p32) 0#32).errCode) ∧
    (∃ t, step (failedEngine.before [.host .assertReset]) = .next t ∧ t.errCmd ≠ failedEngine.errCmd) :=
  ⟨⟨_, rfl, by decide⟩, _, rfl, by decide⟩

theorem witness_RflagsDescribeTheBigRegisters :
    (textbook 0).resetLine = false ∧ (textbook 65).regs = (busyWith (textbook 65) 0#32).regs := by decide

theorem witness_KsizeIsMinimalModulusLength :
    ((textbook 65).Inv ∧ (textbook 65).resetLine = false ∧ (textbook 65).reg .n = .int 3233) ∧
    ((State.resetOf p32).Inv ∧ (State.resetOf p32).resetLine = false ∧ (State.resetOf p32).reg .n = .absent) ∧
    ((withKey (.int 0) .absent .absent .absent).Inv ∧ (withKey (.int 0) .absent .absent .absent).resetLine = false ∧
      (withKey (.int 0) .absent .absent .absent).reg .n = .int 0) ∧ (0 < 2 ∧ Int.natAbs 3233 < 256 ^ 2) :=
  ⟨⟨textbook_inv, by decide⟩, ⟨inv_of_check (by decide), by decide⟩, ⟨inv_of_check (by decide), by decide⟩, by decide⟩

theorem witness_ReadsHaveNoSideEffect :
    (State.resetOf p32).resetLine = false ∧ 0x28#16 ∈ [0x00#16, 0x28#16] ∧
    (7 < (State.resetOf p32).params.bufBytes ∧ (State.resetOf p32).params.bufBytes ≤ 61440 ∧
      (State.resetOf p32).phase = .idle) ∧ (0x7FFFFFFF#32 : Word).getLsbD 31 = false := by decide

theorem witness_AccessesAreRejectedInExactlyTheListedCases :
    (plainAccess (.rdb 0x1007#16) = true ∧ (State.resetOf p32).resetLine = false ∧
      (State.resetOf p32).rejects (.rdb 0x1007#16) = false ∧ isRead (.rdb 0x1007#16) = true) ∧
    (plainAccess (.rdb 0x1008#16) = true ∧ (State.resetOf p32).rejects (.rdb 0x1008#16) = true) ∧
    (plainAccess (.wr 0x14#16 0#32) = true ∧ busyEngine.rejects (.wr 0x14#16 0#32) = true ∧
      failedEngine.rejects (.wr 0x14#16 0#32) = true ∧ isRead (.wr 0x14#16 0#32) = false) := by decide

theorem witness_OutcomeIsIndependentOfHostAccesses :
    busyEngine.Inv ∧ busyEngine.phase = .busy ∧ busyEngine.resetLine = false ∧
    (∀ op ∈ [HostOp.wr 0x14#16 0x06200000#32, .wr 0x20#16 3#32, .wrb 0x1000#16 0xFF#8, .wr 0x10#16 0xF#32],
      plainAccess op = true) ∧ ∃ u, busyEngine.Completes u :=
  ⟨busyEngine_inv, by decide, by decide, by decide, step_next _⟩

theorem witness_PlainStoresAreIdempotent :
    (State.resetOf p32).resetLine = false ∧ (0x7FFFFFFF#32 : Word).getLsbD 31 = false ∧
      (State.resetOf p32).phase = .idle ∧ (State.resetOf p32).err = false := by decide

/-! Reset. -/

theorem witness_ResetLeavesTheListedValues :
    (∃ t, busyEngine.Does .assertReset t) ∧
    (failedEngine.resetLine = false ∧ (0x80000000#32 : Word).getLsbD 31 = true ∧
      ∃ t, failedEngine.Does (.wr 0x0C#16 0x80000000#32) t) :=
  ⟨step_next _, by decide, by decide, step_next _⟩

theorem witness_AccessesInResetHaveNoEffect : heldEngine.Inv ∧ heldEngine.resetLine = true ∧
    plainAccess (.wr 0x14#16 0x01000000#32) = true ∧ isRead (.rdb 0x1000#16) = true ∧
    (busyEngine.phase = .busy ∧ ∃ t, step busyEngine = .next t ∧ t.phase = .idle) :=
  ⟨heldEngine_inv, by decide, by decide, by decide, by decide, _, rfl, by decide⟩

theorem witness_SoftResetEqualsHardReset :
    failedEngine.resetLine = false ∧ (0x80000007#32 : Word).getLsbD 31 = true ∧
      ∃ t u, failedEngine.Does .assertReset t ∧ t.Does .releaseReset u := by
  refine ⟨by decide, by decide, ?_⟩
  obtain ⟨t, ht⟩ := step_next (failedEngine.before [.host .assertReset])
  obtain ⟨u, hu⟩ := step_next (t.before [.host .releaseReset])
  exact ⟨t, u, ht, hu⟩

theorem witness_ResetAbandonsTheCommand :
    busyEngine.phase = .busy ∧ (∃ t, busyEngine.Does .assertReset t) ∧
    (busyEngine.resetLine = false ∧ (0x80000007#32 : Word).getLsbD 31 = true ∧
      ∃ t, busyEngine.Does (.wr 0x0C#16 0x80000007#32) t) :=
  ⟨by decide, step_next _, by decide, by decide, step_next _⟩

/-! The machine. -/

theorem witness_CompletionRunsTheDecodedCommand :
    (busyEngine.phase = .busy ∧ busyEngine.resetLine = false ∧ decode busyEngine.cmdReg = .ok (.gcd .x .a .b)) ∧
    decode (busyWith (State.resetOf p32) 0#32).cmdReg = .error .unknownOpcode ∧
    (State.resetOf p32).phase = .idle ∧ heldEngine.resetLine = true := by decide

theorem witness_FrameOfRegisterCommands :
    (∃ t, exec (.ldi .n) (holding p32 [0x0C#8, 0xA1#8]) = .next t) ∧ (∃ t, exec (.prv .x .a) (textbook 65) = .next t) ∧
      Reg.n ≠ .x := ⟨⟨_, exec_eq _ _⟩, ⟨_, exec_eq _ _⟩, by decide⟩

theorem witness_FrameOfEgcd :
    (∃ t, exec (.egcd .a .b) (withAbx p32 (.int 65537) (.int 780) .absent) = .next t) ∧
      Reg.a ≠ .x ∧ Reg.a ≠ .y ∧ Reg.a ≠ .g := ⟨⟨_, exec_eq _ _⟩, by decide⟩

theorem witness_FrameOfStores :
    (∃ t, exec (.sti .x) (withAbx p32 .absent .absent (.int 2790)) = .next t) ∧
    ((withAbx p32 .absent .absent (.int 2790)).reg .x = .int 2790 ∧ (intToBytes 2790).length ≤ 2) ∧
    (State.resetOf p32).reg .x = .absent ∧
    ((State.resetOf p32).err = false ∧ ∃ t, exec (.stm .x) (State.resetOf p32) = .next t ∧ t.err = true) :=
  ⟨⟨_, exec_eq _ _⟩, by decide, by decide, by decide, _, exec_eq _ _, by decide⟩

theorem witness_InvariantHoldsAtReset : Params.legal ⟨1, 1⟩ = true ∧ Params.legal ⟨61440, 61440⟩ = true := by decide

theorem witness_EveryStepKeepsTheInvariant : busyEngine.Inv ∧ ∃ t, step busyEngine = .next t :=
  ⟨busyEngine_inv, step_next _⟩

theorem witness_EveryAcceptedCommandEnds : busyEngine.phase = .busy ∧ busyEngine.resetLine = false := by decide

/-! Host sequences. -/

theorem witness_LoadSequencePutsTheValueInTheRegister :
    (State.resetOf p8).Inv ∧ (State.resetOf p8).phase = .idle ∧ (State.resetOf p8).err = false ∧
      (State.resetOf p8).resetLine = false ∧ [0x00#8, 0xFF#8].length ≤ (State.resetOf p8).params.bufBytes ∧
      beInt [0x00#8, 0xFF#8] < 2 ^ (State.resetOf p8).params.nbits :=
  ⟨inv_of_check (by decide), by decide, by decide, by decide, by decide, by decide⟩

theorem witness_StoreSequenceHandsBackTheString :
    (textbook 65).Inv ∧ (textbook 65).phase = .idle ∧ (textbook 65).err = false ∧ (textbook 65).resetLine = false ∧
      (textbook 65).reg .a = .int (65 : Nat) :=
  ⟨textbook_inv, by decide, by decide, by decide, by decide⟩

theorem witness_TransformSequencesComputeTheTransforms :
    (textbook 65).Inv ∧ (textbook 65).phase = .idle ∧ (textbook 65).err = false ∧ (textbook 65).resetLine = false ∧
      (textbook 65).reg .n = .int (3233 : Nat) ∧ [0x0C#8, 0xA0#8].length ≤ (textbook 65).params.bufBytes ∧
      beInt [0x0C#8, 0xA0#8] < 3233 ∧ (textbook 65).reg .e = .int (65537 : Nat) ∧
      (textbook 65).reg .d = .int (413 : Nat) :=
  ⟨textbook_inv, by decide, by decide, by decide, by decide, by decide, by decide, by decide, by decide⟩

end Sys2Proof.Tests
end

section
/-! SUPPORT. A host access of a control register as one step (10_state.md R42, 20_memory.md R52, R58): out of reset a read
returns the register and changes nothing else, and a write is that register's own. -/

namespace Sys2Proof.Machine

open Sys2Proof

@[simp] theorem ctrlRegAt_offset (r : CtrlReg) : ctrlRegAt r.offset = some r := by cases r <;> rfl

/-- With an operation of the host next, the step is that operation on the state whose script is what follows it. -/
theorem State.does_iff (s : State) (op : HostOp) (t : State) : s.Does op t ↔ hostTurn op s = .next t := Iff.rfl

theorem State.read32_offset {s : State} (out : s.resetLine = false) (r : CtrlReg) :
    s.read32 r.offset = (s.readReg r, s) := by
  simp [State.read32, out]

theorem State.write32_offset {s : State} (out : s.resetLine = false) (r : CtrlReg) (v : Word) :
    s.write32 r.offset v = s.writeReg r v := by
  simp [State.write32, out]

/-- A read of a control register hands its value to the host and has no other effect (R58). -/
theorem State.does_read {s : State} (out : s.resetLine = false) (r : CtrlReg) :
    s.Does (.rd r.offset) (s.reply (.word (s.readReg r))) := by
  rw [State.does_iff, hostTurn, State.read32_offset out]

/-- What a write to a control register leads to (R58). -/
theorem State.does_write_iff {s t : State} (out : s.resetLine = false) (r : CtrlReg) (v : Word) :
    s.Does (.wr r.offset v) t ↔ t = s.writeReg r v := by
  rw [State.does_iff, hostTurn, State.write32_offset out, Host.Outcome.next.injEq, eq_comm]

theorem State.does_write {s : State} (out : s.resetLine = false) (r : CtrlReg) (v : Word) :
    s.Does (.wr r.offset v) (s.writeReg r v) :=
  (State.does_write_iff out r v).2 rfl

/-- A write to `CTRL` with bit 31 clear stores the enables (R29). -/
theorem State.writeReg_ctrl_enables (s : State) {v : Word} (h : v.getLsbD 31 = false) :
    s.writeReg .ctrl v = { s with ctrl := ctrlOfWord v } := by
  rw [State.writeReg, State.writeCtrl, h]
  rfl

/-- A write to `CTRL` with bit 31 set is the soft reset (R29, R192). -/
theorem State.writeReg_ctrl_softReset (s : State) {v : Word} (h : v.getLsbD 31 = true) :
    s.writeReg .ctrl v = s.takeReset := by
  rw [State.writeReg, State.writeCtrl, if_pos h]

end Sys2Proof.Machine
end

section
/-! SUPPORT. What a step can change, from `step_changes`: never the parameters (10_state.md R28), and none of the operands
while the command they belong to is in execution (R38). -/

namespace Sys2Proof.Machine

open Sys2Proof

/-- `step_changes` read from the step: the change it made, between two changes of the environment. -/
theorem State.change_of_step {s t : State} (h : step s = .next t) :
    ∃ u v, s.SameEngine v ∧ v.Change u ∧ u.SameEngine t := by
  obtain ⟨t', u, v, h', hv, hc, hu⟩ := step_changes s
  cases h.symm.trans h'
  exact ⟨u, v, hv, hc, hu⟩

theorem State.Change.params {s t : State} (h : s.Change t) : t.params = s.params := by cases h <;> simp

theorem step_params {s t : State} (h : step s = .next t) : t.params = s.params := by
  obtain ⟨u, v, hv, hc, hu⟩ := State.change_of_step h
  rw [hu.params, hc.params, hv.params]

/-- `t` holds what a command in execution works on as `s` holds it (R38). -/
structure State.SameOperands (s t : State) : Prop where
  regs : t.regs = s.regs
  buf : t.buf = s.buf
  bufDraw : t.bufDraw = s.bufDraw
  len : t.len = s.len
  cmdReg : t.cmdReg = s.cmdReg

theorem State.SameEngine.sameOperands {s t : State} (h : s.SameEngine t) : s.SameOperands t :=
  ⟨h.regs, h.buf, h.bufDraw, h.len, h.cmdReg⟩

theorem State.SameOperands.trans {s t u : State} (h : s.SameOperands t) (h' : t.SameOperands u) : s.SameOperands u :=
  ⟨h'.regs.trans h.regs, h'.buf.trans h.buf, h'.bufDraw.trans h.bufDraw, h'.len.trans h.len,
    h'.cmdReg.trans h.cmdReg⟩

/-- The writes of operands need an idle engine, and a reset or a completion leaves one. -/
theorem State.Change.sameOperands_of_busy {s t : State} (h : s.Change t) (hs : s.phase = .busy)
    (ht : t.phase = .busy) : s.SameOperands t := by
  cases h with
  | same | rejected | acknowledged | enables | released => exact ⟨rfl, rfl, rfl, rfl, rfl⟩
  | length _ idle | byte _ idle | accepted _ idle => rw [idle] at hs; cases hs
  | softReset | hardReset | illegal => cases ht
  | completed => rw [State.finish_phase] at ht; cases ht

/-- From busy to busy a step keeps the operands (R38). -/
theorem step_sameOperands_of_busy {s t : State} (h : step s = .next t) (hs : s.phase = .busy)
    (ht : t.phase = .busy) : s.SameOperands t := by
  obtain ⟨u, v, hv, hc, hu⟩ := State.change_of_step h
  have hcu := hc.sameOperands_of_busy (hv.phase.trans hs) (hu.phase.symm.trans ht)
  exact (hv.sameOperands.trans hcu).trans hu.sameOperands

end Sys2Proof.Machine
end

section
/-! SUPPORT. The reset values of R43 as a predicate: the operations that reset reach it, and the registers that are
computed from the state read 0 under it. -/

namespace Sys2Proof.Machine

open Sys2Proof

/-- The values of R43 that depend neither on the parameters nor on the draw. -/
structure State.Cleared (t : State) : Prop where
  regs : t.regs = ⟨.absent, .absent, .absent, .absent, .absent, .absent, .absent, .absent⟩
  phase : t.phase = .idle
  cmdReg : t.cmdReg = 0#32
  ctrl : t.ctrl = ⟨false, false, false⟩
  done : t.done = false
  err : t.err = false
  rej : t.rej = false
  errCode : t.errCode = 0#8
  errCmd : t.errCmd = 0#32
  len : t.len = 0#32

theorem State.resetOf_cleared (p : Params) : (State.resetOf p).Cleared :=
  ⟨rfl, rfl, rfl, rfl, rfl, rfl, rfl, rfl, rfl, rfl⟩

theorem State.reset_cleared : State.reset.Cleared := State.resetOf_cleared _

theorem State.takeReset_cleared (s : State) : s.takeReset.Cleared :=
  ⟨rfl, rfl, rfl, rfl, rfl, rfl, rfl, rfl, rfl, rfl⟩

theorem State.assertReset_cleared (s : State) : s.assertReset.Cleared :=
  ⟨rfl, rfl, rfl, rfl, rfl, rfl, rfl, rfl, rfl, rfl⟩

/-- After a reset no byte of `BUF` has been written: each is the draw that reset made (R43, R191). -/
theorem State.bufByte_of_buf_nil {t : State} (h : t.buf = []) (k : Nat) :
    t.bufByte k = Config.resetByte t.bufDraw k := by
  simp [State.bufByte, h, Memory.read?]

section
variable {t : State} (h : t.Cleared)
include h

theorem State.Cleared.reg (r : Reg) : t.reg r = .absent := by
  rw [State.reg, h.regs]
  cases r <;> rfl

theorem State.Cleared.ctrlWord : t.ctrlWord = 0#32 := by
  rw [State.ctrlWord, h.ctrl]
  rfl

theorem State.Cleared.statusWord : t.statusWord = 0#32 := by
  rw [State.statusWord, State.busy, h.rej, h.err, h.done, h.phase]
  rfl

theorem State.Cleared.rflags : t.rflags = 0#32 := by
  rw [State.rflags, h.regs]
  rfl

theorem State.Cleared.ksize : t.ksize = 0#32 := by
  rw [State.ksize, h.regs]

theorem State.Cleared.irq : t.irq = false := by
  rw [State.irq, h.done, h.err, h.rej]
  rfl

end

/-- A hard reset asserted, or a soft reset written out of reset (R190, R192). -/
theorem State.eq_of_does_reset {s t : State}
    (h : s.Does .assertReset t ∨
      (s.resetLine = false ∧ ∃ v : Word, v.getLsbD 31 = true ∧ s.Does (.wr 0x0C#16 v) t)) :
    t = s.assertReset ∨ t = s.takeReset := by
  rcases h with h | ⟨out, v, hv, h⟩
  · rw [State.does_iff, hostTurn, Host.Outcome.next.injEq] at h
    exact .inl h.symm
  · rw [← State.writeReg_ctrl_softReset s hv]
    exact .inr ((State.does_write_iff out .ctrl v).1 h)

end Sys2Proof.Machine
end

section
/-! SUPPORT. The flags of a big value bit by bit (10_state.md R35), and `KSIZE` as a number (R36). -/

namespace Sys2Proof.Machine

open Sys2Proof

/-- The nibble of an integer has one of three shapes, by its sign; these are its bits (R35). -/
theorem BigValue.nibble_int_bits (z : Int) :
    (BigValue.int z).nibble.getLsbD 0 = true ∧ (BigValue.int z).nibble.getLsbD 1 = decide (z < 0) ∧
    (BigValue.int z).nibble.getLsbD 2 = decide (z = 0) ∧ (BigValue.int z).nibble.getLsbD 3 = false := by
  rcases lt_trichotomy z 0 with h | rfl | h
  · simp [BigValue.nibble_neg h, h, h.ne]
  · simp [BigValue.nibble_zero]
  · simp [BigValue.nibble_pos h, h.ne', h.le]

theorem BigValue.nibble_present (v : BigValue) : v.nibble.getLsbD 0 = true ↔ ∃ z, v = .int z := by
  cases v with
  | absent => simp
  | int z =>
    obtain ⟨present, _⟩ := BigValue.nibble_int_bits z
    simp only [present, BigValue.int.injEq, exists_eq']

theorem BigValue.nibble_sign (v : BigValue) : v.nibble.getLsbD 1 = true ↔ ∃ z, v = .int z ∧ z < 0 := by
  cases v with
  | absent => simp
  | int z =>
    obtain ⟨_, sign, _⟩ := BigValue.nibble_int_bits z
    rw [sign]
    simp

theorem BigValue.nibble_isZero (v : BigValue) : v.nibble.getLsbD 2 = true ↔ v = .int 0 := by
  cases v with
  | absent => simp
  | int z =>
    obtain ⟨_, _, isZero, _⟩ := BigValue.nibble_int_bits z
    rw [isZero]
    simp

theorem BigValue.nibble_reserved (v : BigValue) : v.nibble.getLsbD 3 = false := by
  cases v with
  | absent => rfl
  | int z =>
    obtain ⟨_, _, _, reserved⟩ := BigValue.nibble_int_bits z
    exact reserved

/-- No value is both negative and zero (R21, R35). -/
theorem BigValue.nibble_sign_and_isZero (v : BigValue) : (v.nibble.getLsbD 1 && v.nibble.getLsbD 2) = false := by
  rw [Bool.eq_false_iff, ne_eq, Bool.and_eq_true, BigValue.nibble_sign, BigValue.nibble_isZero]
  rintro ⟨⟨z, rfl, hneg⟩, hz⟩
  cases hz
  exact absurd hneg (lt_irrefl 0)

/-- The host's `isNatural`, read off the flags, is the question about the value (R35). -/
theorem nibbleNatural_nibble (includeZero : Bool) (v : BigValue) :
    nibbleNatural includeZero v.nibble = true ↔ ∃ z, v = .int z ∧ (0 < z ∨ includeZero = true ∧ z = 0) := by
  cases v with
  | absent => simp [nibbleNatural]
  | int z =>
    obtain ⟨present, sign, isZero, _⟩ := BigValue.nibble_int_bits z
    simp only [nibbleNatural, present, sign, isZero]
    cases includeZero with
    | false => simp; omega
    | true => simp; omega

theorem State.rflags_congr {s t : State} (h : s.regs = t.regs) : s.rflags = t.rflags := by
  rw [State.rflags, State.rflags, h]

theorem State.ksize_of_absent {s : State} (h : s.reg .n = .absent) : s.ksize = 0#32 := by
  have h : s.regs.n = .absent := h
  rw [State.ksize, h]

theorem State.ksize_of_int {s : State} {z : Int} (h : s.reg .n = .int z) :
    s.ksize = BitVec.ofNat 32 (bytelen z.natAbs) := by
  have h : s.regs.n = .int z := h
  rw [State.ksize, h]

/-- The minimal string of a register's magnitude fits `NBYTES` (R21). -/
theorem State.Inv.bytelen_le_nbytes {s : State} (hs : s.Inv) {r : Reg} {z : Int} (h : s.reg r = .int z) :
    bytelen z.natAbs ≤ s.params.nbytes := by
  have hpos := ((Params.legal_iff _).1 hs.params_legal).1
  rw [bytelen_le_iff _ hpos, show (256 : Nat) = 2 ^ 8 from rfl, ← Nat.pow_mul]
  exact hs.regs_fit r z h

/-- With legal parameters the byte length of the modulus is no more than `NBYTES`, so `KSIZE` holds it (R36). -/
theorem State.Inv.ksize_toNat {s : State} (hs : s.Inv) {z : Int} (h : s.reg .n = .int z) :
    s.ksize.toNat = bytelen z.natAbs := by
  have hlen := hs.bytelen_le_nbytes h
  obtain ⟨_, hbuf, hcap⟩ := (Params.legal_iff _).1 hs.params_legal
  rw [State.ksize_of_int h, BitVec.toNat_ofNat, Nat.mod_eq_of_lt (by omega)]

end Sys2Proof.Machine
end

section
/-! PROOFS. The state and the control block (10_state.md R27 to R43). -/

namespace Sys2Proof.Machine

open Sys2Proof

/-- Settles O32: legal parameters fit a word, and no kind of change a step can make is one of the parameters. -/
theorem parameterRegistersAreConstant : Obligations.ParameterRegistersAreConstant := by
  refine ⟨fun s v legal out => ?_, fun s t => step_params⟩
  obtain ⟨_, hbuf, hcap⟩ := (Params.legal_iff _).1 legal
  have fitsWord {n : Nat} (h : n < 2 ^ 32) : (BitVec.ofNat 32 n).toNat = n := by
    rw [BitVec.toNat_ofNat, Nat.mod_eq_of_lt h]
  exact ⟨⟨_, fitsWord (by unfold Params.nbits; omega), State.does_read out .nbits⟩,
    ⟨_, fitsWord (by omega), State.does_read out .bufsz⟩,
    State.does_write out .nbits v, State.does_write out .bufsz v⟩

/-- Settles O35: the write is R38's two arms, and no kind of change from busy to busy is one of the operands. -/
theorem acceptanceLatchesAndOperandsHold : Obligations.AcceptanceLatchesAndOperandsHold := by
  refine ⟨fun s w out => State.does_write out .cmd w, fun s t hs h ht => ?_⟩
  obtain ⟨hregs, hbuf, hdraw, hlen, hcmd⟩ := step_sameOperands_of_busy h hs ht
  exact ⟨hregs, hbuf, hdraw, hlen, hcmd⟩

/-- Settles O38: each bit of `RFLAGS` is the bit of that register's nibble. -/
theorem rflagsDescribeTheBigRegisters : Obligations.RflagsDescribeTheBigRegisters := by
  refine ⟨fun s r out => ?_, fun s v out => State.does_write out .rflags v, fun s t => State.rflags_congr,
    State.reset_cleared.rflags⟩
  have present := s.rflags_bit r (j := 0) (by decide)
  rw [Nat.add_zero] at present
  rw [present, s.rflags_bit r (by decide), s.rflags_bit r (by decide), s.rflags_bit r (by decide),
    State.flagNibble, s.rflags_nibble, nibbleNatural_nibble, nibbleNatural_nibble]
  refine ⟨State.does_read out .rflags, BigValue.nibble_present _, BigValue.nibble_sign _, BigValue.nibble_isZero _,
    BigValue.nibble_reserved _, BigValue.nibble_sign_and_isZero _, ?_, ?_⟩
  · simp [le_iff_lt_or_eq, eq_comm]
  · simp

/-- Settles O39: under the invariant `KSIZE` is `bytelen(abs(N))`, the least length that holds the magnitude. -/
theorem ksizeIsMinimalModulusLength : Obligations.KsizeIsMinimalModulusLength := by
  refine ⟨fun s v hs out => ⟨State.does_read out .ksize, State.does_write out .ksize v, State.ksize_of_absent,
    fun z hz => ?_, State.ksize_of_int⟩, State.reset_cleared.ksize⟩
  rw [hs.ksize_toNat hz]
  exact ⟨bytelen_pos _, lt_pow_bytelen _, fun l hl => (bytelen_le_iff _ hl).2⟩

/-- Settles O30, from the bits of the two words. -/
theorem interruptLineFollowsStatusAndEnables : Obligations.InterruptLineFollowsStatusAndEnables := by
  intro s
  obtain ⟨_, done, err, rej⟩ := s.statusWord_bits
  obtain ⟨ieDone, ieErr, ieRej⟩ := s.ctrlWord_bits
  rw [State.irq, done, err, rej, ieDone, ieErr, ieRej]

/-- Settles O31. -/
theorem idReadsItsConstant : Obligations.IdReadsItsConstant :=
  fun _ v out => ⟨State.does_read out .id, State.does_write out .id v⟩

/-- Settles O33: the two kinds of write to `CTRL`, by bit 31, and the bits of the word. -/
theorem ctrlHoldsEnablesAndSoftReset : Obligations.CtrlHoldsEnablesAndSoftReset := by
  refine ⟨fun s v out => ?_, State.reset_cleared.ctrlWord⟩
  obtain ⟨ieDone, ieErr, ieRej⟩ := s.ctrlWord_bits
  refine ⟨State.does_read out .ctrl, ieDone, ieErr, ieRej, fun _ => s.ctrlWord_reserved, fun h => ?_, fun h => ?_, rfl⟩
  · exact (State.does_write_iff out .ctrl v).2 (s.writeReg_ctrl_enables h).symm
  · exact (State.does_write_iff out .ctrl v).2 (s.writeReg_ctrl_softReset h).symm

/-- Settles O44: hard reset, soft reset and the machine's reset state are all cleared, and an unwritten byte is the draw
of that reset. -/
theorem resetLeavesTheListedValues : Obligations.ResetLeavesTheListedValues := by
  refine ⟨fun s t h => ?_, ?_⟩
  · obtain ⟨hc, hbuf, hdraw, hparams⟩ : t.Cleared ∧ t.buf = [] ∧ t.bufDraw = s.draws ∧ t.params = s.params := by
      rcases State.eq_of_does_reset h with rfl | rfl
      · exact ⟨s.assertReset_cleared, rfl, rfl, rfl⟩
      · exact ⟨s.takeReset_cleared, rfl, rfl, rfl⟩
    exact ⟨hc.reg, hc.phase, hc.cmdReg, hc.ctrlWord, hc.statusWord, hc.errCode, hc.errCmd, hc.len,
      fun k => hdraw ▸ State.bufByte_of_buf_nil hbuf k, hparams, hc.rflags, hc.ksize, hc.irq⟩
  · have hc := State.reset_cleared
    exact ⟨hc.reg, hc.phase, hc.cmdReg, hc.ctrlWord, hc.statusWord, hc.errCode, hc.errCmd, hc.len, hc.rflags, hc.ksize,
      hc.irq⟩

end Sys2Proof.Machine
end

section
/-! SUPPORT. Host accesses by their width, out of reset (20_memory.md R51 to R53, R58, R60): each is rejected,
with the one effect `State.reject`, when `State.rejects` says so, and otherwise does what it is for. -/

namespace Sys2Proof.Machine

open Sys2Proof

/-! The offsets (R42, R51). -/

theorem controlOffset_offset (r : CtrlReg) : controlOffset r.offset = true := by cases r <;> rfl

theorem eq_offset_of_ctrlRegAt {off : Offset} {r : CtrlReg} (h : ctrlRegAt off = some r) : off = r.offset := by
  unfold ctrlRegAt at h
  split at h <;> cases h <;> exact BitVec.eq_of_toNat_eq ‹_›

/-- Where there is no control register the offset is misaligned or above the last one. -/
theorem controlOffset_of_ctrlRegAt_none {off : Offset} (h : ctrlRegAt off = none) : controlOffset off = false := by
  unfold ctrlRegAt at h
  split at h
  case h_12 =>
    rw [controlOffset, ← Bool.decide_and, decide_eq_false_iff_not]
    simp only [imp_false] at *
    omega
  all_goals cases h

/-- An offset is that of one control register, or of none. -/
theorem ctrlRegAt_cases (off : Offset) :
    (∃ r : CtrlReg, off = r.offset) ∨ (ctrlRegAt off = none ∧ controlOffset off = false) := by
  cases h : ctrlRegAt off with
  | some r => exact .inl ⟨r, eq_offset_of_ctrlRegAt h⟩
  | none => exact .inr ⟨rfl, controlOffset_of_ctrlRegAt_none h⟩

theorem windowIndex_eq (p : Params) (off : Offset) :
    windowIndex p off = if inWindow p off then some (off.toNat - 0x1000) else none := by
  simp [windowIndex, inWindow]

/-! Bytes and half words. -/

section
variable {s : State} (out : s.resetLine = false)
include out

/-- An 8-bit write needs an offset of the window and an idle engine (R53). -/
theorem State.write8_eq (off : Offset) (v : Byte) :
    s.write8 off v = if s.rejects (.wrb off v) then s.reject
      else { s with buf := Memory.write s.buf (off.toNat - 0x1000) v } := by
  cases hw : inWindow s.params off <;> simp [State.write8, State.rejects, State.busy, windowIndex_eq, out, hw]

/-- An 8-bit read needs an offset of the window and an idle engine (R53). -/
theorem State.read8_eq (off : Offset) :
    s.read8 off = if s.rejects (.rdb off) then s.reject.draw8 else (s.bufByte (off.toNat - 0x1000), s) := by
  cases hw : inWindow s.params off <;> simp [State.read8, State.rejects, State.busy, windowIndex_eq, out, hw]

theorem State.write16_eq (off : Offset) (v : Half) : s.write16 off v = s.reject := by
  simp [State.write16, out]

theorem State.read16_eq (off : Offset) : s.read16 off = (s.reject.draw.1.setWidth 16, s.reject.draw.2) := by
  simp [State.read16, out]

/-! Words. -/

theorem State.write32_unmapped {off : Offset} (h : ctrlRegAt off = none) (v : Word) : s.write32 off v = s.reject := by
  simp [State.write32, out, h]

theorem State.read32_unmapped {off : Offset} (h : ctrlRegAt off = none) : s.read32 off = s.reject.draw := by
  simp [State.read32, out, h]

/-- A 32-bit read needs the offset of a control register (R52). -/
theorem State.read32_of_rejects {off : Offset} (h : s.rejects (.rd off) = true) : s.read32 off = s.reject.draw := by
  rcases ctrlRegAt_cases off with ⟨r, rfl⟩ | ⟨unmapped, _⟩
  · simp [State.rejects, controlOffset_offset] at h
  · exact State.read32_unmapped out unmapped

theorem State.read32_of_accepted {off : Offset} (h : s.rejects (.rd off) = false) : (s.read32 off).2 = s := by
  rcases ctrlRegAt_cases off with ⟨r, rfl⟩ | ⟨_, unmapped⟩
  · rw [State.read32_offset out]
  · simp [State.rejects, unmapped] at h

end

theorem State.writeCmd_eq (s : State) (w : Word) :
    s.writeCmd w = if s.rejects (.wr CtrlReg.cmd.offset w) then s.reject else s.accept w := by
  rw [State.rejects, controlOffset_offset]
  simp [State.writeCmd, State.busy, CtrlReg.offset]

theorem State.writeLen_eq (s : State) (v : Word) :
    s.writeLen v = if s.rejects (.wr CtrlReg.len.offset v) then s.reject else { s with len := v } := by
  rw [State.rejects, controlOffset_offset]
  simp [State.writeLen, State.busy, CtrlReg.offset]

/-- Only the writes to `CMD` and `LEN` can be rejected at a control register (J1 to J3). -/
theorem State.rejects_write_offset (s : State) {r : CtrlReg} (cmd : r ≠ .cmd) (len : r ≠ .len) (v : Word) :
    s.rejects (.wr r.offset v) = false := by
  cases r
  case cmd => exact absurd rfl cmd
  case len => exact absurd rfl len
  all_goals rfl

theorem State.writeReg_of_rejects {s : State} {r : CtrlReg} {v : Word} (h : s.rejects (.wr r.offset v) = true) :
    s.writeReg r v = s.reject := by
  cases r
  case cmd => rw [State.writeReg, State.writeCmd_eq, if_pos h]
  case len => rw [State.writeReg, State.writeLen_eq, if_pos h]
  all_goals cases h

/-- A write that is not rejected leaves `REJ` as it was, or clears it. -/
theorem State.writeReg_rej_of_accepted {s : State} {r : CtrlReg} {v : Word}
    (h : s.rejects (.wr r.offset v) = false) (rej : (s.writeReg r v).rej = true) : s.rej = true := by
  cases r
  case cmd => simpa [State.writeReg, State.writeCmd_eq, h] using rej
  case len => simpa [State.writeReg, State.writeLen_eq, h] using rej
  case status => exact (Bool.and_eq_true_iff.1 rej).1
  case ctrl =>
    cases hv : v.getLsbD 31 with
    | true => simp [State.writeReg_ctrl_softReset s hv] at rej
    | false => simpa [State.writeReg_ctrl_enables s hv] using rej
  all_goals exact rej

section
variable {s : State} (out : s.resetLine = false)
include out

/-- A rejected 32-bit write has the one effect of a rejection (R60). -/
theorem State.write32_of_rejects {off : Offset} {v : Word} (h : s.rejects (.wr off v) = true) :
    s.write32 off v = s.reject := by
  rcases ctrlRegAt_cases off with ⟨r, rfl⟩ | ⟨unmapped, _⟩
  · rw [State.write32_offset out, State.writeReg_of_rejects h]
  · exact State.write32_unmapped out unmapped v

theorem State.write32_rej_of_accepted {off : Offset} {v : Word} (h : s.rejects (.wr off v) = false)
    (rej : (s.write32 off v).rej = true) : s.rej = true := by
  rcases ctrlRegAt_cases off with ⟨r, rfl⟩ | ⟨_, unmapped⟩
  · rw [State.write32_offset out] at rej
    exact State.writeReg_rej_of_accepted h rej
  · simp [State.rejects, unmapped] at h

end

/-- No change of the engine is a reply to the host. -/
theorem State.Change.replies {s t : State} (h : s.Change t) : t.replies = s.replies := by cases h <;> simp

end Sys2Proof.Machine
end

section
/-! PROOFS. The accesses of the host (20_memory.md R60). -/

namespace Sys2Proof.Machine

open Sys2Proof

/-- Settles O41, one kind of access at a time. -/
theorem accessesAreRejectedInExactlyTheListedCases : Obligations.AccessesAreRejectedInExactlyTheListedCases := by
  intro s op access out
  cases op with
  | wr off v =>
    refine ⟨s.write32 off v, rfl, fun h => ?_, fun h => State.write32_rej_of_accepted out h, nofun, fun _ => ?_⟩
    · rw [State.write32_of_rejects out h]
      rfl
    · exact (s.write32_change off v).replies
  | wrb off v =>
    refine ⟨s.write8 off v, rfl, fun h => ?_, fun h => ?_, nofun, fun _ => (s.write8_change off v).replies⟩
    · rw [State.write8_eq out, if_pos h]
      rfl
    · simp [State.write8_eq out, h]
  | wrh off v =>
    refine ⟨s.write16 off v, rfl, fun _ => ?_, nofun, nofun, fun _ => (s.write16_change off v).replies⟩
    rw [State.write16_eq out]
    rfl
  | rd off =>
    cases h : s.rejects (.rd off) with
    | true =>
      refine ⟨s.reject.draw.2.reply (.word s.reject.draw.1), ?_, fun _ => rfl, nofun, fun _ => ⟨_, rfl⟩, nofun⟩
      rw [State.does_iff, hostTurn, State.read32_of_rejects out h]
    | false =>
      refine ⟨s.reply (.word (s.read32 off).1), ?_, nofun, fun _ => id, fun _ => ⟨_, rfl⟩, nofun⟩
      rw [State.does_iff, hostTurn, State.read32_of_accepted out h]
  | rdb off =>
    cases h : s.rejects (.rdb off) with
    | true =>
      refine ⟨s.reject.draw.2.reply (.byte s.reject.draw8.1), ?_, fun _ => rfl, nofun, fun _ => ⟨_, rfl⟩, nofun⟩
      rw [State.does_iff, hostTurn, State.read8_eq out, if_pos h]
      rfl
    | false =>
      refine ⟨s.reply (.byte (s.bufByte (off.toNat - 0x1000))), ?_, nofun, fun _ => id, fun _ => ⟨_, rfl⟩, nofun⟩
      rw [State.does_iff, hostTurn, State.read8_eq out, h]
      rfl
  | rdh off =>
    refine ⟨s.reject.draw.2.reply (.half (s.reject.draw.1.setWidth 16)), ?_, fun _ => rfl, nofun,
      fun _ => ⟨_, rfl⟩, nofun⟩
    rw [State.does_iff, hostTurn, State.read16_eq out]
  | assertReset | releaseReset | wait | check | getBytes | storeIfPresent _ | waitIrq =>
    -- no access of the host
    simp [plainAccess] at access

end Sys2Proof.Machine
end

section
/-! SUPPORT. Format C (30_encoding.md R71, R72): a word is its five fields, and the words whose opcode is one of R73
are the words of the raw commands. -/

namespace Sys2Proof

/-- The five fields of a word, put together again, are the word (R71). -/
theorem append_fields (w : Word) :
    w.extractLsb' 24 8 ++ w.extractLsb' 20 4 ++ w.extractLsb' 16 4 ++ w.extractLsb' 12 4 ++ w.extractLsb' 0 12 = w := by
  rw [BitVec.extractLsb'_append_extractLsb'_eq_extractLsb' (start₁ := 20) (len₁ := 4) rfl,
    BitVec.extractLsb'_append_extractLsb'_eq_extractLsb' (start₁ := 16) (len₁ := 4) rfl,
    BitVec.extractLsb'_append_extractLsb'_eq_extractLsb' (start₁ := 12) (len₁ := 4) rfl,
    BitVec.extractLsb'_append_extractLsb'_eq_extractLsb' (start₁ := 0) (len₁ := 12) rfl]
  exact BitVec.extractLsb'_eq_self

theorem word_eq_iff_fields {v w : Word} :
    v = w ↔ v.extractLsb' 24 8 = w.extractLsb' 24 8 ∧ v.extractLsb' 20 4 = w.extractLsb' 20 4 ∧
      v.extractLsb' 16 4 = w.extractLsb' 16 4 ∧ v.extractLsb' 12 4 = w.extractLsb' 12 4 ∧
      v.extractLsb' 0 12 = w.extractLsb' 0 12 := by
  refine ⟨fun h => by simp [h], fun ⟨hop, hrd, hrs1, hrs2, hzero⟩ => ?_⟩
  rw [← append_fields v, hop, hrd, hrs1, hrs2, hzero, append_fields]

namespace RawCommand

variable (c : RawCommand)

@[simp] theorem toWord_opcode : c.toWord.extractLsb' 24 8 = c.mnemonic.opcode := by
  rw [toWord, BitVec.extractLsb'_append_eq_of_le (by decide), BitVec.extractLsb'_append_eq_of_le (by decide),
    BitVec.extractLsb'_append_eq_of_le (by decide)]
  exact BitVec.extractLsb'_append_eq_left

@[simp] theorem toWord_rd : c.toWord.extractLsb' 20 4 = c.rd := by
  rw [toWord, BitVec.extractLsb'_append_eq_of_le (by decide), BitVec.extractLsb'_append_eq_of_le (by decide),
    BitVec.extractLsb'_append_eq_of_le (by decide)]
  exact BitVec.extractLsb'_append_eq_right

@[simp] theorem toWord_rs1 : c.toWord.extractLsb' 16 4 = c.rs1 := by
  rw [toWord, BitVec.extractLsb'_append_eq_of_le (by decide), BitVec.extractLsb'_append_eq_of_le (by decide)]
  exact BitVec.extractLsb'_append_eq_right

@[simp] theorem toWord_rs2 : c.toWord.extractLsb' 12 4 = c.rs2 := by
  rw [toWord, BitVec.extractLsb'_append_eq_of_le (by decide)]
  exact BitVec.extractLsb'_append_eq_right

@[simp] theorem toWord_zero : c.toWord.extractLsb' 0 12 = c.zero := BitVec.extractLsb'_append_eq_right

end RawCommand

theorem Mnemonic.ofOpcode?_eq_some {op : BitVec 8} {m : Mnemonic} : ofOpcode? op = some m ↔ op = m.opcode := by
  refine ⟨fun h => ?_, fun h => h ▸ ofOpcode?_opcode m⟩
  unfold ofOpcode? at h
  split at h <;> cases h <;> exact BitVec.eq_of_toNat_eq ‹_›

namespace RawCommand

/-- Reading the fields of a word and putting fields together are inverse to one another (R71). -/
theorem ofWord?_eq_some {w : Word} {c : RawCommand} : ofWord? w = some c ↔ c.toWord = w := by
  constructor
  · intro h
    unfold ofWord? at h
    split at h
    case h_1 m hm =>
      cases h
      rw [toWord, ← Mnemonic.ofOpcode?_eq_some.1 hm]
      exact append_fields w
    case h_2 => cases h
  · rintro rfl
    simp [ofWord?]

theorem ofWord?_eq_none {w : Word} : ofWord? w = none ↔ Mnemonic.ofOpcode? (w.extractLsb' 24 8) = none := by
  unfold ofWord?
  split <;> simp [*]

theorem toWord_injective : Function.Injective toWord := fun _ _ h =>
  Option.some_injective _ ((ofWord?_eq_some.2 h).symm.trans (ofWord?_eq_some.2 rfl))

/-- With a `zero` field of 0 the word is the sum of shifts that R74 writes. -/
theorem toWord_eq_shifts {c : RawCommand} (h : c.zero = 0#12) :
    c.toWord = c.mnemonic.opcode.setWidth 32 <<< 24 ||| c.rd.setWidth 32 <<< 20 ||| c.rs1.setWidth 32 <<< 16
      ||| c.rs2.setWidth 32 <<< 12 := by
  apply BitVec.eq_of_getLsbD_eq
  intro i hi
  rw [toWord, h]
  simp only [BitVec.getLsbD_append, BitVec.getLsbD_or, BitVec.getLsbD_shiftLeft, BitVec.getLsbD_setWidth,
    BitVec.getLsbD_zero]
  grind

theorem wellFormed_iff (c : RawCommand) :
    c.wellFormed = true ↔ registerFieldLegal c.mnemonic.usesRd c.rd = true ∧
      registerFieldLegal c.mnemonic.usesRs1 c.rs1 = true ∧ registerFieldLegal c.mnemonic.usesRs2 c.rs2 = true ∧
      c.zero = 0#12 := by
  simp [wellFormed, and_assoc]

/-- The command that well-formed raw fields stand for: the operands are the low three bits of the register fields. -/
def instr (c : RawCommand) : Instr :=
  Instr.make c.mnemonic (Reg.ofIndex (c.rd.extractLsb' 0 3)) (Reg.ofIndex (c.rs1.extractLsb' 0 3))
    (Reg.ofIndex (c.rs2.extractLsb' 0 3))

end RawCommand

theorem Instr.raw_make (m : Mnemonic) (rd rs1 rs2 : Reg) :
    (Instr.make m rd rs1 rs2).raw = ⟨m, if m.usesRd then rd.field else 0#4, if m.usesRs1 then rs1.field else 0#4,
      if m.usesRs2 then rs2.field else 0#4, 0#12⟩ := by
  cases m <;> rfl

/-- A legal field is given by its low three bits (R72). -/
theorem field_of_registerFieldLegal {used : Bool} {f : BitVec 4} (h : registerFieldLegal used f = true) :
    (if used then (Reg.ofIndex (f.extractLsb' 0 3)).field else 0#4) = f := by
  cases used with
  | true =>
    obtain ⟨r, rfl⟩ := (registerFieldLegal_used f).1 h
    simp
  | false => exact ((registerFieldLegal_unused f).1 h).symm

theorem RawCommand.raw_instr {c : RawCommand} (h : c.wellFormed = true) : c.instr.raw = c := by
  obtain ⟨hrd, hrs1, hrs2, hzero⟩ := c.wellFormed_iff.1 h
  rw [instr, Instr.raw_make, field_of_registerFieldLegal hrd, field_of_registerFieldLegal hrs1,
    field_of_registerFieldLegal hrs2, ← hzero]

@[simp] theorem Instr.instr_raw (i : Instr) : i.raw.instr = i := by
  cases i <;> simp [Instr.raw, RawCommand.instr, Instr.make]

/-- The facts of Laws/PerInstr.lean, for every command. -/
theorem Instr.encodes (i : Instr) : Laws.Encodes.Statement i :=
  match i with
  | .ldi rd => Laws.Encodes.ldi rd
  | .ldo rd => Laws.Encodes.ldo rd
  | .sti rs1 => Laws.Encodes.sti rs1
  | .stm rs1 => Laws.Encodes.stm rs1
  | .mov rd rs1 => Laws.Encodes.mov rd rs1
  | .clr rd => Laws.Encodes.clr rd
  | .egcd rs1 rs2 => Laws.Encodes.egcd rs1 rs2
  | .gcd rd rs1 rs2 => Laws.Encodes.gcd rd rs1 rs2
  | .lcm rd rs1 rs2 => Laws.Encodes.lcm rd rs1 rs2
  | .modinv rd rs1 rs2 => Laws.Encodes.modinv rd rs1 rs2
  | .pub rd rs1 => Laws.Encodes.pub rd rs1
  | .prv rd rs1 => Laws.Encodes.prv rd rs1

theorem Instr.raw_wellFormed (i : Instr) : i.raw.wellFormed = true := i.encodes.1

end Sys2Proof
end

section
/-! SUPPORT. The rows of R73 and `decode` (30_encoding.md R73, R74): a row matches the words of the well-formed raw
commands of its mnemonic, so `decode` answers a command on those words, and an error on every other. -/

namespace Sys2Proof

theorem decodeTable_pattern : ∀ r ∈ decodeTable, r.pattern = (RawCommand.mk r.mnemonic 0 0 0 0).toWord := by decide

theorem decodeTable_complete (m : Mnemonic) : ∃ r ∈ decodeTable, r.mnemonic = m := by cases m <;> decide

/-- What a row's mask keeps of a register field is 0 exactly when the field is legal (R72, R73). -/
theorem field_and_mask_eq_zero : ∀ (used : Bool) (f : BitVec 4),
    f &&& (if used then 0x8#4 else 0xF#4) = 0#4 ↔ registerFieldLegal used f = true := by decide

/-- A row matches the words with its mnemonic's opcode, legal register fields and a `zero` field of 0 (R73). -/
theorem DecodeRow.matchesWord_iff_fields {r : DecodeRow} (hr : r ∈ decodeTable) (w : Word) :
    r.matchesWord w = true ↔ w.extractLsb' 24 8 = r.mnemonic.opcode ∧
      registerFieldLegal r.mnemonic.usesRd (w.extractLsb' 20 4) = true ∧
      registerFieldLegal r.mnemonic.usesRs1 (w.extractLsb' 16 4) = true ∧
      registerFieldLegal r.mnemonic.usesRs2 (w.extractLsb' 12 4) = true ∧ w.extractLsb' 0 12 = 0#12 := by
  obtain ⟨-, mop⟩ := decodeTable_opcode r hr
  obtain ⟨mrd, mrs1, mrs2, mzero⟩ := decodeTable_masks r hr
  have keepByte (f : BitVec 8) : f &&& 0xFF#8 = f := BitVec.and_allOnes
  have keepZero (f : BitVec 12) : f &&& 0xFFF#12 = f := BitVec.and_allOnes
  rw [matchesWord, beq_iff_eq, word_eq_iff_fields, decodeTable_pattern r hr]
  simp only [BitVec.extractLsb'_and, mop, mrd, mrs1, mrs2, mzero, keepByte, keepZero, RawCommand.toWord_opcode,
    RawCommand.toWord_rd, RawCommand.toWord_rs1, RawCommand.toWord_rs2, RawCommand.toWord_zero, BitVec.ofNat_eq_ofNat,
    field_and_mask_eq_zero]

/-- Every word that a row matches is that of a well-formed raw command. -/
theorem DecodeRow.exists_rawCommand {r : DecodeRow} (hr : r ∈ decodeTable) {w : Word} (h : r.matchesWord w = true) :
    ∃ c : RawCommand, c.toWord = w ∧ c.wellFormed = true := by
  obtain ⟨hop, hfields⟩ := (matchesWord_iff_fields hr w).1 h
  refine ⟨⟨r.mnemonic, w.extractLsb' 20 4, w.extractLsb' 16 4, w.extractLsb' 12 4, w.extractLsb' 0 12⟩, ?_,
    (RawCommand.wellFormed_iff _).2 hfields⟩
  rw [RawCommand.toWord, ← hop]
  exact append_fields w

/-- Every well-formed raw command is matched by the row of its mnemonic. -/
theorem RawCommand.exists_row {c : RawCommand} (h : c.wellFormed = true) :
    ∃ r ∈ decodeTable, r.mnemonic = c.mnemonic ∧ r.matchesWord c.toWord = true := by
  obtain ⟨r, hr, hm⟩ := decodeTable_complete c.mnemonic
  refine ⟨r, hr, hm, (DecodeRow.matchesWord_iff_fields hr _).2 ?_⟩
  rw [hm, toWord_opcode, toWord_rd, toWord_rs1, toWord_rs2, toWord_zero]
  exact ⟨rfl, c.wellFormed_iff.1 h⟩

/-- `decode` answers the command of any row that matches: no word matches rows of two mnemonics (R74). -/
theorem decode_of_matchesWord {r : DecodeRow} (hr : r ∈ decodeTable) {w : Word} (h : r.matchesWord w = true) :
    decode w = .ok (Instr.make r.mnemonic (Reg.ofIndex (w.extractLsb' 20 3)) (Reg.ofIndex (w.extractLsb' 16 3))
      (Reg.ofIndex (w.extractLsb' 12 3))) := by
  obtain ⟨rop, -⟩ := (r.matchesWord_iff_fields hr w).1 h
  unfold decode
  split
  case h_1 q hq =>
    obtain ⟨qop, -⟩ := (q.matchesWord_iff_fields (List.mem_of_find?_eq_some hq) w).1
      (List.find?_some (p := (DecodeRow.matchesWord · w)) hq)
    rw [Mnemonic.opcode_injective (qop.symm.trans rop)]
  case h_2 hnone => exact absurd h (List.find?_eq_none.1 hnone r hr)

theorem decode_of_no_match {w : Word} (h : ∀ r ∈ decodeTable, ¬ r.matchesWord w = true) :
    decode w = .error (illegalReason w) := by
  rw [decode, List.find?_eq_none.2 h]

/-- The operand at bit `k` of a word is the low three bits of the register field there (R72, R74). -/
theorem extract_operand (w : Word) (k : Nat) : w.extractLsb' k 3 = (w.extractLsb' k 4).extractLsb' 0 3 := by
  ext i hi
  have : i < 4 := by omega
  simp [this]

theorem RawCommand.decode_toWord {c : RawCommand} (h : c.wellFormed = true) : decode c.toWord = .ok c.instr := by
  obtain ⟨r, hr, hm, hmatch⟩ := c.exists_row h
  rw [decode_of_matchesWord hr hmatch, hm, extract_operand, extract_operand, extract_operand, toWord_rd, toWord_rs1,
    toWord_rs2, instr]

/-- A word either is the word of a well-formed raw command, or matches no row. -/
theorem exists_wellFormed_or_no_match (w : Word) :
    (∃ c : RawCommand, c.toWord = w ∧ c.wellFormed = true) ∨ ∀ r ∈ decodeTable, ¬ r.matchesWord w = true :=
  or_iff_not_imp_left.2 fun h _ hr hmatch => h (DecodeRow.exists_rawCommand hr hmatch)

/-- R74's inverse in both directions: a word decodes to a command exactly when it is that command's encoding. -/
theorem decode_eq_ok_iff_encode (w : Word) (i : Instr) : decode w = .ok i ↔ encode i = w := by
  constructor
  · intro h
    rcases exists_wellFormed_or_no_match w with ⟨c, rfl, hc⟩ | hnone
    · rw [c.decode_toWord hc] at h
      cases h
      rw [encode, c.raw_instr hc]
    · cases h.symm.trans (decode_of_no_match hnone)
  · rintro rfl
    rw [encode, i.raw.decode_toWord i.raw_wellFormed, i.instr_raw]

/-- R74's legal words are the words of the well-formed raw commands. -/
theorem exists_decode_eq_ok_iff (w : Word) :
    (∃ i, decode w = .ok i) ↔ ∃ c : RawCommand, c.toWord = w ∧ c.wellFormed = true := by
  constructor
  · rintro ⟨i, hi⟩
    exact ⟨i.raw, (decode_eq_ok_iff_encode w i).1 hi, i.raw_wellFormed⟩
  · rintro ⟨c, rfl, hc⟩
    exact ⟨c.instr, c.decode_toWord hc⟩

theorem exists_decode_eq_error_iff (w : Word) : (∃ e, decode w = .error e) ↔ ¬ ∃ i, decode w = .ok i := by
  cases decode w <;> simp

end Sys2Proof
end

section
/-! SUPPORT. The legal words, listed (30_encoding.md R74): for each row of R73 every choice of legal register fields. -/

namespace Sys2Proof

/-- The register fields that are legal where the command uses the field, and where it does not (R72). -/
def legalFields (used : Bool) : List (BitVec 4) :=
  if used then [0#4, 1#4, 2#4, 3#4, 4#4, 5#4, 6#4, 7#4] else [0#4]

theorem mem_legalFields :
    ∀ (used : Bool) (f : BitVec 4), f ∈ legalFields used ↔ registerFieldLegal used f = true := by decide

theorem nodup_legalFields : ∀ used : Bool, (legalFields used).Nodup := by decide

/-- The well-formed raw commands of a mnemonic. -/
def legalCommandsOf (m : Mnemonic) : List RawCommand :=
  (legalFields m.usesRd ×ˢ legalFields m.usesRs1 ×ˢ legalFields m.usesRs2).map
    fun (rd, rs1, rs2) => ⟨m, rd, rs1, rs2, 0#12⟩

theorem mem_legalCommandsOf (m : Mnemonic) (c : RawCommand) :
    c ∈ legalCommandsOf m ↔ c.mnemonic = m ∧ c.wellFormed = true := by
  obtain ⟨m', rd, rs1, rs2, zero⟩ := c
  simp only [legalCommandsOf, List.mem_map, Prod.exists, List.mem_product, mem_legalFields, RawCommand.wellFormed_iff,
    RawCommand.mk.injEq]
  constructor
  · rintro ⟨_, _, _, hlegal, rfl, rfl, rfl, rfl, rfl⟩
    exact ⟨rfl, hlegal.1, hlegal.2.1, hlegal.2.2, rfl⟩
  · rintro ⟨rfl, hrd, hrs1, hrs2, rfl⟩
    exact ⟨rd, rs1, rs2, ⟨hrd, hrs1, hrs2⟩, rfl, rfl, rfl, rfl, rfl⟩

theorem nodup_legalCommandsOf (m : Mnemonic) : (legalCommandsOf m).Nodup := by
  refine ((nodup_legalFields _).product ((nodup_legalFields _).product (nodup_legalFields _))).map ?_
  rintro ⟨rd, rs1, rs2⟩ ⟨rd', rs1', rs2'⟩ h
  cases h
  rfl

/-- The well-formed raw commands, row by row. -/
def legalCommands : List RawCommand := (decodeTable.map DecodeRow.mnemonic).flatMap legalCommandsOf

theorem mem_legalCommands (c : RawCommand) : c ∈ legalCommands ↔ c.wellFormed = true := by
  obtain ⟨r, hr, hm⟩ := decodeTable_complete c.mnemonic
  simp only [legalCommands, List.mem_flatMap, mem_legalCommandsOf]
  exact ⟨fun ⟨_, _, _, h⟩ => h, fun h => ⟨c.mnemonic, hm ▸ List.mem_map_of_mem hr, rfl, h⟩⟩

theorem nodup_legalCommands : legalCommands.Nodup := by
  refine List.nodup_flatMap.2 ⟨fun m _ => nodup_legalCommandsOf m, ?_⟩
  have distinct : (decodeTable.map DecodeRow.mnemonic).Nodup := by decide
  refine distinct.imp fun hne c hc hc' => hne ?_
  rw [← ((mem_legalCommandsOf _ c).1 hc).1, ((mem_legalCommandsOf _ c).1 hc').1]

theorem length_legalCommandsOf (m : Mnemonic) :
    (legalCommandsOf m).length =
      (legalFields m.usesRd).length * ((legalFields m.usesRs1).length * (legalFields m.usesRs2).length) := by
  rw [legalCommandsOf, List.length_map, List.length_product, List.length_product]

/-- The count of R74: a factor 8 for each register field a mnemonic uses, summed over the rows. -/
theorem length_legalCommands : legalCommands.length = 1832 := by
  rw [legalCommands, List.length_flatMap]
  simp only [length_legalCommandsOf]
  decide

/-- The legal words (R74). -/
def legalWords : List Word := legalCommands.map RawCommand.toWord

theorem mem_legalWords (w : Word) : w ∈ legalWords ↔ ∃ i, decode w = .ok i := by
  simp only [legalWords, List.mem_map, mem_legalCommands, exists_decode_eq_ok_iff, and_comm]

theorem nodup_legalWords : legalWords.Nodup := nodup_legalCommands.map RawCommand.toWord_injective

theorem length_legalWords : legalWords.length = 1832 := by rw [legalWords, List.length_map, length_legalCommands]

end Sys2Proof
end

section
/-! SUPPORT. The completion of a command word that does not decode (10_state.md R39, 30_encoding.md R76). -/

namespace Sys2Proof.Machine

open Sys2Proof

/-- With the engine's turn next, the step is that turn on the state whose script is what follows it. -/
theorem State.completes_iff (s t : State) : s.Completes t ↔ engineTurn s = .next t := Iff.rfl

theorem engineTurn_of_busy {s : State} (busy : s.phase = .busy) (out : s.resetLine = false) :
    engineTurn s = complete s := if_pos ⟨busy, out⟩

theorem complete_of_error {s : State} {e : IllegalWord} (h : decode s.cmdReg = .error e) :
    complete s = .next (s.fail .illegalCommand) := by
  rw [complete, h]

/-- A write to `CMD` of an idle engine without a pending failure is accepted, whatever the word (R38). -/
theorem State.writeReg_cmd_of_idle {s : State} (idle : s.phase = .idle) (noErr : s.err = false) (w : Word) :
    s.writeReg .cmd w = s.accept w := by
  simp [State.writeReg, State.writeCmd, idle, noErr]

end Sys2Proof.Machine
end

section
/-! PROOFS. Encoding (30_encoding.md R74, R76). -/

namespace Sys2Proof.Machine

open Sys2Proof

/-- Settles O1: every claim about `encode` and `decode` together is one of `decode_eq_ok_iff_encode`, and the legal
words are listed row by row. -/
theorem decodeFollowsTableAndEncodeInvertsIt : Obligations.DecodeFollowsTableAndEncodeInvertsIt := by
  refine ⟨fun w r hr h => decode_of_matchesWord hr (beq_iff_eq.2 h),
    fun w h => ⟨_, decode_of_no_match fun r hr hmatch => h r hr (beq_iff_eq.1 hmatch)⟩,
    fun i => ?_,
    fun i => (decode_eq_ok_iff_encode _ i).2 rfl,
    fun w i => (decode_eq_ok_iff_encode w i).1,
    legalWords, nodup_legalWords, length_legalWords, mem_legalWords⟩
  obtain ⟨_, _, _, hzero⟩ := i.raw.wellFormed_iff.1 i.raw_wellFormed
  exact RawCommand.toWord_eq_shifts hzero

/-- Settles O2: a word decodes exactly when its fields are those of a well-formed raw command; acceptance looks at no
field, and the completion of a word that does not decode is the failure of R175 with code 5. -/
theorem illegalWordIsAcceptedAndFailsWithFive : Obligations.IllegalWordIsAcceptedAndFailsWithFive := by
  refine ⟨fun w => ?_, ⟨.unknownOpcode, by decide⟩, ⟨.unknownOpcode, by decide⟩,
    fun s w illegal idle noErr out => ⟨?_, ?_⟩⟩
  · rw [exists_decode_eq_error_iff, exists_decode_eq_ok_iff, ← RawCommand.ofWord?_eq_none]
    simp only [← RawCommand.ofWord?_eq_some]
    cases RawCommand.ofWord? w <;> simp
  · exact (State.does_write_iff out .cmd w).2 (State.writeReg_cmd_of_idle idle noErr w).symm
  · obtain ⟨e, he⟩ := illegal
    exact (engineTurn_of_busy (s := s.accept w) rfl out).trans (complete_of_error he)

end Sys2Proof.Machine
end

section
/-! SUPPORT. A command word as the sum of its fields, each times its weight (30_encoding.md R71). -/

namespace Sys2Proof

@[simp] theorem Reg.toNat_field (r : Reg) : r.field.toNat = r.index.toNat := by cases r <;> rfl

theorem RawCommand.toWord_eq_ofNat (c : RawCommand) :
    c.toWord = BitVec.ofNat 32 (c.mnemonic.opcode.toNat * 0x1000000 + c.rd.toNat * 0x100000 + c.rs1.toNat * 0x10000
      + c.rs2.toNat * 0x1000 + c.zero.toNat) := by
  have append {n m : Nat} (x : BitVec n) (y : BitVec m) : (x ++ y).toNat = x.toNat * 2 ^ m + y.toNat := by
    rw [BitVec.toNat_append, ← Nat.shiftLeft_add_eq_or_of_lt y.isLt, Nat.shiftLeft_eq]
  apply BitVec.eq_of_toNat_eq
  rw [toWord, append, append, append, append, BitVec.toNat_ofNat]
  omega

/-- The word that R71 writes as a sum decodes to its command (R74). -/
theorem decode_fields (i : Instr) :
    decode (BitVec.ofNat 32 (i.raw.mnemonic.opcode.toNat * 0x1000000 + i.raw.rd.toNat * 0x100000
      + i.raw.rs1.toNat * 0x10000 + i.raw.rs2.toNat * 0x1000 + i.raw.zero.toNat)) = .ok i := by
  rw [decode_eq_ok_iff_encode, encode, RawCommand.toWord_eq_ofNat]

end Sys2Proof
end

section
/-! SUPPORT. The completion with one register write and the completion with a failure, as the states that claims name
(10_state.md R39, 60_exceptions.md R175). -/

namespace Sys2Proof.Machine

open Sys2Proof

theorem exec_of_failure {i : Instr} {s : State} {k : ErrorKind} (h : commandResult i s = .failure k) :
    exec i s = .next (s.failedWith k.code) := by
  rw [exec_eq, h]
  rfl

theorem exec_of_success_reg {i : Instr} {s : State} {r : Reg} {v : BigValue}
    (h : commandResult i s = .success [.reg r v]) : exec i s = .next (s.wrote r v) := by
  rw [exec_eq, h]
  rfl

/-- A failing check of `PRV` (42_rsa_transform.md R142). -/
theorem exec_prv_of_error {s : State} {rs1 : Reg} {k : ErrorKind} (h : s.privateOperands rs1 = .error k) (rd : Reg) :
    exec (.prv rd rs1) s = .next (s.failedWith k.code) :=
  exec_of_failure (by simp only [commandResult, prvResult, h])

@[simp] theorem State.wrote_reg_same (s : State) (r : Reg) (v : BigValue) : (s.wrote r v).reg r = v :=
  s.regs.get_set_same r v

theorem State.wrote_reg_other (s : State) {r q : Reg} (v : BigValue) (h : q ≠ r) : (s.wrote r v).reg q = s.reg q :=
  s.regs.get_set_other v h

/-- The flags of the written register are those of the value (R35). -/
theorem State.wrote_flagNibble (s : State) (r : Reg) (v : BigValue) : (s.wrote r v).flagNibble r = v.nibble := by
  rw [State.flagNibble, State.rflags_nibble, State.wrote_reg_same]

/-- Writing what the register already holds changes only `DONE` and `BUSY`. -/
theorem State.wrote_of_reg_eq {s : State} {r : Reg} {v : BigValue} (h : s.reg r = v) :
    s.wrote r v = { s with done := true, phase := .idle } := by
  have same : s.regs.set r v = s.regs := BigRegs.ext_get fun q => by
    rw [BigRegs.get_set]
    split
    · next hq => rw [hq, ← h, State.reg]
    · rfl
  rw [State.wrote, same]

end Sys2Proof.Machine
end

section
/-! SUPPORT. The completion of the two loads by what their operand is (40_codec_load_store.md R101, R102). -/

namespace Sys2Proof.Machine

open Sys2Proof

variable {s : State}

theorem exec_ldi_of_ok {v : Nat} (h : s.loadOperand = .ok v) (rd : Reg) :
    exec (.ldi rd) s = .next (s.wrote rd (.int v)) :=
  exec_of_success_reg (by rw [commandResult, ldiResult, h])

theorem exec_ldi_of_error {k : ErrorKind} (h : s.loadOperand = .error k) (rd : Reg) :
    exec (.ldi rd) s = .next (s.failedWith k.code) :=
  exec_of_failure (by rw [commandResult, ldiResult, h])

/-- `LDO` differs from `LDI` only at the empty string (R102). -/
theorem exec_ldo_of_len_ne_zero (h : s.len ≠ 0#32) (rd : Reg) : exec (.ldo rd) s = exec (.ldi rd) s := by
  rw [exec_eq, exec_eq, commandResult, commandResult, ldoResult, ldiResult]
  simp only [if_neg h]

theorem exec_ldo_of_error {k : ErrorKind} (h : s.loadOperand = .error k) (rd : Reg) :
    exec (.ldo rd) s = .next (s.failedWith k.code) :=
  exec_of_failure (by rw [commandResult, ldoResult, h])

/-- The empty string passes both checks of a load, with value 0 (R101). -/
theorem State.loadOperand_of_empty (h : s.len = 0#32) : s.loadOperand = .ok 0 := by
  have empty : s.memRead s.len.toNat = [] := by rw [h]; rfl
  have ok := State.loadOperand_ok (s := s) (by rw [h]; exact Nat.zero_le _) (by rw [empty]; exact Nat.two_pow_pos _)
  rwa [empty] at ok

theorem exec_ldo_of_empty (h : s.len = 0#32) (rd : Reg) : exec (.ldo rd) s = .next (s.wrote rd .absent) :=
  exec_of_success_reg (by simp only [commandResult, ldoResult, State.loadOperand_of_empty h, if_pos h])

end Sys2Proof.Machine
end

section
/-! SUPPORT. The minimal string (00_scope.md R8, 40_codec_load_store.md R103, R107): how many bytes it has, that it
starts with no zero byte, and that it is any string of its value without the leading zero bytes. -/

namespace Sys2Proof.Machine

open Sys2Proof

/-- The minimal string of a value that fits `NBITS` bits fits `NBYTES`, the buffer and `LEN` (R103). -/
theorem length_intToBytes_le {p : Params} (legal : p.legal = true) {v : Nat} (h : v < 2 ^ p.nbits) :
    (intToBytes v).length ≤ p.nbytes ∧ (intToBytes v).length ≤ p.bufBytes ∧ (intToBytes v).length < 2 ^ 32 := by
  obtain ⟨hpos, hbuf, hcap⟩ := (Params.legal_iff p).1 legal
  have hlen : bytelen v ≤ p.nbytes := by
    rw [bytelen_le_iff v hpos, show (256 : Nat) = 2 ^ 8 from rfl, ← Nat.pow_mul]
    exact h
  rw [length_intToBytes]
  omega

theorem beInt_zero_cons (bytes : List Byte) : beInt (0x00#8 :: bytes) = beInt bytes :=
  beInt_zeros_append (zeros := [0x00#8]) rfl bytes

theorem intToBytes_zero : intToBytes 0 = [0x00#8] := by decide

/-- A string that starts with no zero byte is the minimal string of its value. -/
theorem intToBytes_beInt_cons {b : Byte} (hb : b ≠ 0x00#8) (bytes : List Byte) :
    intToBytes (beInt (b :: bytes)) = b :: bytes := by
  have enough : bytelen (beInt (b :: bytes)) ≤ bytes.length + 1 :=
    (bytelen_le_iff _ (Nat.succ_pos _)).2 (beInt_lt (b :: bytes))
  have needed : ¬ bytelen (beInt (b :: bytes)) ≤ bytes.length := fun h => by
    have hlt := (bytelen_le_iff _ ((bytelen_pos _).trans_le h)).1 h
    have hpos : 0 < b.toNat := Nat.pos_of_ne_zero fun h0 => hb (BitVec.eq_of_toNat_eq h0)
    have := Nat.le_mul_of_pos_left (256 ^ bytes.length) hpos
    rw [beInt_cons] at hlt
    omega
  rw [intToBytes, show bytelen (beInt (b :: bytes)) = (b :: bytes).length by rw [List.length_cons]; omega,
    beBytes_beInt]

/-- The minimal string of a string's value is the string without its leading zero bytes, or one zero byte when nothing
is left (R107). -/
theorem intToBytes_beInt (bytes : List Byte) :
    intToBytes (beInt bytes) =
      if bytes.all (· == 0x00#8) then [0x00#8] else bytes.dropWhile (· == 0x00#8) := by
  induction bytes with
  | nil => exact intToBytes_zero
  | cons b bytes ih =>
    by_cases hb : b = 0x00#8
    · subst hb
      rw [beInt_zero_cons, ih]
      simp
    · rw [intToBytes_beInt_cons hb]
      simp [hb]

/-- Only the value 0 has a minimal string that starts with a zero byte (R103). -/
theorem exists_intToBytes_eq_cons {v : Nat} (hv : v ≠ 0) : ∃ b rest, intToBytes v = b :: rest ∧ b ≠ 0x00#8 := by
  cases h : intToBytes v with
  | nil =>
    have := bytelen_pos v
    rw [← length_intToBytes, h] at this
    cases this
  | cons b rest =>
    refine ⟨b, rest, rfl, ?_⟩
    rintro rfl
    have value : beInt rest = v := by rw [← beInt_zero_cons, ← h, beInt_intToBytes]
    have hlen : bytelen v = rest.length + 1 := by rw [← length_intToBytes, h, List.length_cons]
    have hlt : v < 256 ^ rest.length := value ▸ beInt_lt rest
    cases rest with
    | nil => exact hv value.symm
    | cons _ rest =>
      have := (bytelen_le_iff v (Nat.succ_pos rest.length)).2 hlt
      rw [List.length_cons] at hlen
      omega

end Sys2Proof.Machine
end

section
/-! SUPPORT. The completion of the two stores (40_codec_load_store.md R103, R104), and what a stored string is to the
next command. -/

namespace Sys2Proof.Machine

open Sys2Proof

variable {s t : State} {bytes : List Byte}

theorem exec_sti_of_absent {rs1 : Reg} (h : s.reg rs1 = .absent) : exec (.sti rs1) s = .next (s.failedWith 1#8) :=
  exec_of_failure (k := .invalidInteger) (by simp only [commandResult, stiResult, h])

theorem exec_sti_of_neg {rs1 : Reg} {z : Int} (h : s.reg rs1 = .int z) (neg : z < 0) :
    exec (.sti rs1) s = .next (s.failedWith 1#8) :=
  exec_of_failure (k := .invalidInteger) (by simp only [commandResult, stiResult, h, if_pos neg])

theorem exec_stm_of_absent {rs1 : Reg} (h : s.reg rs1 = .absent) : exec (.stm rs1) s = .next (s.failedWith 1#8) :=
  exec_of_failure (k := .invalidInteger) (by simp only [commandResult, stmResult, h])

theorem exec_sti_of_nat {rs1 : Reg} {v : Nat} (h : s.reg rs1 = .int v) :
    exec (.sti rs1) s = .next (s.succeed [.string (intToBytes v)]) := by
  have nonneg : ¬ (v : Int) < 0 := by omega
  rw [exec_eq]
  simp only [commandResult, stiResult, h, if_neg nonneg, Int.toNat_natCast, State.finish_success]

theorem exec_stm_of_int {rs1 : Reg} {z : Int} (h : s.reg rs1 = .int z) :
    exec (.stm rs1) s = .next (s.succeed [.string (intToBytes z.natAbs)]) := by
  rw [exec_eq]
  simp only [commandResult, stmResult, h, State.finish_success]

/-- The completion with a string whose length `LEN` can hold is a store of it (R100). -/
theorem State.stored_succeed_string (s : State) (h : bytes.length < 2 ^ 32) :
    s.Stored bytes (s.succeed [.string bytes]) := by
  refine ⟨fun k => s.bufByte_apply_string bytes k, ?_, rfl⟩
  show (BitVec.ofNat 32 bytes.length).toNat = bytes.length
  rw [BitVec.toNat_ofNat, Nat.mod_eq_of_lt h]

theorem State.Stored.len (h : s.Stored bytes t) : t.len.toNat = bytes.length := by
  obtain ⟨-, h, -⟩ := h
  exact h

theorem State.Stored.regs (h : s.Stored bytes t) : t.regs = s.regs := by
  obtain ⟨-, -, h⟩ := h
  rw [h]

theorem State.Stored.params (h : s.Stored bytes t) : t.params = s.params := by
  obtain ⟨-, -, h⟩ := h
  rw [h]

theorem State.Stored.done (h : s.Stored bytes t) : t.done = true := by
  obtain ⟨-, -, h⟩ := h
  rw [h]

/-- `BUF[0 .. LEN-1]` is the string stored (R100). -/
theorem State.Stored.memRead (h : s.Stored bytes t) : t.memRead t.len.toNat = bytes := by
  obtain ⟨hbyte, hlen, -⟩ := h
  apply List.ext_getElem
  · rw [State.length_memRead, hlen]
  · intro k _ hk
    simp [State.memRead, hbyte, hk]

theorem State.stored_succeed_intToBytes (legal : s.params.legal = true) {v : Nat} (hv : v < 2 ^ s.params.nbits) :
    s.Stored (intToBytes v) (s.succeed [.string (intToBytes v)]) := by
  obtain ⟨-, -, word⟩ := length_intToBytes_le legal hv
  exact s.stored_succeed_string word

/-- A register's minimal string is stored by `STI`, if the value fits `NBITS` bits (R103). -/
theorem exists_exec_sti_stored (legal : s.params.legal = true) {rs1 : Reg} {v : Nat} (h : s.reg rs1 = .int v)
    (hv : v < 2 ^ s.params.nbits) : ∃ t, exec (.sti rs1) s = .next t ∧ s.Stored (intToBytes v) t :=
  ⟨_, exec_sti_of_nat h, State.stored_succeed_intToBytes legal hv⟩

/-- A stored minimal string loads back (R107). -/
theorem State.Stored.loadOperand (legal : s.params.legal = true) {v : Nat} (hv : v < 2 ^ s.params.nbits)
    (h : s.Stored (intToBytes v) t) : t.loadOperand = .ok v := by
  obtain ⟨-, room, -⟩ := length_intToBytes_le legal hv
  have value : beInt (t.memRead t.len.toNat) = v := by rw [h.memRead, beInt_intToBytes]
  have ok := State.loadOperand_ok (s := t) (by rw [h.len, h.params]; exact room)
    (by rw [value, h.params]; exact hv)
  rwa [value] at ok

/-- What the invariant says of a natural value (R21). -/
theorem State.Inv.nat_lt (hs : s.Inv) {r : Reg} {v : Nat} (h : s.reg r = .int v) : v < 2 ^ s.params.nbits :=
  hs.regs_fit r v h

theorem State.Inv.exists_exec_sti_stored (hs : s.Inv) {r : Reg} {v : Nat} (h : s.reg r = .int v) :
    ∃ t, exec (.sti r) s = .next t ∧ s.Stored (intToBytes v) t :=
  Machine.exists_exec_sti_stored hs.params_legal h (hs.nat_lt h)

end Sys2Proof.Machine
end

section
/-! SUPPORT. Hexadecimal digits, most significant first, and their number made even (40_codec_load_store.md R108). -/

namespace Sys2Proof.Machine

open Sys2Proof

/-- The hexadecimal digits without leading zeros; the value 0 is the one digit 0 (R108). -/
def hexDigits (v : Nat) : List Nat := if v = 0 then [0] else (Nat.digits 16 v).reverse

/-- One digit 0 in front if the number of digits is odd (R108). -/
def padEven (digits : List Nat) : List Nat := if digits.length % 2 = 1 then 0 :: digits else digits

theorem length_hexDigits_le_iff (v : Nat) {k : Nat} (hk : 0 < k) : (hexDigits v).length ≤ k ↔ v < 16 ^ k := by
  unfold hexDigits
  split
  · next h => subst h; exact iff_of_true hk (Nat.pow_pos (by decide))
  · rw [List.length_reverse, Nat.digits_length_le_iff (by decide)]

theorem length_hexDigits_pos (v : Nat) : 0 < (hexDigits v).length := by
  unfold hexDigits
  split
  · decide
  · next h => simpa [List.length_pos_iff, Nat.digits_eq_nil_iff_eq_zero] using h

/-- Digit `j` from the right weighs `16^j`. -/
theorem getD_hexDigits (v : Nat) {i j : Nat} (h : i + j + 1 = (hexDigits v).length) :
    (hexDigits v).getD i 0 = v / 16 ^ j % 16 := by
  unfold hexDigits at h ⊢
  split
  · next h0 =>
    subst h0
    obtain ⟨rfl, rfl⟩ : i = 0 ∧ j = 0 := by simpa using h
    rfl
  · next h0 =>
    rw [if_neg h0, List.length_reverse] at h
    rw [List.getD_reverse i (by omega), ← Nat.getD_digits v j (by decide)]
    congr 1
    omega

theorem length_padEven (digits : List Nat) : (padEven digits).length = digits.length + digits.length % 2 := by
  unfold padEven
  split
  · next odd => rw [List.length_cons, odd]
  · next even => omega

/-- Two digits to a byte (R108). -/
theorem length_padEven_hexDigits (v : Nat) : (padEven (hexDigits v)).length = 2 * (intToBytes v).length := by
  have same (l : Nat) (hl : 0 < l) : bytelen v ≤ l ↔ (hexDigits v).length ≤ 2 * l := by
    rw [bytelen_le_iff v hl, length_hexDigits_le_iff v (by omega), Nat.pow_mul]
  have hpos := bytelen_pos v
  have hdigit := length_hexDigits_pos v
  have enough := (same (bytelen v) hpos).1 le_rfl
  have needed := same (bytelen v - 1)
  rw [length_padEven, length_intToBytes]
  omega

theorem getD_padEven_hexDigits (v : Nat) {i j : Nat} (h : i + j + 1 = (padEven (hexDigits v)).length) :
    (padEven (hexDigits v)).getD i 0 = v / 16 ^ j % 16 := by
  unfold padEven at h ⊢
  split
  · next odd =>
    rw [if_pos odd, List.length_cons] at h
    cases i with
    | zero =>
      have small : v < 16 ^ j := (length_hexDigits_le_iff v (by omega)).1 (by omega)
      rw [Nat.div_eq_of_lt small]
      rfl
    | succ i =>
      rw [List.getD_cons_succ]
      exact getD_hexDigits v (by omega)
  · next even =>
    rw [if_neg even] at h
    exact getD_hexDigits v h

/-- A byte is its two hexadecimal digits. -/
theorem ofNat_eq_two_digits (w : Nat) : BitVec.ofNat 8 w = BitVec.ofNat 8 (16 * (w / 16 % 16) + w % 16) := by
  apply BitVec.eq_of_toNat_eq
  rw [BitVec.toNat_ofNat, BitVec.toNat_ofNat]
  omega

/-- Byte `i` from the left, `j` from the right, is that of weight `256^j`. -/
theorem getElem?_beBytes (v : Nat) {i j l : Nat} (h : i + j + 1 = l) :
    (beBytes v l)[i]? = some (BitVec.ofNat 8 (v / 256 ^ j)) := by
  induction l generalizing i with
  | zero => omega
  | succ l ih =>
    cases i with
    | zero => simp [beBytes, show j = l by omega]
    | succ i => rw [beBytes, List.getElem?_cons_succ, ih (by omega)]

/-- Byte `k` is the pair of digits `2k` and `2k+1` (R108). -/
theorem getElem?_intToBytes (v : Nat) {k : Nat} (hk : k < (intToBytes v).length) :
    (intToBytes v)[k]? = some (BitVec.ofNat 8
      (16 * (padEven (hexDigits v)).getD (2 * k) 0 + (padEven (hexDigits v)).getD (2 * k + 1) 0)) := by
  have hdigits := length_padEven_hexDigits v
  obtain ⟨j, hj⟩ := Nat.exists_eq_add_of_lt hk
  have high := getD_padEven_hexDigits v (i := 2 * k) (j := 2 * j + 1) (by omega)
  have low := getD_padEven_hexDigits v (i := 2 * k + 1) (j := 2 * j) (by omega)
  rw [high, low, Nat.pow_succ, Nat.pow_mul, ← Nat.div_div_eq_div_mul, ← ofNat_eq_two_digits]
  exact getElem?_beBytes v (by rw [← length_intToBytes, hj])

end Sys2Proof.Machine
end

section
/-! PROOFS. The codec, load, store and move commands (40_codec_load_store.md R101 to R108). -/

namespace Sys2Proof.Machine

open Sys2Proof

/-- Settles O8: the one write of `MOV` is of the source's value, which for `rd = rs1` the register already holds. -/
theorem movCopiesAnyValue : Obligations.MovCopiesAnyValue := by
  intro rd rs1 s
  have run : exec (.mov rd rs1) s = .next (s.wrote rd (s.reg rs1)) := exec_of_success_reg rfl
  refine ⟨?_, run, ?_, ?_⟩
  · simpa [Instr.raw, Mnemonic.opcode] using decode_fields (.mov rd rs1)
  · rw [State.wrote_flagNibble, State.flagNibble, State.rflags_nibble]
  · rintro rfl
    rw [run, State.wrote_of_reg_eq rfl]

/-- Settles O9: the one write of `CLR` is of an absent value; of the checks of `PRV`, the one that `D` is present is
then the first to fail. -/
theorem clrMakesRegisterAbsent : Obligations.ClrMakesRegisterAbsent := by
  intro rd s
  have run : exec (.clr rd) s = .next (s.wrote rd .absent) := exec_of_success_reg rfl
  refine ⟨?_, run, s.wrote_flagNibble rd .absent, fun absent => ?_, fun q src c n hsrc hc hn hlt => ?_⟩
  · simpa [Instr.raw, Mnemonic.opcode] using decode_fields (.clr rd)
  · rw [run, State.wrote_of_reg_eq absent]
  · have missing : (s.wrote .d .absent).privateOperands src = .error .missingPrivateComponent :=
      State.privateOperands_missing ((s.wrote_reg_other _ hsrc).trans hc) ((s.wrote_reg_other _ (by decide)).trans hn)
        (s.wrote_reg_same _ _) hlt
    exact exec_prv_of_error missing q

/-- Settles O4: each clause is one outcome of the load's operand. -/
theorem ldiLoadsBigEndianInteger : Obligations.LdiLoadsBigEndianInteger := by
  intro rd s
  refine ⟨?_, fun long => exec_ldi_of_error (State.loadOperand_tooLong long) rd,
    fun short wide => exec_ldi_of_error (State.loadOperand_overflow short wide) rd,
    fun short narrow => ⟨exec_ldi_of_ok (State.loadOperand_ok short narrow) rd, ?_⟩,
    fun empty => exec_ldi_of_ok (State.loadOperand_of_empty empty) rd,
    beInt_zero_cons, by decide⟩
  · simpa [Instr.raw, Mnemonic.opcode] using decode_fields (.ldi rd)
  · rw [State.wrote_flagNibble, BigValue.nibble_nat]

/-- Settles O5: a string that is not empty is a matter of `LDI`, and the empty one passes the checks. -/
theorem ldoLoadsOptionalInteger : Obligations.LdoLoadsOptionalInteger := by
  intro rd s
  refine ⟨?_, fun long => exec_ldo_of_error (State.loadOperand_tooLong long) rd,
    fun empty => ⟨exec_ldo_of_empty empty rd, s.wrote_flagNibble rd .absent⟩,
    fun _ short wide => exec_ldo_of_error (State.loadOperand_overflow short wide) rd,
    fun nonempty short narrow => ⟨?_, ?_⟩, fun nonempty => exec_ldo_of_len_ne_zero nonempty rd,
    fun one room zero => ?_⟩
  · simpa [Instr.raw, Mnemonic.opcode] using decode_fields (.ldo rd)
  · rw [exec_ldo_of_len_ne_zero nonempty, exec_ldi_of_ok (State.loadOperand_ok short narrow)]
  · rw [State.wrote_flagNibble, BigValue.nibble_nat]
  · have hlen : s.len.toNat = 1 := by rw [one]; rfl
    have value : beInt (s.memRead s.len.toNat) = 0 := by
      rw [hlen, State.memRead, List.range_one, List.map_singleton, zero]
      rfl
    have ok := State.loadOperand_ok (s := s) (by rwa [hlen]) (by rw [value]; exact Nat.two_pow_pos _)
    rw [value] at ok
    rw [exec_ldo_of_len_ne_zero (by rw [one]; decide), exec_ldi_of_ok ok]
    rfl

/-- Settles O6: under the invariant the source's minimal string fits the buffer and `LEN`. -/
theorem stiStoresMinimalString : Obligations.StiStoresMinimalString := by
  intro rs1 s
  refine ⟨?_, exec_sti_of_absent, fun z => exec_sti_of_neg, fun v hs hv => ?_, by decide, by decide, by decide⟩
  · simpa [Instr.raw, Mnemonic.opcode] using decode_fields (.sti rs1)
  · obtain ⟨width, room, -⟩ := length_intToBytes_le hs.params_legal (hs.nat_lt hv)
    obtain ⟨t, run, stored⟩ := hs.exists_exec_sti_stored hv
    exact ⟨⟨t, run, stored, State.rflags_congr stored.regs⟩, beInt_intToBytes v,
      fun h => h ▸ intToBytes_zero, exists_intToBytes_eq_cons, width, room⟩

/-- Settles O7: the store of the magnitude leaves the source and so its `NEG` flag. -/
theorem stmStoresMagnitude : Obligations.StmStoresMagnitude := by
  intro rs1 s
  refine ⟨?_, exec_stm_of_absent, fun z hs hz => ?_, fun v hv => ?_, by decide⟩
  · simpa [Instr.raw, Mnemonic.opcode] using decode_fields (.stm rs1)
  · have stored := State.stored_succeed_intToBytes hs.params_legal (hs.regs_fit rs1 z hz)
    have flags := State.rflags_congr stored.regs
    refine ⟨_, exec_stm_of_int hz, stored, flags, ?_, ?_⟩
    · rw [stored.memRead, beInt_intToBytes]
    · rw [flags, s.rflags_bit rs1 (by decide), BigValue.nibble_sign, hz]
      simp
  · rw [exec_stm_of_int hv, exec_sti_of_nat hv, Int.natAbs_natCast]

/-- Settles O11: a stored minimal string loads back, and the minimal string of a loaded value is the string without its
leading zero bytes. -/
theorem codecRoundTrips : Obligations.CodecRoundTrips := by
  refine ⟨fun s r q v hs hv => ?_, fun s r hs short narrow => ?_, fun s r q v hs hv => ?_⟩
  · obtain ⟨t, run, stored⟩ := hs.exists_exec_sti_stored hv
    have ok := stored.loadOperand hs.params_legal (hs.nat_lt hv)
    exact ⟨t, _, run, exec_ldi_of_ok ok q, rfl, t.wrote_reg_same q _⟩
  · obtain ⟨u, run, stored⟩ :=
      exists_exec_sti_stored (s := s.wrote r _) hs.params_legal (s.wrote_reg_same r _) narrow
    refine ⟨_, u, exec_ldi_of_ok (State.loadOperand_ok short narrow) r, run, stored.done, ?_⟩
    rw [stored.memRead, intToBytes_beInt]
  · obtain ⟨t, run, stored⟩ := hs.exists_exec_sti_stored hv
    have ok := stored.loadOperand hs.params_legal (hs.nat_lt hv)
    have positive : 1 ≤ t.len.toNat := by rw [stored.len, length_intToBytes]; exact bytelen_pos v
    have nonempty : t.len ≠ 0#32 := fun h => by simp [h] at positive
    exact ⟨t, _, run, (exec_ldo_of_len_ne_zero nonempty q).trans (exec_ldi_of_ok ok q), positive,
      t.wrote_reg_same q _⟩

/-- Settles O12: both the bytes and the padded digits are read off the value by position. -/
theorem minimalStringIsPaddedHexDigits : Obligations.MinimalStringIsPaddedHexDigits :=
  fun v => ⟨length_padEven_hexDigits v, fun _ => getElem?_intToBytes v⟩

end Sys2Proof.Machine
end

section
/-! SUPPORT. The triple of `xeuclid` (41_modular_arithmetic.md R121, R126): the pairs where one operand divides the
other, the signs of the coefficients, and the residue of the first one as an inverse. -/

namespace Sys2Proof.Machine

open Sys2Proof

/-! The loop. -/

@[simp] theorem xeuclidLoop_zero (fuel r0 : Nat) (s0 s1 t0 t1 : Int) :
    xeuclidLoop fuel r0 0 s0 s1 t0 t1 = (s0, t0, r0) := by
  cases fuel <;> simp [xeuclidLoop]

theorem xeuclidLoop_succ (fuel r0 : Nat) {r1 : Nat} (h : 0 < r1) (s0 s1 t0 t1 : Int) :
    xeuclidLoop (fuel + 1) r0 r1 s0 s1 t0 t1 =
      xeuclidLoop fuel r1 (r0 % r1) s1 (s0 - (r0 / r1 : Nat) * s1) t1 (t0 - (r0 / r1 : Nat) * t1) :=
  if_neg (Nat.ne_of_gt h)

/-- One iteration: the second operand is the last remainder that is not zero. -/
theorem xeuclid_of_dvd {n m : Nat} (hm : 0 < m) (h : m ∣ n) : xeuclid n m = (0, 1, m) := by
  obtain ⟨fuel, hfuel⟩ := Nat.exists_eq_add_one.2 hm
  calc xeuclid n m = xeuclidLoop (fuel + 1) n m 1 0 0 1 := by rw [xeuclid, ← hfuel]
    _ = (0, 1, m) := by rw [xeuclidLoop_succ fuel n hm, Nat.mod_eq_zero_of_dvd h, xeuclidLoop_zero]

/-- Two iterations: the first one exchanges the operands. -/
theorem xeuclid_of_dvd_of_lt {n m : Nat} (hn : 0 < n) (h : n ∣ m) (hlt : n < m) : xeuclid n m = (1, 0, n) := by
  obtain ⟨fuel, hfuel⟩ := Nat.exists_eq_add_of_le (show 2 ≤ m by omega)
  calc xeuclid n m = xeuclidLoop (fuel + 1 + 1) n m 1 0 0 1 := by rw [xeuclid, show fuel + 1 + 1 = m by omega]
    _ = xeuclidLoop (fuel + 1) m n 0 1 1 0 := by
      rw [xeuclidLoop_succ _ n (hn.trans hlt), Nat.mod_eq_of_lt hlt, Nat.div_eq_of_lt hlt]
      simp
    _ = (1, 0, n) := by rw [xeuclidLoop_succ fuel m hn, Nat.mod_eq_zero_of_dvd h, xeuclidLoop_zero]

/-! The coefficients. -/

/-- The signs that the loop carries along (R127). -/
theorem xeuclid_opposite_signs (n m : Nat) :
    (0 ≤ (xeuclid n m).1 ∧ (xeuclid n m).2.1 ≤ 0) ∨ ((xeuclid n m).1 ≤ 0 ∧ 0 ≤ (xeuclid n m).2.1) := by
  obtain ⟨_, _, h, _⟩ := xeuclidLoop_spec m (Nat.le_refl m) (EuclidInv.start n m)
  exact h.sign.imp (fun ⟨hx, _, hy, _⟩ => ⟨hx, hy⟩) (fun ⟨hx, _, hy, _⟩ => ⟨hx, hy⟩)

theorem xeuclid_fst_mul_modEq (n m : Nat) : (xeuclid n m).1 * n ≡ Nat.gcd n m [ZMOD m] := by
  obtain ⟨bezout, gcd⟩ := xeuclid_spec n m
  rw [← gcd, ← bezout]
  exact Int.modEq_iff_dvd.2 ⟨(xeuclid n m).2.1, by ring⟩

/-- A first coefficient that the second operand divides leaves the greatest common divisor to the second one. -/
theorem dvd_of_dvd_xeuclid_fst {n m : Nat} (h : (m : Int) ∣ (xeuclid n m).1) : m ∣ n := by
  have zero : (xeuclid n m).1 * n ≡ 0 [ZMOD m] := Int.modEq_zero_iff_dvd.2 (h.mul_right _)
  have gcd := Int.modEq_zero_iff_dvd.1 ((xeuclid_fst_mul_modEq n m).symm.trans zero)
  exact (Int.natCast_dvd_natCast.1 gcd).trans (Nat.gcd_dvd_left n m)

theorem xeuclid_fst_eq_zero_iff {n m : Nat} (hm : 0 < m) : (xeuclid n m).1 = 0 ↔ m ∣ n :=
  ⟨fun h => dvd_of_dvd_xeuclid_fst (by simp [h]), fun h => by rw [xeuclid_of_dvd hm h]⟩

theorem dvd_iff_eq_one_of_coprime {n m : Nat} (coprime : Nat.gcd n m = 1) : m ∣ n ↔ m = 1 := by
  rw [← Nat.gcd_eq_right_iff_dvd, coprime, eq_comm]

/-- `-m < x < m` and `x` is not 0, so `(x + m) mod m` is `x` or `x + m` and is in `1 .. m-1` (R125, R126 item 3). -/
theorem xeuclid_residue {n m : Nat} (hn : 0 < n) (coprime : Nat.gcd n m = 1) (hm : 1 < m) :
    ((xeuclid n m).1 + m) % m = (if 0 < (xeuclid n m).1 then (xeuclid n m).1 else (xeuclid n m).1 + m) ∧
      0 < ((xeuclid n m).1 + m) % m ∧ ((xeuclid n m).1 + m) % m < m := by
  have indivisible : ¬ (m : Int) ∣ (xeuclid n m).1 := fun h =>
    Nat.ne_of_gt hm ((dvd_iff_eq_one_of_coprime coprime).1 (dvd_of_dvd_xeuclid_fst h))
  have bound : (xeuclid n m).1.natAbs ≤ m := by
    simpa [coprime] using (xeuclid_bounds hn (by omega : 0 < m)).1
  have ne_zero : (xeuclid n m).1 ≠ 0 := fun h => indivisible (by simp [h])
  have ne_m : (xeuclid n m).1 ≠ m := fun h => indivisible (by simp [h])
  have ne_neg_m : (xeuclid n m).1 ≠ -m := fun h => indivisible (by simp [h])
  rw [Int.add_emod_right]
  split
  · rw [Int.emod_eq_of_lt] <;> omega
  · rw [← Int.add_emod_right, Int.emod_eq_of_lt] <;> omega

/-- A natural number with the residue of the first coefficient is an inverse (R126 item 4). -/
theorem mul_mod_eq_one_of_xeuclid_residue {n m v : Nat} (coprime : Nat.gcd n m = 1) (hm : 1 < m)
    (hv : (v : Int) = ((xeuclid n m).1 + m) % m) : v * n % m = 1 := by
  have residue : (v : Int) ≡ (xeuclid n m).1 [ZMOD m] := by
    rw [hv, Int.add_emod_right]
    exact Int.mod_modEq _ _
  have inverse : ((v * n : Nat) : Int) ≡ (1 : Nat) [ZMOD m] := by
    rw [← coprime, Nat.cast_mul]
    exact (residue.mul_right n).trans (xeuclid_fst_mul_modEq n m)
  calc v * n % m = 1 % m := Int.natCast_modEq_iff.1 inverse
    _ = 1 := Nat.mod_eq_of_lt hm

/-- An inverse below the modulus is unique (R126 item 6). -/
theorem eq_of_mul_mod_eq_one {n m v w : Nat} (coprime : Nat.gcd n m = 1) (hv : v < m) (hw : w < m)
    (hvn : v * n % m = 1) (hwn : w * n % m = 1) : v = w := by
  have same : v * n ≡ w * n [MOD m] := hvn.trans hwn.symm
  exact (same.cancel_right_of_coprime (Nat.gcd_comm n m ▸ coprime)).eq_of_lt_of_lt hv hw

end Sys2Proof.Machine
end

section
/-! SUPPORT. The completion of the Euclid family by what the positive pair is (41_modular_arithmetic.md R120 to
R125). -/

namespace Sys2Proof.Machine

open Sys2Proof

variable {s : State} {rs1 rs2 : Reg}

/-- The four commands that share the operand check of R120. -/
def euclidFamily (rd rs1 rs2 : Reg) : List Instr :=
  [.egcd rs1 rs2, .gcd rd rs1 rs2, .lcm rd rs1 rs2, .modinv rd rs1 rs2]

theorem mem_euclidFamily {i : Instr} {rd : Reg} :
    i ∈ euclidFamily rd rs1 rs2 ↔
      i = .egcd rs1 rs2 ∨ i = .gcd rd rs1 rs2 ∨ i = .lcm rd rs1 rs2 ∨ i = .modinv rd rs1 rs2 := by
  simp [euclidFamily]

theorem exec_euclid_of_error {i : Instr} {rd : Reg} {k : ErrorKind} (hi : i ∈ euclidFamily rd rs1 rs2)
    (h : s.positivePair rs1 rs2 = .error k) : exec i s = .next (s.failedWith k.code) := by
  apply exec_of_failure
  obtain rfl | rfl | rfl | rfl := mem_euclidFamily.1 hi
  · simp only [commandResult, egcdResult, h]
  · simp only [commandResult, gcdResult, h]
  · simp only [commandResult, lcmResult, h]
  · simp only [commandResult, modinvResult, h]

theorem exec_euclid_of_absent {i : Instr} {rd : Reg} (hi : i ∈ euclidFamily rd rs1 rs2)
    (h : s.reg rs1 = .absent ∨ s.reg rs2 = .absent) : exec i s = .next (s.failedWith 6#8) :=
  exec_euclid_of_error hi (State.positivePair_absent h)

theorem exec_euclid_of_not_positive {i : Instr} {rd : Reg} (hi : i ∈ euclidFamily rd rs1 rs2) (n m : Int)
    (h1 : s.reg rs1 = .int n) (h2 : s.reg rs2 = .int m) (h : n ≤ 0 ∨ m ≤ 0) :
    exec i s = .next (s.failedWith 7#8) :=
  exec_euclid_of_error hi (State.positivePair_domain h1 h2 h)

section
variable {n m : Nat} (h : s.positivePair rs1 rs2 = .ok (n, m))
include h

theorem commandResult_egcd_of_ok : commandResult (.egcd rs1 rs2) s =
    .success [.reg .x (.int (xeuclid n m).1), .reg .y (.int (xeuclid n m).2.1), .reg .g (.int (xeuclid n m).2.2)] := by
  rw [commandResult, egcdResult, h]

theorem commandResult_gcd_of_ok (rd : Reg) :
    commandResult (.gcd rd rs1 rs2) s = .success [.reg rd (.int (Nat.gcd n m : Nat))] := by
  rw [commandResult, gcdResult, h, ← (xeuclid_spec n m).2]

theorem commandResult_lcm_of_ok (rd : Reg) : commandResult (.lcm rd rs1 rs2) s =
    if fits s.params (Nat.lcm n m) then .success [.reg rd (.int (Nat.lcm n m : Nat))]
    else .failure .resultOverflow := by
  rw [commandResult, lcmResult, h, Nat.lcm, ← (xeuclid_spec n m).2]

theorem commandResult_modinv_of_ok (rd : Reg) : commandResult (.modinv rd rs1 rs2) s =
    if Nat.gcd n m ≠ 1 ∨ (xeuclid n m).1 = 0 then .failure .noInverse
    else .success [.reg rd (.int (((xeuclid n m).1 + m) % m))] := by
  simp only [commandResult, modinvResult, h, (xeuclid_spec n m).2, ite_or]

/-- With two positive operands only an inverse or the room for a result can be missing (R124, R125). -/
theorem euclid_failure_kind {i : Instr} {rd : Reg} {k : ErrorKind} (hi : i ∈ euclidFamily rd rs1 rs2)
    (failed : commandResult i s = .failure k) : k = .resultOverflow ∨ k = .noInverse := by
  obtain rfl | rfl | rfl | rfl := mem_euclidFamily.1 hi
  · rw [commandResult_egcd_of_ok h] at failed
    cases failed
  · rw [commandResult_gcd_of_ok h] at failed
    cases failed
  · rw [commandResult_lcm_of_ok h] at failed
    split at failed <;> cases failed
    exact .inl rfl
  · rw [commandResult_modinv_of_ok h] at failed
    split at failed <;> cases failed
    exact .inr rfl

/-- `EGCD` completes with its three writes (R122). -/
theorem exec_egcd_of_ok : exec (.egcd rs1 rs2) s = .next
    { s with
      regs := ((s.regs.set .x (.int (xeuclid n m).1)).set .y (.int (xeuclid n m).2.1)).set .g (.int (xeuclid n m).2.2)
      done := true
      phase := .idle } := by
  rw [exec_eq, commandResult_egcd_of_ok h]
  rfl

theorem exec_gcd_of_ok (rd : Reg) : exec (.gcd rd rs1 rs2) s = .next (s.wrote rd (.int (Nat.gcd n m : Nat))) :=
  exec_of_success_reg (commandResult_gcd_of_ok h rd)

theorem exec_lcm_of_overflow (rd : Reg) (wide : 2 ^ s.params.nbits ≤ Nat.lcm n m) :
    exec (.lcm rd rs1 rs2) s = .next (s.failedWith 8#8) :=
  exec_of_failure ((commandResult_lcm_of_ok h rd).trans (if_neg (mt (fits_iff _ _).1 (Nat.not_lt.2 wide))))

theorem exec_lcm_of_fits (rd : Reg) (narrow : Nat.lcm n m < 2 ^ s.params.nbits) :
    exec (.lcm rd rs1 rs2) s = .next (s.wrote rd (.int (Nat.lcm n m : Nat))) :=
  exec_of_success_reg ((commandResult_lcm_of_ok h rd).trans (if_pos ((fits_iff _ _).2 narrow)))

theorem exec_modinv_of_noInverse (rd : Reg) (missing : Nat.gcd n m ≠ 1 ∨ (xeuclid n m).1 = 0) :
    exec (.modinv rd rs1 rs2) s = .next (s.failedWith 4#8) :=
  exec_of_failure ((commandResult_modinv_of_ok h rd).trans (if_pos missing))

theorem exec_modinv_of_coprime (rd : Reg) (coprime : Nat.gcd n m = 1) (nonzero : (xeuclid n m).1 ≠ 0) :
    exec (.modinv rd rs1 rs2) s = .next (s.wrote rd (.int (((xeuclid n m).1 + m) % m))) :=
  exec_of_success_reg ((commandResult_modinv_of_ok h rd).trans (if_neg (not_or.2 ⟨not_not.2 coprime, nonzero⟩)))

end

/-- The flags of a register that a command leaves with a positive value (R35). -/
theorem State.wrote_flagNibble_pos (s : State) (r : Reg) {v : Nat} (hv : 0 < v) :
    (s.wrote r (.int v)).flagNibble r = 0b0001#4 := by
  rw [State.wrote_flagNibble, BigValue.nibble_pos (by omega)]

end Sys2Proof.Machine
end

section
/-! PROOFS. The modular arithmetic commands (41_modular_arithmetic.md R120 to R125). -/

namespace Sys2Proof.Machine

open Sys2Proof

/-- Settles O14: the two errors are those of the shared check, and past it a command of the family fails only for
want of an inverse or of room. -/
theorem euclidOperandsAreCheckedInOrder : Obligations.EuclidOperandsAreCheckedInOrder := by
  intro rd rs1 rs2 s i hi
  refine ⟨exec_euclid_of_absent hi, exec_euclid_of_not_positive hi, ?_⟩
  intro n m t h1 h2 hn hm noErr run failed
  obtain ⟨n, rfl⟩ := Int.eq_ofNat_of_zero_le hn.le
  obtain ⟨m, rfl⟩ := Int.eq_ofNat_of_zero_le hm.le
  have pair := State.positivePair_ok h1 h2 (Int.natCast_pos.1 hn) (Int.natCast_pos.1 hm)
  rw [exec_eq] at run
  cases run
  cases result : commandResult i s with
  | success writes => simp [result, noErr] at failed
  | failure k => obtain rfl | rfl := euclid_failure_kind pair hi result <;> simp [ErrorKind.code]

/-- Settles O15: the completion is one state with three register writes, and what is claimed of the triple is what the
loop of `xeuclid` keeps. -/
theorem egcdWritesBezoutTriple : Obligations.EgcdWritesBezoutTriple := by
  intro rs1 rs2 s n m
  have hi : Instr.egcd rs1 rs2 ∈ euclidFamily .x rs1 rs2 := mem_euclidFamily.2 (.inl rfl)
  have gcd_pos (hn : 0 < n) : 0 < (xeuclid n m).2.2 := by
    rw [(xeuclid_spec n m).2]
    exact Nat.gcd_pos_of_pos_left m hn
  refine ⟨?_, exec_euclid_of_absent hi, exec_euclid_of_not_positive hi,
    fun hn hm h1 h2 => exec_egcd_of_ok (State.positivePair_ok h1 h2 hn hm),
    fun t hn hm h1 h2 run => ?_, fun hn hm => ?_, by decide⟩
  · simpa [Instr.raw, Mnemonic.opcode] using decode_fields (.egcd rs1 rs2)
  · rw [exec_egcd_of_ok (State.positivePair_ok h1 h2 hn hm)] at run
    cases run
    have positive := BigValue.nibble_pos (Int.natCast_pos.2 (gcd_pos hn))
    exact ⟨(State.rflags_nibble _ .g).trans positive, State.rflags_nibble _ .x, State.rflags_nibble _ .y⟩
  · obtain ⟨bezout, gcd⟩ := xeuclid_spec n m
    obtain ⟨boundX, boundY⟩ := xeuclid_bounds hn hm
    rw [← gcd] at boundX boundY
    refine ⟨bezout, gcd, gcd_pos hn, boundX, boundY, ?_, ?_, ?_, xeuclid_of_dvd hm, xeuclid_of_dvd_of_lt hn, ?_⟩
    · rintro rfl
      exact xeuclid_of_dvd hm (Nat.dvd_refl n)
    · rintro rfl
      exact xeuclid_of_dvd hm (Nat.one_dvd n)
    · rintro rfl hlt
      exact xeuclid_of_dvd_of_lt hn (Nat.one_dvd m) hlt
    · intro _ hx hy
      have := xeuclid_opposite_signs n m
      omega

/-- Settles O16: the third component of the triple is the greatest common divisor, whichever operand comes first. -/
theorem gcdWritesGreatestCommonDivisor : Obligations.GcdWritesGreatestCommonDivisor := by
  intro rd rs1 rs2 s
  have hi : Instr.gcd rd rs1 rs2 ∈ euclidFamily rd rs1 rs2 := mem_euclidFamily.2 (.inr (.inl rfl))
  refine ⟨?_, exec_euclid_of_absent hi, exec_euclid_of_not_positive hi, fun n m hn hm h1 h2 => ?_⟩
  · simpa [Instr.raw, Mnemonic.opcode] using decode_fields (.gcd rd rs1 rs2)
  · have run := exec_gcd_of_ok (State.positivePair_ok h1 h2 hn hm) rd
    have exchanged := exec_gcd_of_ok (State.positivePair_ok h2 h1 hm hn) rd
    refine ⟨run, s.wrote_flagNibble_pos rd (Nat.gcd_pos_of_pos_left m hn), ?_⟩
    rw [run, exchanged, Nat.gcd_comm]

/-- Settles O17: the quotient of `n * m` by the third component is the least common multiple, and the check of its
width is the comparison with `2^NBITS`. -/
theorem lcmWritesLeastCommonMultiple : Obligations.LcmWritesLeastCommonMultiple := by
  intro rd rs1 rs2 s
  have hi : Instr.lcm rd rs1 rs2 ∈ euclidFamily rd rs1 rs2 := mem_euclidFamily.2 (.inr (.inr (.inl rfl)))
  refine ⟨?_, exec_euclid_of_absent hi, exec_euclid_of_not_positive hi, fun n m hn hm h1 h2 => ?_⟩
  · simpa [Instr.raw, Mnemonic.opcode] using decode_fields (.lcm rd rs1 rs2)
  · have pair := State.positivePair_ok h1 h2 hn hm
    rw [(xeuclid_spec n m).2]
    refine ⟨exec_lcm_of_overflow pair rd,
      fun narrow => ⟨exec_lcm_of_fits pair rd narrow, s.wrote_flagNibble_pos rd (Nat.lcm_pos hn hm)⟩, ?_, rfl, ?_⟩
    · exact Nat.mod_eq_zero_of_dvd ((Nat.gcd_dvd_left n m).mul_right m)
    · rw [Nat.mul_comm, Nat.gcd_mul_lcm]

/-- Settles O18: the residue of the first coefficient lies in `1 .. m-1` and is an inverse there, and there is only
one. -/
theorem modinvWritesTheInverse : Obligations.ModinvWritesTheInverse := by
  intro rd rs1 rs2 s
  have hi : Instr.modinv rd rs1 rs2 ∈ euclidFamily rd rs1 rs2 := mem_euclidFamily.2 (.inr (.inr (.inr rfl)))
  refine ⟨?_, exec_euclid_of_absent hi, exec_euclid_of_not_positive hi, fun n m hn hm h1 h2 => ?_⟩
  · simpa [Instr.raw, Mnemonic.opcode] using decode_fields (.modinv rd rs1 rs2)
  · have pair := State.positivePair_ok h1 h2 hn hm
    have zero_iff (coprime : Nat.gcd n m = 1) : (xeuclid n m).1 = 0 ↔ m = 1 :=
      (xeuclid_fst_eq_zero_iff hm).trans (dvd_iff_eq_one_of_coprime coprime)
    refine ⟨fun common => exec_modinv_of_noInverse pair rd (.inl common), zero_iff,
      fun one => exec_modinv_of_noInverse pair rd (.inr ((zero_iff (one ▸ Nat.gcd_one_right n)).2 one)),
      fun coprime hlt => ?_⟩
    obtain ⟨value, positive, below⟩ := xeuclid_residue hn coprime hlt
    obtain ⟨v, hv⟩ := Int.eq_ofNat_of_zero_le positive.le
    have run := exec_modinv_of_coprime pair rd coprime fun h => Nat.ne_of_gt hlt ((zero_iff coprime).1 h)
    have inverse := mul_mod_eq_one_of_xeuclid_residue coprime hlt hv.symm
    rw [hv] at run value positive below
    have hvm : v < m := Int.ofNat_lt.1 below
    have hv0 : 0 < v := Int.natCast_pos.1 positive
    exact ⟨v, run, hv.symm, value, hv0, hvm, inverse,
      fun w hw hwn => eq_of_mul_mod_eq_one coprime hw hvm hwn inverse, s.wrote_flagNibble_pos rd hv0⟩

end Sys2Proof.Machine
end

section
/-! SUPPORT. The powers of `n - 1` modulo `n` (42_rsa_transform.md R146). -/

namespace Sys2Proof.Machine

open Sys2Proof

/-- `n - 1` is `-1` modulo `n`, so its square is 1 there. -/
theorem pred_sq_modEq_one {n : Nat} (hn : 2 ≤ n) : (n - 1) ^ 2 ≡ 1 [MOD n] := by
  obtain ⟨m, rfl⟩ := Nat.exists_eq_add_of_le' hn
  have square : (m + 2 - 1) ^ 2 = (m + 2) * m + 1 := by
    rw [show m + 2 - 1 = m + 1 from rfl]
    ring
  rw [square, Nat.ModEq, Nat.mul_add_mod]

/-- Of a power of `n - 1` only the parity of the exponent is left modulo `n` (R146). -/
theorem pred_pow_mod {n : Nat} (hn : 2 < n) (e : Nat) : (n - 1) ^ e % n = if e % 2 = 1 then n - 1 else 1 := by
  have parity : (n - 1) ^ e ≡ (n - 1) ^ (e % 2) [MOD n] := by
    calc (n - 1) ^ e = ((n - 1) ^ 2) ^ (e / 2) * (n - 1) ^ (e % 2) := by rw [← pow_mul, ← pow_add, Nat.div_add_mod]
      _ ≡ 1 ^ (e / 2) * (n - 1) ^ (e % 2) [MOD n] := ((pred_sq_modEq_one hn.le).pow _).mul_right _
      _ = (n - 1) ^ (e % 2) := by rw [one_pow, one_mul]
  rw [show (n - 1) ^ e % n = (n - 1) ^ (e % 2) % n from parity]
  obtain even | odd := Nat.mod_two_eq_zero_or_one e
  · rw [even, pow_zero, if_neg zero_ne_one, Nat.mod_eq_of_lt (by omega)]
  · rw [odd, pow_one, if_pos rfl, Nat.mod_eq_of_lt (by omega)]

end Sys2Proof.Machine
end

section
/-! SUPPORT. The completion of the transforms by what their operands are (42_rsa_transform.md R141, R142); that of a
failing check of `PRV` is `exec_prv_of_error`. -/

namespace Sys2Proof.Machine

open Sys2Proof

variable {s : State} {rs1 : Reg} {b n e : Nat}

theorem exec_pub_of_error {k : ErrorKind} (h : s.publicOperands rs1 = .error k) (rd : Reg) :
    exec (.pub rd rs1) s = .next (s.failedWith k.code) :=
  exec_of_failure (by rw [commandResult, pubResult, h])

theorem exec_pub_of_ok (h : s.publicOperands rs1 = .ok (b, n, e)) (rd : Reg) :
    exec (.pub rd rs1) s = .next (s.wrote rd (.int (b ^ e % n : Nat))) :=
  exec_of_success_reg (by rw [commandResult, pubResult, h, ← modexp_eq])

theorem exec_prv_of_ok (h : s.privateOperands rs1 = .ok (b, n, e)) (rd : Reg) :
    exec (.prv rd rs1) s = .next (s.wrote rd (.int (b ^ e % n : Nat))) :=
  exec_of_success_reg (by rw [commandResult, prvResult, h, ← modexp_eq])

/-- The flags of a register that a command leaves with a natural value (R35). -/
theorem State.wrote_flagNibble_nat (s : State) (r : Reg) (v : Nat) :
    (s.wrote r (.int v)).flagNibble r = if v = 0 then 0b0101#4 else 0b0001#4 := by
  rw [State.wrote_flagNibble, BigValue.nibble_nat]

end Sys2Proof.Machine
end

section
/-! PROOFS. The RSA transforms (42_rsa_transform.md R141, R142, R146). -/

namespace Sys2Proof.Machine

open Sys2Proof

/-- Settles O20: each clause is one outcome of the operand check of R141. -/
theorem pubComputesThePublicTransform : Obligations.PubComputesThePublicTransform := by
  intro rd rs1 s
  refine ⟨?_, fun absent => exec_pub_of_error (State.publicOperands_absent absent) rd,
    fun m n e hm hn he negative => exec_pub_of_error (State.publicOperands_domain hm hn he negative) rd,
    fun m n e hm hn he => ⟨fun large => ?_, fun small => ⟨?_, s.wrote_flagNibble_nat rd _⟩⟩⟩
  · simpa [Instr.raw, Mnemonic.opcode] using decode_fields (.pub rd rs1)
  · exact exec_pub_of_error (State.publicOperands_tooLarge hm hn he large) rd
  · exact exec_pub_of_ok (State.publicOperands_ok hm hn he small) rd

/-- Settles O21: each clause is one outcome of the operand check of R142, where `D` is missed only after the size of
the input is found right. -/
theorem prvComputesThePrivateTransform : Obligations.PrvComputesThePrivateTransform := by
  intro rd rs1 s
  refine ⟨?_, fun absent => exec_prv_of_error (State.privateOperands_absent absent) rd,
    fun c n hc hn negative => exec_prv_of_error (State.privateOperands_domain hc hn negative) rd,
    fun c n hc hn domain => ⟨fun large => ?_, fun small missing => ?_,
      fun d small hd => ⟨?_, s.wrote_flagNibble_nat rd _⟩⟩⟩
  · simpa [Instr.raw, Mnemonic.opcode] using decode_fields (.prv rd rs1)
  · exact exec_prv_of_error (State.privateOperands_tooLarge hc hn domain large) rd
  · exact exec_prv_of_error (State.privateOperands_missing hc hn missing small) rd
  · exact exec_prv_of_ok (State.privateOperands_ok hc hn hd small) rd

/-- Settles O22: `modexp` is the power modulo `n`, whatever the parity of `n`, so each row is one about powers. -/
theorem modexpCornerValues : Obligations.ModexpCornerValues := by
  refine ⟨fun b n hn => ?exponentZero, fun e => ?modulusOne, fun e n _ he => ?baseZero, fun e n hn => ?baseOne,
    fun e n hn => ?basePred, fun b n hb => ?exponentOne, fun b e n _ _ => modexp_eq b e n⟩ <;> rw [modexp_eq]
  case exponentZero => rw [pow_zero, Nat.mod_eq_of_lt hn]
  case modulusOne => exact Nat.mod_one _
  case baseZero => rw [zero_pow (by omega), Nat.zero_mod]
  case baseOne => rw [one_pow, Nat.mod_eq_of_lt hn]
  case basePred => exact pred_pow_mod hn e
  case exponentOne => rw [pow_one, Nat.mod_eq_of_lt hb]

end Sys2Proof.Machine
end

section
/-! SUPPORT. A failure by its kind (60_exceptions.md R171, R175): the codes tell the kinds apart, and a completion that
looks like a failure of some kind is one, because `DONE` and `ERR` are never set together. What a command word does to
an engine that is ready for one, and at completion when it is illegal (R177, 30_encoding.md R76). -/

namespace Sys2Proof.Machine

open Sys2Proof

theorem ErrorKind.code_injective {k k' : ErrorKind} (h : k.code = k'.code) : k = k' := by
  revert h
  cases k <;> cases k' <;> decide

/-- The codes are 1 to 9 (R171). -/
theorem ErrorKind.code_range (k : ErrorKind) : k.code ≠ 0#8 ∧ k.code ≤ 9#8 := by cases k <;> decide

theorem commandResult_of_exec_eq_fail {i : Instr} {s : State} {k : ErrorKind} (hs : s.Inv)
    (h : exec i s = .next (s.fail k)) : commandResult i s = .failure k := by
  rw [exec_eq, Host.Outcome.next.injEq] at h
  cases result : commandResult i s with
  | success writes =>
    rw [result, State.finish_success] at h
    have done : true = s.done := congrArg State.done h
    have err : s.err = true := by simpa using congrArg State.err h
    simp [hs.one_outcome done.symm] at err
  | failure k' =>
    rw [result, State.finish_failure] at h
    rw [ErrorKind.code_injective (congrArg State.errCode h)]

/-- A `CMD` write to an idle engine without a pending failure is accepted (10_state.md R38). -/
theorem State.does_cmd_of_idle {s : State} (out : s.resetLine = false) (idle : s.phase = .idle) (noErr : s.err = false)
    (w : Word) : s.Does (.wr CtrlReg.cmd.offset w) (s.accept w) :=
  (State.does_write_iff out .cmd w).2 (State.writeReg_cmd_of_idle idle noErr w).symm

/-- An illegal word in execution completes with the failure of code 5 (30_encoding.md R76). -/
theorem State.completes_of_illegal {s : State} (busy : s.phase = .busy) (out : s.resetLine = false)
    (illegal : ∃ e, decode s.cmdReg = .error e) : s.Completes (s.failedWith 5#8) := by
  obtain ⟨e, he⟩ := illegal
  exact (engineTurn_of_busy (s := s.before []) busy out).trans (complete_of_error he)

end Sys2Proof.Machine
end

section
/-! SUPPORT. The table of R173 from above (60_exceptions.md): what an operand form can answer with, and so what a
command can fail with, is listed for it. -/

namespace Sys2Proof.Machine

open Sys2Proof

section
variable {s : State} {rs1 rs2 : Reg} {k : ErrorKind}

theorem State.loadOperand_error_mem (h : s.loadOperand = .error k) : k ∈ raises .ldi := by
  obtain ⟨_, h'⟩ | ⟨_, _, h'⟩ | ⟨_, _, h'⟩ := s.loadOperand_cases <;> cases h.symm.trans h' <;> decide

theorem State.positivePair_error_mem (h : s.positivePair rs1 rs2 = .error k) : k ∈ raises .egcd := by
  obtain ⟨_, h'⟩ | ⟨_, _, _, _, _, h'⟩ | ⟨_, _, _, _, _, _, h'⟩ := s.positivePair_cases rs1 rs2 <;>
    cases h.symm.trans h' <;> decide

theorem State.publicOperands_error_mem (h : s.publicOperands rs1 = .error k) : k ∈ raises .pub := by
  obtain ⟨_, h'⟩ | ⟨_, _, _, _, _, _, _, h'⟩ | ⟨_, _, _, _, _, _, _, h'⟩ | ⟨_, _, _, _, _, _, _, h'⟩ :=
    s.publicOperands_cases rs1 <;> cases h.symm.trans h' <;> decide

theorem State.privateOperands_error_mem (h : s.privateOperands rs1 = .error k) : k ∈ raises .prv := by
  obtain ⟨_, h'⟩ | ⟨_, _, _, _, _, h'⟩ | ⟨_, _, _, _, _, h'⟩ | ⟨_, _, _, _, _, _, h'⟩ | ⟨_, _, _, _, _, _, _, h'⟩ :=
    s.privateOperands_cases rs1 <;> cases h.symm.trans h' <;> decide

/-- The errors of the shared check are listed for every command of the Euclid family (R120). -/
theorem raises_egcd_subset : raises .egcd ⊆ raises .lcm ∧ raises .egcd ⊆ raises .modinv := by decide

end

/-- A command fails only with a kind that the table lists for its mnemonic. -/
theorem mem_raises_of_failure {i : Instr} {s : State} {k : ErrorKind} (h : commandResult i s = .failure k) :
    k ∈ raises i.raw.mnemonic := by
  cases i with
  | ldi rd =>
    rw [commandResult, ldiResult] at h
    split at h <;> cases h
    next operand => exact State.loadOperand_error_mem operand
  | ldo rd =>
    rw [commandResult, ldoResult] at h
    split at h <;> cases h
    next operand => exact State.loadOperand_error_mem operand
  | sti rs1 =>
    rw [commandResult, stiResult] at h
    (repeat' split at h) <;> cases h <;> simp [Instr.raw, raises]
  | stm rs1 =>
    rw [commandResult, stmResult] at h
    split at h <;> cases h
    simp [Instr.raw, raises]
  | mov rd rs1 => cases h
  | clr rd => cases h
  | egcd rs1 rs2 =>
    rw [commandResult, egcdResult] at h
    split at h <;> cases h
    next pair => exact State.positivePair_error_mem pair
  | gcd rd rs1 rs2 =>
    rw [commandResult, gcdResult] at h
    split at h <;> cases h
    next pair => exact State.positivePair_error_mem pair
  | lcm rd rs1 rs2 =>
    cases pair : s.positivePair rs1 rs2 with
    | error k' =>
      rw [commandResult, lcmResult, pair] at h
      cases h
      exact raises_egcd_subset.1 (State.positivePair_error_mem pair)
    | ok operands =>
      rw [commandResult_lcm_of_ok pair] at h
      split at h <;> cases h
      simp [Instr.raw, raises]
  | modinv rd rs1 rs2 =>
    cases pair : s.positivePair rs1 rs2 with
    | error k' =>
      rw [commandResult, modinvResult, pair] at h
      cases h
      exact raises_egcd_subset.2 (State.positivePair_error_mem pair)
    | ok operands =>
      rw [commandResult_modinv_of_ok pair] at h
      split at h <;> cases h
      simp [Instr.raw, raises]
  | pub rd rs1 =>
    rw [commandResult, pubResult] at h
    split at h <;> cases h
    next operands => exact State.publicOperands_error_mem operands
  | prv rd rs1 =>
    rw [commandResult, prvResult] at h
    split at h <;> cases h
    next operands => exact State.privateOperands_error_mem operands

end Sys2Proof.Machine
end

section
/-! SUPPORT. The table of R173 from below (60_exceptions.md): for each kind one state of the invariant in which every
command that the table lists the kind for fails with it. -/

namespace Sys2Proof.Machine

open Sys2Proof

/-- An engine of the smallest width, out of reset, with operands `N`, `E`, `D`, `A`, `B` and a byte string. -/
def State.smallWith (n e d a b : BigValue) (len : Word) (buf : Memory) : State :=
  { State.resetOf ⟨1, 2⟩ with regs := ⟨n, e, d, a, b, .absent, .absent, .absent⟩, len := len, buf := buf }

theorem State.smallWith_inv {n e d a b : BigValue} {len : Word} {buf : Memory}
    (fit : ∀ v ∈ [n, e, d, a, b], v.InDomain ⟨1, 2⟩) (canonical : Memory.wf buf = true)
    (below : Memory.below 2 buf = true) : (State.smallWith n e d a b len buf).Inv where
  params_legal := (by decide : Params.legal ⟨1, 2⟩ = true)
  regs_fit := by
    intro r z hz
    cases r
    case n => exact fit n (by simp) z hz
    case e => exact fit e (by simp) z hz
    case d => exact fit d (by simp) z hz
    case a => exact fit a (by simp) z hz
    case b => exact fit b (by simp) z hz
    all_goals cases hz
  buf_canonical := canonical
  buf_below := below
  busy_clear := nofun
  one_outcome := nofun
  code_range := (by decide : 0#8 ≤ 9#8)
  failure_recorded := nofun
  held_in_reset := nofun
  draw_made := Nat.zero_lt_one

/-- A state in which the commands on the sources `A` and `B` that can fail with a kind do. Of `IllegalCommand` there is
none, since no command raises it. -/
def failingState : ErrorKind → State
  | .invalidInteger | .operandAbsent | .illegalCommand => .smallWith .absent .absent .absent .absent .absent 0 []
  | .dataTooLarge => .smallWith (.int 5) (.int 3) (.int 3) (.int 5) .absent 0 []
  | .missingPrivateComponent => .smallWith (.int 5) .absent .absent (.int 4) .absent 0 []
  | .noInverse => .smallWith .absent .absent .absent (.int 4) (.int 8) 0 []
  | .operandDomain => .smallWith (.int 5) (.int 3) (.int 3) (.int (-1)) (.int 1) 0 []
  | .resultOverflow => .smallWith .absent .absent .absent (.int 16) (.int 17) 2 [(0, 1), (1, 0)]
  | .bufferLength => .smallWith .absent .absent .absent .absent .absent 3 []

theorem failingState_inv (k : ErrorKind) : (failingState k).Inv := by
  cases k <;> refine State.smallWith_inv ?_ (by decide) (by decide) <;>
    simp [BigValue.InDomain, Params.nbits]

/-- Whatever the table lists for a mnemonic, some command of that mnemonic fails with. -/
theorem commandResult_failingState (m : Mnemonic) :
    ∀ k ∈ raises m, commandResult (.make m .x .a .b) (failingState k) = .failure k := by
  cases m <;> decide

end Sys2Proof.Machine
end

section
/-! PROOFS. Errors (60_exceptions.md R173, R175, R177). -/

namespace Sys2Proof.Machine

open Sys2Proof

/-- Settles O26: that only listed kinds are raised is a matter of what each command checks; that each listed kind is
raised is shown by one state for each kind. -/
theorem commandsRaiseTheListedErrors : Obligations.CommandsRaiseTheListedErrors := by
  refine ⟨fun m k => ⟨?_, fun listed => ?_⟩, fun m => ?_, fun s => State.completes_of_illegal⟩
  · rintro ⟨i, s, rfl, hs, run⟩
    exact mem_raises_of_failure (commandResult_of_exec_eq_fail hs run)
  · exact ⟨.make m .x .a .b, failingState k, by rw [Instr.raw_make], failingState_inv k,
      exec_of_failure (commandResult_failingState m k listed)⟩
  · cases m <;> decide

/-- Settles O27: a completion that sets `ERR` is no success, and every failure goes through the one entry of R175. -/
theorem failureChangesNothingElse : Obligations.FailureChangesNothingElse := by
  refine ⟨fun i s t noErr run failed => ?_, fun s => State.completes_of_illegal⟩
  cases result : commandResult i s with
  | success writes =>
    rw [exec_eq, result] at run
    cases run
    simp [noErr] at failed
  | failure k =>
    cases (exec_of_failure result).symm.trans run
    obtain ⟨nonzero, atMost⟩ := k.code_range
    exact ⟨nonzero, atMost, rfl⟩

/-- Settles O28: the acknowledging write changes only the three bits of `STATUS`, and with `ERR` clear an idle engine
accepts. -/
theorem acknowledgeIsTheReturnFromFailure : Obligations.AcknowledgeIsTheReturnFromFailure := by
  intro s v w out
  refine ⟨fun failed => ?_, fun bit => ?_, fun t reset => ?_, fun t bit reset => ?_⟩
  · have rejected : s.writeReg .cmd w = s.reject := if_pos (.inr failed)
    exact (State.does_write_iff out .cmd w).2 rejected.symm
  · have cleared : (s.acknowledge v).err = false := by simp [bit]
    exact ⟨s.acknowledge v, State.does_write out .status v, cleared, rfl, rfl, rfl, rfl, rfl,
      fun idle => State.does_cmd_of_idle (s := s.acknowledge v) out idle cleared w⟩
  · obtain rfl | rfl := State.eq_of_does_reset (.inl reset) <;> rfl
  · obtain rfl | rfl := State.eq_of_does_reset (.inr ⟨out, v, bit, reset⟩) <;> rfl

end Sys2Proof.Machine
end

section
/-! SUPPORT. Hard reset as a step, and what it holds off while asserted (70_reset_and_hazards.md R190 to R193): host
accesses change only the draws and the replies, the engine's turn changes nothing. -/

namespace Sys2Proof.Machine

open Sys2Proof

theorem State.does_assertReset_iff {s t : State} : s.Does .assertReset t ↔ t = s.assertReset := by
  rw [State.does_iff, hostTurn, Host.Outcome.next.injEq, eq_comm]

theorem State.does_releaseReset_iff {s t : State} : s.Does .releaseReset t ↔ t = s.releaseReset := by
  rw [State.does_iff, hostTurn, Host.Outcome.next.injEq, eq_comm]

/-- Asserting and releasing hard reset is the soft reset: only the reset input could differ (R192). -/
theorem State.releaseReset_assertReset {s : State} (out : s.resetLine = false) :
    s.assertReset.releaseReset = s.takeReset := by
  rw [State.takeReset, out]
  rfl

/-- Releasing hard reset leaves the values that were held (R190). -/
theorem State.Inv.releaseReset_eq {s : State} (hs : s.Inv) (held : s.resetLine = true) :
    s.releaseReset = { State.resetOf s.params with
      bufDraw := s.bufDraw, draws := s.draws, script := s.script, replies := s.replies } :=
  congrArg State.releaseReset (hs.held_in_reset held)

/-- With no command in execution the engine's turn changes nothing (R39, R184). -/
theorem State.completes_self_of_idle {s : State} (idle : s.phase = .idle) : s.Completes s :=
  (State.completes_iff s s).2 (if_neg fun ⟨busy, _⟩ => by simp [idle] at busy)

/-- While hard reset is asserted the engine's turn changes nothing (R190). -/
theorem State.completes_self_of_held {s : State} (held : s.resetLine = true) : s.Completes s :=
  (State.completes_iff s s).2 (if_neg fun ⟨_, out⟩ => by simp [held] at out)

/-- While hard reset is asserted a write of any width changes nothing, and a read only draws a value and hands it to the
host (R190). -/
theorem State.does_access_of_held {s : State} (held : s.resetLine = true) {op : HostOp}
    (access : plainAccess op = true ∨ ∃ v, op = .wr CtrlReg.ctrl.offset v) :
    (isRead op = false ∧ s.Does op s) ∨ ∃ r, s.Does op (s.draw.2.reply r) := by
  cases op with
  | wr off v => exact .inl ⟨rfl, congrArg Host.Outcome.next (if_pos held : s.write32 off v = s)⟩
  | wrb off v => exact .inl ⟨rfl, congrArg Host.Outcome.next (if_pos held : s.write8 off v = s)⟩
  | wrh off v => exact .inl ⟨rfl, congrArg Host.Outcome.next (if_pos held : s.write16 off v = s)⟩
  | rd off =>
    have drawn : s.read32 off = s.draw := if_pos held
    exact .inr ⟨.word s.draw.1, by rw [State.does_iff, hostTurn, drawn]⟩
  | rdb off =>
    have drawn : s.read8 off = s.draw8 := if_pos held
    exact .inr ⟨.byte s.draw8.1, by rw [State.does_iff, hostTurn, drawn]; rfl⟩
  | rdh off =>
    have drawn : s.read16 off = (s.draw.1.setWidth 16, s.draw.2) := if_pos held
    exact .inr ⟨.half (s.draw.1.setWidth 16), by rw [State.does_iff, hostTurn, drawn]⟩
  | assertReset | releaseReset | wait | check | getBytes | storeIfPresent _ | waitIrq =>
    -- no access of the host
    simp [plainAccess] at access

/-- A change that takes the engine from busy to idle is a completion or a reset (R39, R190, R192). -/
theorem State.Change.ends_of_busy {s t : State} (h : s.Change t) (busy : s.phase = .busy) (idle : t.phase = .idle) :
    t.done = true ∨ t.err = true ∨ t.Cleared := by
  cases h with
  | same | rejected | acknowledged | enables | length | byte | released => cases busy.symm.trans idle
  | accepted => cases idle
  | softReset => exact .inr (.inr s.takeReset_cleared)
  | hardReset => exact .inr (.inr s.assertReset_cleared)
  | illegal => exact .inr (.inl rfl)
  | completed _ _ i =>
    cases commandResult i s with
    | success writes => exact .inl rfl
    | failure k => exact .inr (.inl rfl)

end Sys2Proof.Machine
end

section
/-! PROOFS. Reset (70_reset_and_hazards.md R190, R192, R193). -/

namespace Sys2Proof.Machine

open Sys2Proof

/-- Settles O45: the reset input has one rule for each of its steps, and among the changes a step can make only a
completion and a reset take the engine from busy to idle. -/
theorem accessesInResetHaveNoEffect : Obligations.AccessesInResetHaveNoEffect := by
  refine ⟨fun s => ⟨s.draws, s.draws + 1, State.does_assertReset_iff.2 rfl⟩, fun s hs held => ⟨?_, ?_, ?_⟩, ?_⟩
  · intro op access
    obtain ⟨noRead, does⟩ | ⟨r, does⟩ := State.does_access_of_held held access
    · exact ⟨s, does, rfl, fun read => by simp [noRead] at read⟩
    · exact ⟨s.draw.2.reply r, does, rfl, fun _ => ⟨r, rfl⟩⟩
  · exact State.completes_self_of_held held
  · exact State.does_releaseReset_iff.2 (hs.releaseReset_eq held).symm
  · intro s t busy run idle
    obtain ⟨u, v, hv, change, hu⟩ := State.change_of_step run
    obtain done | err | cleared := change.ends_of_busy (hv.phase.trans busy) (hu.phase.symm.trans idle)
    · exact .inl (hu.done.trans done)
    · exact .inr (.inl (hu.err.trans err))
    · have regs (r : Reg) : t.reg r = u.reg r := congrArg (BigRegs.get · r) hu.regs
      exact .inr (.inr ⟨fun r => (regs r).trans (cleared.reg r), hu.cmdReg.trans cleared.cmdReg⟩)

/-- Settles O46: both ways the engine takes the same reset, and the reset input is low afterwards. -/
theorem softResetEqualsHardReset : Obligations.SoftResetEqualsHardReset := by
  intro s t u v out bit asserted released
  obtain rfl := State.does_assertReset_iff.1 asserted
  obtain rfl := State.does_releaseReset_iff.1 released
  rw [State.releaseReset_assertReset out, ← State.writeReg_ctrl_softReset s bit]
  exact State.does_write out .ctrl v

/-- Settles O47: either reset leaves the cleared engine, whose next turn finds no command in execution. -/
theorem resetAbandonsTheCommand : Obligations.ResetAbandonsTheCommand := by
  intro s t _ reset
  have cleared : t.Cleared := by
    obtain rfl | rfl := State.eq_of_does_reset reset
    · exact s.assertReset_cleared
    · exact s.takeReset_cleared
  exact ⟨cleared.phase, cleared.done, cleared.err, cleared.errCode, cleared.reg,
    State.completes_self_of_idle cleared.phase⟩

end Sys2Proof.Machine
end

section
/-! SUPPORT. The invariant in two parts, each about some of the fields only, so that a change of the other fields keeps
it as it stands: the operands (10_state.md R21, 20_memory.md R55), and the outcome of the last command (10_state.md R30,
60_exceptions.md R175). -/

namespace Sys2Proof.Machine

open Sys2Proof

/-- What the invariant says of the parameters, the big registers and the buffer list. -/
structure DataInv (p : Params) (x : BigRegs) (m : Memory) : Prop where
  legal : p.legal = true
  fit : ∀ r z, x.get r = .int z → z.natAbs < 2 ^ p.nbits
  canonical : Memory.wf m = true
  below : Memory.below p.bufBytes m = true

/-- What the invariant says of the phase, `DONE`, `ERR`, `ERRCODE`, `ERRCMD` and `CMDREG`. -/
structure StatusInv (phase : Phase) (done err : Bool) (code : Byte) (errCmd cmdReg : Word) : Prop where
  busy_clear : phase = .busy → done = false ∧ err = false
  one_outcome : done = true → err = false
  code_range : code ≤ 9#8
  failure_recorded : err = true → code ≠ 0#8 ∧ errCmd = cmdReg

/-- The values of 10_state.md R43 that stand while hard reset is asserted (70_reset_and_hazards.md R190). -/
def State.Held (s : State) : Prop :=
  s = { State.resetOf s.params with
    resetLine := true, bufDraw := s.bufDraw, draws := s.draws, script := s.script, replies := s.replies }

theorem State.inv_iff (s : State) :
    s.Inv ↔ DataInv s.params s.regs s.buf ∧ StatusInv s.phase s.done s.err s.errCode s.errCmd s.cmdReg ∧
      (s.resetLine = true → s.Held) ∧ s.bufDraw < s.draws :=
  ⟨fun h => ⟨⟨h.params_legal, h.regs_fit, h.buf_canonical, h.buf_below⟩,
      ⟨h.busy_clear, h.one_outcome, h.code_range, h.failure_recorded⟩, h.held_in_reset, h.draw_made⟩,
    fun ⟨data, status, held, drawn⟩ => ⟨data.legal, data.fit, data.canonical, data.below, status.busy_clear,
      status.one_outcome, status.code_range, status.failure_recorded, held, drawn⟩⟩

/-! The operands. -/

section
variable {p : Params} {x : BigRegs} {m : Memory}

theorem DataInv.cleared (legal : p.legal = true) :
    DataInv p ⟨.absent, .absent, .absent, .absent, .absent, .absent, .absent, .absent⟩ [] :=
  ⟨legal, fun r _ h => (by cases r <;> cases h), rfl, rfl⟩

theorem DataInv.setReg (h : DataInv p x m) (r : Reg) {v : BigValue} (hv : v.InDomain p) : DataInv p (x.set r v) m where
  legal := h.legal
  fit := fun q z hz => by
    rw [BigRegs.get_set] at hz
    split at hz
    · exact hv z hz
    · exact h.fit q z hz
  canonical := h.canonical
  below := h.below

theorem DataInv.writeByte (h : DataInv p x m) {k : Nat} (hk : k < p.bufBytes) (v : Byte) :
    DataInv p x (Memory.write m k v) :=
  ⟨h.legal, h.fit, Memory.wf_write h.canonical k v, Memory.below_write h.below hk v⟩

theorem DataInv.writeString (h : DataInv p x m) {bytes : List Byte} (fits : bytes.length ≤ p.bufBytes) :
    DataInv p x (Memory.writeAll m 0 bytes) :=
  ⟨h.legal, h.fit, Memory.wf_writeAll h.canonical 0 bytes, Memory.below_writeAll h.below (by omega)⟩

end

/-- A write that fits the width keeps the operands in their domains. -/
theorem State.dataInv_apply {s : State} (h : DataInv s.params s.regs s.buf) {w : Write} (fits : w.Fits s.params) :
    DataInv (s.apply w).params (s.apply w).regs (s.apply w).buf := by
  cases w with
  | reg r v => exact h.setReg r fits
  | string bytes =>
    obtain ⟨positive, room, _⟩ := (Params.legal_iff _).1 h.legal
    exact h.writeString (le_trans fits (by omega))

theorem State.dataInv_foldl_apply {s : State} (h : DataInv s.params s.regs s.buf) {ws : List Write}
    (fits : ∀ w ∈ ws, w.Fits s.params) :
    DataInv (ws.foldl State.apply s).params (ws.foldl State.apply s).regs (ws.foldl State.apply s).buf := by
  induction ws generalizing s with
  | nil => exact h
  | cons w ws ih =>
    have params : (s.apply w).params = s.params := s.foldl_apply_params [w]
    rw [List.forall_mem_cons] at fits
    exact ih (State.dataInv_apply h fits.1) (params ▸ fits.2)

/-- Every completion keeps the operands in their domains (R21, 41_modular_arithmetic.md R127). -/
theorem State.dataInv_finish {s : State} (h : DataInv s.params s.regs s.buf) (i : Instr) :
    DataInv (s.finish (commandResult i s)).params (s.finish (commandResult i s)).regs
      (s.finish (commandResult i s)).buf := by
  cases result : commandResult i s with
  | success ws => exact State.dataInv_foldl_apply h (commandResult_fits h.fit result)
  | failure k => exact h

/-- No kind of change takes an operand out of its domain. -/
theorem State.Change.dataInv {s t : State} (h : s.Change t) (hs : DataInv s.params s.regs s.buf) :
    DataInv t.params t.regs t.buf := by
  cases h with
  | same | rejected | acknowledged | enables | length | accepted | released | illegal => exact hs
  | byte _ _ k v lt => exact hs.writeByte lt v
  | softReset | hardReset => exact .cleared hs.legal
  | completed _ _ i => exact State.dataInv_finish hs i

/-! The outcome of the last command. -/

theorem StatusInv.cleared : StatusInv .idle false false 0#8 0#32 0#32 := ⟨nofun, nofun, by decide, nofun⟩

theorem StatusInv.failed (k : ErrorKind) (w : Word) : StatusInv .idle false true k.code w w :=
  ⟨nofun, nofun, k.code_range.2, fun _ => ⟨k.code_range.1, rfl⟩⟩

section
variable {s : State} (hs : StatusInv s.phase s.done s.err s.errCode s.errCmd s.cmdReg)
include hs

theorem State.statusInv_acknowledge (v : Word) :
    StatusInv s.phase (s.acknowledge v).done (s.acknowledge v).err s.errCode s.errCmd s.cmdReg where
  busy_clear busy := by simp [hs.busy_clear busy]
  one_outcome done := by
    rw [State.acknowledge_done, Bool.and_eq_true] at done
    simp [hs.one_outcome done.1]
  code_range := hs.code_range
  failure_recorded err := by
    rw [State.acknowledge_err, Bool.and_eq_true] at err
    exact hs.failure_recorded err.1

theorem State.statusInv_fail (busy : s.phase = .busy) (k : ErrorKind) :
    StatusInv .idle s.done true k.code s.cmdReg s.cmdReg := by
  rw [(hs.busy_clear busy).1]
  exact .failed k s.cmdReg

/-- A completion finds neither `DONE` nor `ERR` set and sets one of the two (R39). -/
theorem State.statusInv_finish (busy : s.phase = .busy) (r : Result) :
    StatusInv (s.finish r).phase (s.finish r).done (s.finish r).err (s.finish r).errCode (s.finish r).errCmd
      (s.finish r).cmdReg := by
  cases r with
  | failure k => exact State.statusInv_fail hs busy k
  | success ws =>
    have noErr : (s.succeed ws).err = false := (s.succeed_err ws).trans (hs.busy_clear busy).2
    rw [State.finish_success, noErr, State.succeed_errCode]
    exact ⟨nofun, fun _ => rfl, hs.code_range, nofun⟩

end

/-- No kind of change breaks what the status bits promise. -/
theorem State.Change.statusInv {s t : State} (h : s.Change t)
    (hs : StatusInv s.phase s.done s.err s.errCode s.errCmd s.cmdReg) :
    StatusInv t.phase t.done t.err t.errCode t.errCmd t.cmdReg := by
  cases h with
  | same | rejected | enables | length | byte | released => exact hs
  | acknowledged _ v => exact State.statusInv_acknowledge hs v
  | accepted _ _ clear w => exact ⟨fun _ => ⟨rfl, clear⟩, nofun, hs.code_range, fun err => by simp [clear] at err⟩
  | softReset | hardReset => exact .cleared
  | completed busy _ i => exact State.statusInv_finish hs busy (commandResult i s)
  | illegal busy => exact State.statusInv_fail hs busy .illegalCommand

/-! Hard reset, and the draw behind the buffer. -/

/-- While hard reset is asserted the engine is not changed, except by a hard reset (R190). -/
theorem State.Change.held {s t : State} (h : s.Change t) (hs : s.resetLine = true → s.Held)
    (ht : t.resetLine = true) : t.Held := by
  cases h with
  | same => exact hs ht
  | hardReset => rfl
  | released => cases ht
  | rejected out | acknowledged out | enables out | length out | byte out | accepted out | softReset out
  | illegal _ out => cases out.symm.trans ht
  | completed _ out => cases out.symm.trans ((State.finish_resetLine _ _).symm.trans ht)

theorem State.Change.draw_made {s t : State} (h : s.Change t) (hs : s.bufDraw < s.draws) : t.bufDraw < t.draws := by
  cases h with
  | same | rejected | acknowledged | enables | length | byte | accepted | released | illegal => exact hs
  | softReset | hardReset => exact Nat.lt_succ_self _
  | completed => rwa [State.finish_bufDraw, State.finish_draws]

/-! Changes of the engine and of its environment together. -/

theorem State.Change.inv {s t : State} (h : s.Change t) (hs : s.Inv) : t.Inv := by
  obtain ⟨data, status, held, drawn⟩ := s.inv_iff.1 hs
  exact t.inv_iff.2 ⟨h.dataInv data, h.statusInv status, h.held held, h.draw_made drawn⟩

theorem State.SameEngine.inv {s t : State} (h : s.SameEngine t) (hs : s.Inv) : t.Inv := by
  obtain ⟨data, status, held, drawn⟩ := s.inv_iff.1 hs
  rw [t.inv_iff, h.params, h.regs, h.buf, h.phase, h.done, h.err, h.errCode, h.errCmd, h.cmdReg, h.resetLine, h.bufDraw]
  refine ⟨data, status, fun ht => ?_, drawn.trans_le h.draws⟩
  have values : s = _ := held ht
  rw [State.Held, h.eq, values]
  rfl

theorem State.resetOf_inv {p : Params} (legal : p.legal = true) : (State.resetOf p).Inv :=
  (State.inv_iff _).2 ⟨.cleared legal, .cleared, nofun, Nat.zero_lt_one⟩

end Sys2Proof.Machine
end

section
/-! PROOFS. The invariant (10_state.md, 20_memory.md, 60_exceptions.md, 70_reset_and_hazards.md). -/

namespace Sys2Proof.Machine

open Sys2Proof

/-- Settles O54: a step is a change of the engine between two changes of its environment, and each kind of change keeps
the invariant. -/
theorem everyStepKeepsTheInvariant : Obligations.EveryStepKeepsTheInvariant := by
  intro s t hs run
  obtain ⟨u, v, hv, change, hu⟩ := State.change_of_step run
  exact hu.inv (change.inv (hv.inv hs))

/-- Settles O53: the open parameters are legal, and the reset values meet the invariant for any legal ones. -/
theorem invariantHoldsAtReset : Obligations.InvariantHoldsAtReset :=
  ⟨State.resetOf_inv Config.params_legal, fun _ => State.resetOf_inv⟩

end Sys2Proof.Machine
end

section
/-! SUPPORT. Byte strings by position (20_memory.md R54), and padded on the left (40_codec_load_store.md R109). -/

namespace Sys2Proof.Machine

open Sys2Proof

/-- The byte at index `k` of `len` weighs `256^(len-1-k)`: the first byte has the most weight, and each other one the
weight it has in the rest of the string. -/
theorem beInt_eq_sum (bytes : List Byte) :
    beInt bytes = ∑ k ∈ Finset.range bytes.length, (bytes.getD k 0#8).toNat * 256 ^ (bytes.length - 1 - k) := by
  induction bytes with
  | nil => rfl
  | cons b bytes ih =>
    have weight (k : Nat) : bytes.length + 1 - 1 - (k + 1) = bytes.length - 1 - k := by omega
    rw [beInt_cons, List.length_cons, Finset.sum_range_succ']
    simp only [List.getD_cons_succ, List.getD_cons_zero, weight]
    rw [← ih, Nat.add_comm]
    rfl

/-- `be_bytes(v, L)` is the one string of `L` bytes with value `v` (R9). -/
theorem eq_beBytes_iff {l v : Nat} (hv : v < 256 ^ l) (bytes : List Byte) :
    bytes = beBytes v l ↔ bytes.length = l ∧ beInt bytes = v := by
  constructor
  · rintro rfl
    exact ⟨length_beBytes v l, beInt_beBytes hv⟩
  · rintro ⟨rfl, rfl⟩
    exact (beBytes_beInt bytes).symm

@[simp] theorem beInt_padLeft (width : Nat) (bytes : List Byte) : beInt (padLeft width bytes) = beInt bytes :=
  beInt_zeros_append (by simp) bytes

theorem length_padLeft (width : Nat) (bytes : List Byte) : (padLeft width bytes).length = max width bytes.length := by
  rw [padLeft, List.length_append, List.length_replicate]
  omega

end Sys2Proof.Machine
end

section
/-! SUPPORT. The fuel of the loop of `xeuclid` (41_modular_arithmetic.md R128). -/

namespace Sys2Proof.Machine

open Sys2Proof

/-- The second remainder falls in every iteration, so any two amounts of fuel that are at least as large give the same
triple. -/
theorem xeuclidLoop_fuel {f g r1 : Nat} (hf : r1 ≤ f) (hg : r1 ≤ g) (r0 : Nat) (s0 s1 t0 t1 : Int) :
    xeuclidLoop f r0 r1 s0 s1 t0 t1 = xeuclidLoop g r0 r1 s0 s1 t0 t1 := by
  induction f generalizing g r0 r1 s0 s1 t0 t1 with
  | zero =>
    obtain rfl : r1 = 0 := Nat.le_zero.1 hf
    rw [xeuclidLoop_zero, xeuclidLoop_zero]
  | succ f ih =>
    obtain rfl | positive := Nat.eq_zero_or_pos r1
    · rw [xeuclidLoop_zero, xeuclidLoop_zero]
    · have falls : r0 % r1 < r1 := Nat.mod_lt r0 positive
      obtain ⟨g, rfl⟩ := Nat.exists_eq_add_one.2 (positive.trans_le hg)
      rw [xeuclidLoop_succ f r0 positive, xeuclidLoop_succ g r0 positive]
      exact ih (by omega) (by omega) _ _ _ _ _

end Sys2Proof.Machine
end

section
/-! PROOFS. Byte strings (00_scope.md R9, 20_memory.md R54, 40_codec_load_store.md R109) and the loop of `xeuclid`
(41_modular_arithmetic.md R128). -/

namespace Sys2Proof.Machine

open Sys2Proof

/-- Settles O10: the sum by the first byte and the rest, and both ways between a string and its value. -/
theorem byteStringsAreBigEndian : Obligations.ByteStringsAreBigEndian :=
  ⟨beInt_eq_sum, fun _ _ bytes hv => eq_beBytes_iff hv bytes⟩

/-- Settles O13: the padding is zero bytes in front, and `bytelen` is the least length that holds the value. -/
theorem leftPaddingKeepsTheValue : Obligations.LeftPaddingKeepsTheValue := by
  refine ⟨fun width bytes => ⟨beInt_padLeft width bytes, length_padLeft width bytes⟩, fun v k hk hv => ?_⟩
  have short : bytelen v ≤ k - 1 := (bytelen_le_iff v (by omega)).2 hv
  rw [length_intToBytes]
  omega

/-- Settles O19: fuel beyond the second operand is never used. -/
theorem euclidLoopEnds : Obligations.EuclidLoopEnds :=
  fun n m _ h => xeuclidLoop_fuel h (Nat.le_refl m) n 1 0 0 1

end Sys2Proof.Machine
end

section
/-! SUPPORT. Montgomery multiplication for an odd modulus (42_rsa_transform.md R147): what is divided by `R = 2^k` is a
multiple of it, the quotient is the product times the inverse of `R` modulo `n`, and one subtraction brings it below
`n`. -/

namespace Sys2Proof.Machine

open Sys2Proof

variable {k n : Nat}

theorem coprime_two_pow_of_odd (odd : n % 2 = 1) (k : Nat) : Nat.Coprime n (2 ^ k) :=
  (Nat.coprime_two_right.2 (Nat.odd_iff.2 odd)).pow_right k

/-- `n' * n = -1` modulo `R`. -/
theorem two_pow_dvd_montConstant (odd : n % 2 = 1) (k : Nat) : 2 ^ k ∣ montConstant k n * n + 1 := by
  have residue : (montConstant k n : Int) ≡ -(xeuclid n (2 ^ k)).1 [ZMOD (2 ^ k : Nat)] := by
    rw [montConstant, Int.toNat_of_nonneg (Int.emod_nonneg _ (by positivity))]
    exact Int.mod_modEq _ _
  have inverse := xeuclid_fst_mul_modEq n (2 ^ k)
  rw [coprime_two_pow_of_odd odd k] at inverse
  have sum : (montConstant k n * n + 1 : Int) ≡ 0 [ZMOD (2 ^ k : Nat)] := by
    calc (montConstant k n * n + 1 : Int)
        ≡ -(xeuclid n (2 ^ k)).1 * n + (xeuclid n (2 ^ k)).1 * n [ZMOD (2 ^ k : Nat)] :=
          (residue.mul_right n).add inverse.symm
      _ = 0 := by ring
  exact_mod_cast Int.modEq_zero_iff_dvd.1 sum

/-- The sum that `MontMul` divides is a multiple of `R`. -/
theorem two_pow_dvd_montSum (odd : n % 2 = 1) (k t : Nat) :
    2 ^ k ∣ t + (t % 2 ^ k * montConstant k n % 2 ^ k) * n := by
  have digit : t + (t % 2 ^ k * montConstant k n % 2 ^ k) * n ≡ t * (montConstant k n * n + 1) [MOD 2 ^ k] := by
    calc t + (t % 2 ^ k * montConstant k n % 2 ^ k) * n
        ≡ t + t * montConstant k n * n [MOD 2 ^ k] :=
          (((Nat.mod_modEq _ _).trans ((Nat.mod_modEq t _).mul_right _)).mul_right n).add_left t
      _ = t * (montConstant k n * n + 1) := by ring
  exact (Nat.modEq_zero_iff_dvd).1
    (digit.trans (Nat.modEq_zero_iff_dvd.2 ((two_pow_dvd_montConstant odd k).mul_left t)))

/-- The result of `MontMul` is below `n`, and it is the product times the inverse of `R`. -/
theorem montMul_spec (odd : n % 2 = 1) {a c : Nat} (small : a * c < n * 2 ^ k) :
    montMul k n a c < n ∧ montMul k n a c * 2 ^ k ≡ a * c [MOD n] := by
  have positive : 0 < n := by omega
  obtain ⟨u, hu⟩ := two_pow_dvd_montSum odd k (a * c)
  have digit : a * c % 2 ^ k * montConstant k n % 2 ^ k < 2 ^ k := Nat.mod_lt _ (Nat.two_pow_pos k)
  have below : u < 2 * n := by
    have term := Nat.mul_lt_mul_of_pos_right digit positive
    refine Nat.lt_of_mul_lt_mul_left (a := 2 ^ k) ?_
    calc 2 ^ k * u < n * 2 ^ k + 2 ^ k * n := hu ▸ Nat.add_lt_add small term
      _ = 2 ^ k * (2 * n) := by ring
  have value : u * 2 ^ k ≡ a * c [MOD n] := by
    rw [Nat.mul_comm u, ← hu]
    exact Nat.ModEq.symm (by simp [Nat.ModEq])
  have quotient : montMul k n a c = if n ≤ u then u - n else u := by
    simp only [montMul, hu, Nat.mul_div_cancel_left u (Nat.two_pow_pos k)]
  rw [quotient]
  split
  · next large =>
    have reduced : u - n ≡ u [MOD n] := by
      rw [Nat.ModEq, ← Nat.mod_eq_sub_mod large]
    exact ⟨by omega, (reduced.mul_right _).trans value⟩
  · exact ⟨by omega, value⟩

/-- For factors below `n` and `n` below `R` the product is small enough. -/
theorem mul_lt_mul_two_pow (wide : n < 2 ^ k) {a c : Nat} (ha : a < n) (hc : c < n) : a * c < n * 2 ^ k :=
  Nat.mul_lt_mul'' ha (hc.trans wide)

/-- The product of two Montgomery forms is the Montgomery form of the product. -/
theorem montMul_form (odd : n % 2 = 1) (wide : n < 2 ^ k) {a c x y : Nat} (ha : a < n) (hc : c < n)
    (hx : a ≡ x * 2 ^ k [MOD n]) (hy : c ≡ y * 2 ^ k [MOD n]) :
    montMul k n a c < n ∧ montMul k n a c ≡ x * y * 2 ^ k [MOD n] := by
  obtain ⟨below, value⟩ := montMul_spec odd (mul_lt_mul_two_pow wide ha hc)
  refine ⟨below, Nat.ModEq.cancel_right_of_coprime (coprime_two_pow_of_odd odd k) ?_⟩
  calc montMul k n a c * 2 ^ k ≡ a * c [MOD n] := value
    _ ≡ x * 2 ^ k * (y * 2 ^ k) [MOD n] := hx.mul hy
    _ = x * y * 2 ^ k * 2 ^ k := by ring

/-- `MontMul` by `R^2 mod n` gives the Montgomery form. -/
theorem montMul_square (odd : n % 2 = 1) {a : Nat} (ha : a * (2 ^ k * 2 ^ k % n) < n * 2 ^ k) :
    montMul k n a (2 ^ k * 2 ^ k % n) < n ∧ montMul k n a (2 ^ k * 2 ^ k % n) ≡ a * 2 ^ k [MOD n] := by
  obtain ⟨below, value⟩ := montMul_spec odd ha
  refine ⟨below, Nat.ModEq.cancel_right_of_coprime (coprime_two_pow_of_odd odd k) ?_⟩
  calc montMul k n a (2 ^ k * 2 ^ k % n) * 2 ^ k ≡ a * (2 ^ k * 2 ^ k % n) [MOD n] := value
    _ ≡ a * (2 ^ k * 2 ^ k) [MOD n] := (Nat.mod_modEq _ n).mul_left a
    _ = a * 2 ^ k * 2 ^ k := by ring

/-- The invariant of the loop is that of R140 in Montgomery form: before the iterations for the bits below `i`, `acc` is
the form of `b^(e div 2^i)`. -/
theorem montLoop_spec (odd : n % 2 = 1) (wide : n < 2 ^ k) {b bBar : Nat} (hb : bBar < n)
    (hform : bBar ≡ b * 2 ^ k [MOD n]) (e i : Nat) {acc : Nat} (hacc : acc < n)
    (hpow : acc ≡ b ^ (e / 2 ^ i) * 2 ^ k [MOD n]) :
    montLoop k n bBar e i acc < n ∧ montLoop k n bBar e i acc ≡ b ^ e * 2 ^ k [MOD n] := by
  induction i generalizing acc with
  | zero =>
    rw [pow_zero, Nat.div_one] at hpow
    exact ⟨hacc, hpow⟩
  | succ i ih =>
    obtain ⟨hsq, square⟩ := montMul_form odd wide hacc hacc hpow hpow
    have split : e / 2 ^ i = 2 * (e / 2 ^ (i + 1)) + (e.testBit i).toNat := by
      rw [Nat.pow_succ, ← Nat.div_div_eq_div_mul, Nat.toNat_testBit]
      omega
    rw [← pow_add, ← two_mul] at square
    rw [montLoop]
    split
    · next bit =>
      obtain ⟨hprod, product⟩ := montMul_form odd wide hsq hb square hform
      refine ih hprod ?_
      rwa [split, bit, Bool.toNat_true, pow_succ]
    · next bit =>
      refine ih hsq ?_
      rwa [split, Bool.eq_false_of_not_eq_true bit, Bool.toNat_false]

theorem montModexp_eq (odd : n % 2 = 1) (wide : n < 2 ^ k) {b : Nat} (hb : b < n) (e : Nat) :
    montModexp k b e n = b ^ e % n := by
  have positive : 0 < n := by omega
  have squareBelow : 2 ^ k * 2 ^ k % n < n := Nat.mod_lt _ positive
  obtain ⟨bBelow, bForm⟩ := montMul_square odd (mul_lt_mul_two_pow wide hb squareBelow)
  obtain ⟨oneBelow, oneForm⟩ := montMul_square (k := k) (a := 1) odd
    (Nat.mul_lt_mul_of_le_of_lt positive (squareBelow.trans wide) positive)
  have start : e / 2 ^ bitlen e = 0 := Nat.div_eq_of_lt ((bitlen_le_iff e _).1 (Nat.le_refl _))
  obtain ⟨below, value⟩ := montLoop_spec odd wide bBelow bForm e (bitlen e) oneBelow (by rwa [start, pow_zero])
  obtain ⟨resultBelow, result⟩ := montMul_spec (k := k) (c := 1) odd
    (Nat.mul_lt_mul_of_lt_of_le below (Nat.one_le_two_pow) (Nat.two_pow_pos k))
  rw [mul_one] at result
  rw [montModexp, ← Nat.mod_eq_of_lt resultBelow]
  exact (result.trans value).cancel_right_of_coprime (coprime_two_pow_of_odd odd k)

end Sys2Proof.Machine
end

section
/-! SUPPORT. The powers with an exponent that is 1 modulo `lcm(p-1, q-1)`, modulo `p * q` (42_rsa_transform.md R143). -/

namespace Sys2Proof.Machine

open Sys2Proof

/-- Fermat: with an exponent that is 1 modulo `p - 1` every number is its own power modulo the prime `p`, the multiples
of `p` as well as the others. -/
theorem pow_modEq_self_of_prime {p : Nat} (prime : p.Prime) (j m : Nat) : m ^ ((p - 1) * j + 1) ≡ m [MOD p] := by
  have fact : Fact p.Prime := ⟨prime⟩
  rw [← ZMod.natCast_eq_natCast_iff, Nat.cast_pow, pow_succ, pow_mul]
  by_cases zero : (m : ZMod p) = 0
  · rw [zero, mul_zero]
  · rw [ZMod.pow_card_sub_one_eq_one zero, one_pow, one_mul]

/-- Two distinct primes are not both 2, so `lcm(p-1, q-1)` is more than 1. -/
theorem one_lt_lcm_pred {p q : Nat} (hp : p.Prime) (hq : q.Prime) (distinct : p ≠ q) : 1 < Nat.lcm (p - 1) (q - 1) := by
  have hp2 := hp.two_le
  have hq2 := hq.two_le
  have left : p - 1 ≤ Nat.lcm (p - 1) (q - 1) := Nat.le_lcm_left _ (by omega)
  have right : q - 1 ≤ Nat.lcm (p - 1) (q - 1) := Nat.le_lcm_right _ (by omega)
  omega

/-- The exponents of a valid key undo one another (R143). -/
theorem pow_mod_of_inverse_exponents {p q x : Nat} (hp : p.Prime) (hq : q.Prime) (distinct : p ≠ q)
    (hx : x % Nat.lcm (p - 1) (q - 1) = 1 % Nat.lcm (p - 1) (q - 1)) {m : Nat} (hm : m < p * q) :
    m ^ x % (p * q) = m := by
  have hlcm := one_lt_lcm_pred hp hq distinct
  rw [Nat.mod_eq_of_lt hlcm] at hx
  have exponent := (Nat.div_add_mod x (Nat.lcm (p - 1) (q - 1))).symm
  rw [hx] at exponent
  have modulo {r : Nat} (prime : r.Prime) (hr : r - 1 ∣ Nat.lcm (p - 1) (q - 1)) : m ^ x ≡ m [MOD r] := by
    obtain ⟨c, hc⟩ := hr
    rw [exponent, hc, mul_assoc]
    exact pow_modEq_self_of_prime prime _ m
  have both : m ^ x ≡ m [MOD p * q] := (Nat.modEq_and_modEq_iff_modEq_mul ((Nat.coprime_primes hp hq).2 distinct)).1
    ⟨modulo hp (Nat.dvd_lcm_left _ _), modulo hq (Nat.dvd_lcm_right _ _)⟩
  rw [both, Nat.mod_eq_of_lt hm]

/-- Either exponent first, the transforms of a valid key undo one another (R143). -/
theorem State.ValidKey.pow_pow_mod {s : State} {p q e d : Nat} (key : s.ValidKey p q e d) {m : Nat} (hm : m < p * q) :
    (m ^ e % (p * q)) ^ d % (p * q) = m ∧ (m ^ d % (p * q)) ^ e % (p * q) = m := by
  have undo := pow_mod_of_inverse_exponents key.prime_p key.prime_q key.distinct key.inverse hm
  rw [← Nat.pow_mod, ← Nat.pow_mod, ← pow_mul, ← pow_mul, Nat.mul_comm d]
  exact ⟨undo, undo⟩

end Sys2Proof.Machine
end

section
/-! PROOFS. The RSA transforms as mathematics (42_rsa_transform.md R143, R147). -/

namespace Sys2Proof.Machine

open Sys2Proof

/-- Settles O25: in Montgomery form the loop is that of R140, and the last multiplication leaves the form. -/
theorem montgomeryFormComputesModexp : Obligations.MontgomeryFormComputesModexp :=
  fun _ _ e _ odd wide hb => montModexp_eq odd wide hb e

/-- Settles O24: the second transform finds the key as it was and the first one's result in `X`, which is below the
modulus. -/
theorem transformsRoundTripUnderAValidKey : Obligations.TransformsRoundTripUnderAValidKey := by
  intro s p q e d m key ha hm
  have below (x : Nat) : x % (p * q) < p * q := Nat.mod_lt _ (by omega)
  obtain ⟨encrypted, signed⟩ := key.pow_pow_mod hm
  have keeps {r : Reg} (hr : r ≠ .x) (v : BigValue) : (s.wrote .x v).reg r = s.reg r := s.wrote_reg_other v hr
  refine ⟨⟨_, _, exec_pub_of_ok (State.publicOperands_ok ha key.modulus key.public_exponent hm) .x,
      exec_prv_of_ok (State.privateOperands_ok (s.wrote_reg_same .x _) ((keeps (by decide) _).trans key.modulus)
        ((keeps (by decide) _).trans key.private_exponent) (below _)) .y, ?_, rfl⟩,
    ⟨_, _, exec_prv_of_ok (State.privateOperands_ok ha key.modulus key.private_exponent hm) .x,
      exec_pub_of_ok (State.publicOperands_ok (s.wrote_reg_same .x _) ((keeps (by decide) _).trans key.modulus)
        ((keeps (by decide) _).trans key.public_exponent) (below _)) .y, ?_, rfl⟩⟩
  · rw [State.wrote_reg_same, encrypted]
  · rw [State.wrote_reg_same, signed]

end Sys2Proof.Machine
end

section
/-! SUPPORT. What each command can write (30_encoding.md R73, 10_state.md R39): its destination register, or the string
of a store; and the frames of these writes (R23). -/

namespace Sys2Proof.Machine

open Sys2Proof

/-- A write of one given register, or a failure. -/
inductive Result.WritesReg (r : Reg) : Result → Prop where
  | success (v : BigValue) : WritesReg r (.success [.reg r v])
  | failure (k : ErrorKind) : WritesReg r (.failure k)

/-- The nine commands that write `x[rd]`. -/
def registerCommands (rd rs1 rs2 : Reg) : List Instr :=
  [.ldi rd, .ldo rd, .mov rd rs1, .clr rd, .gcd rd rs1 rs2, .lcm rd rs1 rs2, .modinv rd rs1 rs2, .pub rd rs1,
    .prv rd rs1]

theorem mem_registerCommands {i : Instr} {rd rs1 rs2 : Reg} :
    i ∈ registerCommands rd rs1 rs2 ↔
      i = .ldi rd ∨ i = .ldo rd ∨ i = .mov rd rs1 ∨ i = .clr rd ∨ i = .gcd rd rs1 rs2 ∨ i = .lcm rd rs1 rs2 ∨
        i = .modinv rd rs1 rs2 ∨ i = .pub rd rs1 ∨ i = .prv rd rs1 := by
  simp [registerCommands]

theorem commandResult_writesReg {i : Instr} {rd rs1 rs2 : Reg} (hi : i ∈ registerCommands rd rs1 rs2) (s : State) :
    (commandResult i s).WritesReg rd := by
  obtain rfl | rfl | rfl | rfl | rfl | rfl | rfl | rfl | rfl := mem_registerCommands.1 hi
  · rw [commandResult, ldiResult]; split <;> constructor
  · rw [commandResult, ldoResult]; split <;> constructor
  · exact .success _
  · exact .success _
  · rw [commandResult, gcdResult]; split <;> constructor
  · rw [commandResult, lcmResult]; (repeat' split) <;> constructor
  · rw [commandResult, modinvResult]; (repeat' split) <;> constructor
  · rw [commandResult, pubResult]; split <;> constructor
  · rw [commandResult, prvResult]; split <;> constructor

/-- Such a command completes with one register written, or fails. -/
theorem exec_registerCommand {i : Instr} {rd rs1 rs2 : Reg} (hi : i ∈ registerCommands rd rs1 rs2) (s : State) :
    (∃ v, exec i s = .next (s.wrote rd v)) ∨ ∃ k, exec i s = .next (s.fail k) := by
  have shape := commandResult_writesReg hi s
  rw [exec_eq]
  generalize commandResult i s = result at shape ⊢
  cases shape with
  | success v => exact .inl ⟨v, rfl⟩
  | failure k => exact .inr ⟨k, rfl⟩

/-- `EGCD` completes with `X`, `Y` and `G` written, or fails (R122). -/
theorem exec_egcd_cases (rs1 rs2 : Reg) (s : State) :
    (∃ x y g, exec (.egcd rs1 rs2) s = .next (s.succeed [.reg .x x, .reg .y y, .reg .g g])) ∨
      ∃ k, exec (.egcd rs1 rs2) s = .next (s.fail k) := by
  cases pair : s.positivePair rs1 rs2 with
  | error k => exact .inr ⟨k, by rw [exec_eq, commandResult, egcdResult, pair, State.finish_failure]⟩
  | ok operands => exact .inl ⟨_, _, _, by rw [exec_eq, commandResult_egcd_of_ok pair, State.finish_success]⟩

/-- A store completes with the minimal string of the magnitude of its source written, or fails (R103, R104). -/
theorem exec_store_cases {i : Instr} {rs1 : Reg} (hi : i = .sti rs1 ∨ i = .stm rs1) (s : State) :
    (∃ z, s.reg rs1 = .int z ∧ exec i s = .next (s.succeed [.string (intToBytes z.natAbs)])) ∨
      exec i s = .next (s.fail .invalidInteger) := by
  cases source : s.reg rs1 with
  | absent =>
    obtain rfl | rfl := hi
    · exact .inr (exec_sti_of_absent source)
    · exact .inr (exec_stm_of_absent source)
  | int z =>
    obtain rfl | rfl := hi
    · rcases lt_or_ge z 0 with negative | natural
      · exact .inr (exec_sti_of_neg source negative)
      · obtain ⟨v, rfl⟩ := Int.eq_ofNat_of_zero_le natural
        exact .inl ⟨v, rfl, exec_sti_of_nat source⟩
    · exact .inl ⟨z, rfl, exec_stm_of_int source⟩

/-- A register that keeps its value keeps its flags (R35). -/
theorem State.flagNibble_congr {s t : State} {q : Reg} (h : t.reg q = s.reg q) : t.flagNibble q = s.flagNibble q := by
  rw [State.flagNibble, State.flagNibble, State.rflags_nibble, State.rflags_nibble, h]

/-- The bytes from the end of a stored string on are unchanged (20_memory.md R55). -/
theorem State.bufByte_succeed_string (s : State) {bytes : List Byte} {k : Nat} (hk : bytes.length ≤ k) :
    (s.succeed [.string bytes]).bufByte k = s.bufByte k := by
  have beyond : bytes[k]? = none := List.getElem?_eq_none hk
  exact (s.bufByte_apply_string bytes k).trans (by rw [beyond, Option.getD_none])

end Sys2Proof.Machine
end

section
/-! SUPPORT. What the transforms read (42_rsa_transform.md R141, R142): a register that is not among it can be replaced
before the command or after it. -/

namespace Sys2Proof.Machine

open Sys2Proof

variable {s t : State} {rs1 q : Reg}

/-- `PUB` reads its operand, `N` and `E`. -/
theorem State.publicOperands_congr (operand : t.reg rs1 = s.reg rs1) (n : t.reg .n = s.reg .n)
    (e : t.reg .e = s.reg .e) : t.publicOperands rs1 = s.publicOperands rs1 := by
  rw [State.publicOperands, State.publicOperands, operand, n, e]

/-- `PRV` reads its operand, `N` and `D`. -/
theorem State.privateOperands_congr (operand : t.reg rs1 = s.reg rs1) (n : t.reg .n = s.reg .n)
    (d : t.reg .d = s.reg .d) : t.privateOperands rs1 = s.privateOperands rs1 := by
  rw [State.privateOperands, State.privateOperands, operand, n, d]

theorem State.apply_reg_reg_other (s : State) (v : BigValue) {r : Reg} (h : r ≠ q) :
    (s.apply (.reg q v)).reg r = s.reg r :=
  s.regs.get_set_other v h

theorem BigRegs.set_comm (x : BigRegs) {r q : Reg} (h : r ≠ q) (v w : BigValue) :
    (x.set q v).set r w = (x.set r w).set q v := by
  refine BigRegs.ext_get fun p => ?_
  simp only [BigRegs.get_set]
  split
  · next hr => rw [if_neg (hr ▸ h)]
  · rfl

/-- A completion that writes at most one register does not mind a write of another one before it. -/
theorem State.finish_apply_reg {rd : Reg} {r : Result} (hr : r.WritesReg rd) (h : rd ≠ q) (v : BigValue) :
    (s.apply (.reg q v)).finish r = (s.finish r).apply (.reg q v) := by
  cases hr with
  | failure k => rfl
  | success w =>
    have comm := s.regs.set_comm h v w
    simp only [State.finish_success, State.succeed, List.foldl_cons, List.foldl_nil, State.apply, comm]

/-- A command that writes at most `x[rd]` and has the same outcome with another register replaced leaves that
replacement as it is. -/
theorem exec_apply_reg {i : Instr} {rd rs1 rs2 : Reg} (hi : i ∈ registerCommands rd rs1 rs2) (h : rd ≠ q) (v : BigValue)
    (same : commandResult i (s.apply (.reg q v)) = commandResult i s) (run : exec i s = .next t) :
    exec i (s.apply (.reg q v)) = .next (t.apply (.reg q v)) := by
  rw [exec_eq, Host.Outcome.next.injEq] at run
  rw [exec_eq, same, State.finish_apply_reg (commandResult_writesReg hi s) h, run]

end Sys2Proof.Machine
end

section
/-! PROOFS. The outcome of a command and its frame (10_state.md R23, R39; 42_rsa_transform.md R141, R142). -/

namespace Sys2Proof.Machine

open Sys2Proof

/-- Settles O49: the completion is `finish` of the command's outcome, whose failures are those of the table. -/
theorem everyCommandSucceedsOrFails : Obligations.EveryCommandSucceedsOrFails := by
  intro i s
  refine ⟨s.finish (commandResult i s), exec_eq i s, s.finish_phase _, ?_, s.finish_draws _, s.finish_bufDraw _,
    s.finish_cmdReg _, s.finish_ctrl _, s.finish_rej _, s.finish_params _, s.finish_resetLine _, s.finish_script _,
    s.finish_replies _⟩
  cases result : commandResult i s with
  | success ws => exact .inl ⟨rfl, s.succeed_err ws, s.succeed_errCode ws, s.succeed_errCmd ws⟩
  | failure k => exact .inr ⟨k, mem_raises_of_failure result, rfl⟩

/-- Settles O50: the next state is that with `x[rd]` written, or the failure. -/
theorem frameOfRegisterCommands : Obligations.FrameOfRegisterCommands := by
  intro rd rs1 rs2 s t i hi run
  obtain ⟨v, h⟩ | ⟨k, h⟩ := exec_registerCommand hi s <;> cases h.symm.trans run
  · have others (q : Reg) (hq : q ≠ rd) : (s.wrote rd v).reg q = s.reg q := s.wrote_reg_other v hq
    exact ⟨fun q hq => ⟨others q hq, State.flagNibble_congr (others q hq)⟩, fun _ => rfl, rfl⟩
  · exact ⟨fun _ _ => ⟨rfl, rfl⟩, fun _ => rfl, rfl⟩

/-- Settles O51: the next state is that with the three registers written, or the failure. -/
theorem frameOfEgcd : Obligations.FrameOfEgcd := by
  intro rs1 rs2 s t run
  obtain ⟨x, y, g, h⟩ | ⟨k, h⟩ := exec_egcd_cases rs1 rs2 s <;> cases h.symm.trans run
  · have others (q : Reg) (hx : q ≠ .x) (hy : q ≠ .y) (hg : q ≠ .g) :
        (s.succeed [.reg .x x, .reg .y y, .reg .g g]).reg q = s.reg q := by
      calc (((s.regs.set .x x).set .y y).set .g g).get q = ((s.regs.set .x x).set .y y).get q :=
            BigRegs.get_set_other _ g hg
        _ = (s.regs.set .x x).get q := BigRegs.get_set_other _ y hy
        _ = s.regs.get q := BigRegs.get_set_other _ x hx
    exact ⟨fun q hx hy hg => ⟨others q hx hy hg, State.flagNibble_congr (others q hx hy hg)⟩, fun _ => rfl, rfl⟩
  · exact ⟨fun _ _ _ _ => ⟨rfl, rfl⟩, fun _ => rfl, rfl⟩

/-- Settles O52: the next state is that with the string of the magnitude stored, or the failure. -/
theorem frameOfStores : Obligations.FrameOfStores := by
  intro rs1 s t i hi run
  have hi : i = .sti rs1 ∨ i = .stm rs1 := by simpa using hi
  obtain ⟨z, source, h⟩ | h := exec_store_cases hi s <;> cases h.symm.trans run
  · refine ⟨fun _ => rfl, rfl, fun z' source' k hk => ?_, fun absent => ?_, fun noErr failed => ?_, rfl⟩
    · cases source.symm.trans source'
      exact s.bufByte_succeed_string hk
    · cases source.symm.trans absent
    · simp [noErr] at failed
  · exact ⟨fun _ => rfl, rfl, fun _ _ _ _ => rfl, fun _ _ => rfl, fun _ _ => ⟨fun _ => rfl, rfl⟩, rfl⟩

/-- Settles O23: the outcome of the command is the same, and it writes another register. -/
theorem transformsIgnoreTheOtherExponent : Obligations.TransformsIgnoreTheOtherExponent := by
  intro rd rs1 s t v
  refine ⟨fun operand destination run => ?_, fun operand destination run => ?_⟩
  · have same : (s.apply (.reg .d v)).publicOperands rs1 = s.publicOperands rs1 :=
      State.publicOperands_congr (s.apply_reg_reg_other v operand) (s.apply_reg_reg_other v (by decide))
        (s.apply_reg_reg_other v (by decide))
    exact exec_apply_reg (rs1 := rs1) (rs2 := rs1) (mem_registerCommands.2 (by simp)) destination v
      (by rw [commandResult, pubResult, pubResult, same]) run
  · have same : (s.apply (.reg .e v)).privateOperands rs1 = s.privateOperands rs1 :=
      State.privateOperands_congr (s.apply_reg_reg_other v operand) (s.apply_reg_reg_other v (by decide))
        (s.apply_reg_reg_other v (by decide))
    exact exec_apply_reg (rs1 := rs1) (rs2 := rs1) (mem_registerCommands.2 (by simp)) destination v
      (by rw [commandResult, prvResult, prvResult, same]) run

end Sys2Proof.Machine
end

section
/-! SUPPORT. Accesses of the buffer window as steps of an idle engine (20_memory.md R51, R53, R58), and what a repeated
write finds (R59). -/

namespace Sys2Proof.Machine

open Sys2Proof

/-- Within the limits of 00_scope.md R6 the offsets of `BUF` do not wrap. -/
theorem windowOffset_toNat {k : Nat} (hk : k < 61440) : (windowOffset k).toNat = 0x1000 + k := by
  rw [windowOffset, BitVec.toNat_ofNat, Nat.mod_eq_of_lt (by omega)]

theorem windowIndex_windowOffset {p : Params} (cap : p.bufBytes ≤ 61440) {k : Nat} (hk : k < p.bufBytes) :
    windowIndex p (windowOffset k) = some k := by
  rw [windowIndex, windowOffset_toNat (by omega), if_pos (by omega), Nat.add_sub_cancel_left]

section
variable {s : State} (out : s.resetLine = false) (idle : s.phase = .idle) (cap : s.params.bufBytes ≤ 61440) {k : Nat}
  (hk : k < s.params.bufBytes)
include out idle cap hk

theorem State.does_read_byte : s.Does (.rdb (windowOffset k)) (s.reply (.byte (s.bufByte k))) := by
  have read : s.read8 (windowOffset k) = (s.bufByte k, s) := by
    simp [State.read8, out, windowIndex_windowOffset cap hk, idle]
  rw [State.does_iff, hostTurn, read]

theorem State.does_write_byte (v : Byte) :
    s.Does (.wrb (windowOffset k) v) { s with buf := Memory.write s.buf k v } := by
  have write : s.write8 (windowOffset k) v = { s with buf := Memory.write s.buf k v } := by
    simp [State.write8, out, windowIndex_windowOffset cap hk, idle]
  rw [State.does_iff, hostTurn, write]

end

/-- A write to `LEN` while idle stores any value (10_state.md R34). -/
theorem State.does_len_of_idle {s : State} (out : s.resetLine = false) (idle : s.phase = .idle) (v : Word) :
    s.Does (.wr CtrlReg.len.offset v) { s with len := v } := by
  have store : s.writeReg .len v = { s with len := v } := if_neg (by simp [idle])
  exact (State.does_write_iff out .len v).2 store.symm

/-- While busy `LEN` and `CMD` reject every write (10_state.md R34, R38). -/
theorem State.writeReg_len_of_busy {s : State} (busy : s.phase = .busy) (v : Word) : s.writeReg .len v = s.reject :=
  if_pos busy

theorem State.writeReg_cmd_of_busy {s : State} (busy : s.phase = .busy) (w : Word) : s.writeReg .cmd w = s.reject :=
  if_pos (.inl busy)

theorem State.bufByte_write (s : State) (k j : Nat) (v : Byte) :
    State.bufByte { s with buf := Memory.write s.buf k v } j = if j = k then v else s.bufByte j := by
  by_cases h : j = k
  · simp [State.bufByte, h]
  · simp [State.bufByte, Memory.read?_write, h]

theorem Memory.write_write_same (m : Memory) (k : Nat) (v : Byte) : write (write m k v) k v = write m k v := by
  induction m with
  | nil => simp [write]
  | cons c m ih =>
    obtain ⟨j, w⟩ := c
    rcases lt_trichotomy k j with lt | rfl | gt
    · simp [write, lt]
    · simp [write]
    · simp [write, Nat.lt_asymm gt, Nat.ne_of_gt gt, ih]

@[simp] theorem State.reject_reject (s : State) : s.reject.reject = s.reject := rfl

/-- What has been acknowledged is clear already (R30). -/
@[simp] theorem State.acknowledge_acknowledge (s : State) (v : Word) :
    (s.acknowledge v).acknowledge v = s.acknowledge v := by
  simp [State.acknowledge]

theorem State.writeLen_writeLen (s : State) (v : Word) : (s.writeLen v).writeLen v = s.writeLen v := by
  cases busy : s.phase <;> simp [State.writeLen, busy]

/-- The engine accepts or rejects the same byte write again, and finds the byte as written (R53). -/
theorem State.write8_write8 {s : State} (out : s.resetLine = false) (off : Offset) (v : Byte) :
    (s.write8 off v).write8 off v = s.write8 off v := by
  rw [State.write8_eq out]
  split
  · next rejected => exact (State.write8_eq (s := s.reject) out off v).trans (if_pos rejected)
  · next accepted =>
    have again := State.write8_eq (s := { s with buf := Memory.write s.buf (off.toNat - 0x1000) v }) out off v
    refine (again.trans (if_neg accepted)).trans ?_
    rw [Memory.write_write_same]

theorem State.write8_resetLine (s : State) (off : Offset) (v : Byte) : (s.write8 off v).resetLine = s.resetLine := by
  rw [State.write8]
  (repeat' split) <;> rfl

theorem State.does_write8 (s : State) (off : Offset) (v : Byte) : s.Does (.wrb off v) (s.write8 off v) := rfl

/-- The eleven offsets are those of the control registers. -/
theorem exists_offset_eq {off : Offset} (h : off ∈ [0x00#16, 0x04#16, 0x08#16, 0x0C#16, 0x10#16, 0x14#16, 0x18#16,
    0x1C#16, 0x20#16, 0x24#16, 0x28#16]) : ∃ r : CtrlReg, off = r.offset := by
  have mapped : off ∈ [CtrlReg.id, .nbits, .bufsz, .ctrl, .status, .cmd, .errcode, .errcmd, .len, .rflags,
      .ksize].map CtrlReg.offset := h
  obtain ⟨r, _, rfl⟩ := List.mem_map.1 mapped
  exact ⟨r, rfl⟩

end Sys2Proof.Machine
end

section
/-! SUPPORT. The error check (43_host_sequences.md R166), and a step that is a turn of the engine (10_state.md R39). -/

namespace Sys2Proof.Machine

open Sys2Proof

variable {s : State}

/-- An operation that acts on the value of a control register it reads, out of reset. -/
theorem State.readThen_eq (out : s.resetLine = false) (r : CtrlReg) (k : Word → State → State) :
    s.readThen r k = k (s.readReg r) (s.reply (.word (s.readReg r))) := by
  rw [State.readThen, State.read32_offset out]

theorem State.does_check (out : s.resetLine = false) :
    s.Does .check (if s.err then (s.reply (.word s.statusWord)).instead
        [.host (.rd CtrlReg.errcode.offset), .host (.wr CtrlReg.status.offset 0x00000004#32)]
      else s.reply (.word s.statusWord)) := by
  obtain ⟨_, _, err, _⟩ := s.statusWord_bits
  rw [State.does_iff, hostTurn, State.readThen_eq out, State.readReg, err]

/-! The step by what comes next in the script (20_memory.md R57). -/

theorem step_of_nil (h : s.script = []) : step s = engineTurn s := by rw [step, turn, h]

theorem step_of_engine {rest : List Event} (h : s.script = .engine :: rest) : step s = engineTurn (s.instead rest) := by
  rw [step, turn, h]

theorem step_of_host {op : HostOp} {rest : List Event} (h : s.script = .host op :: rest) :
    step s = hostTurn op (s.instead rest) := by
  rw [step, turn, h]

/-- The engine's turn is the completion of the command that `CMDREG` decodes to. -/
theorem engineTurn_of_ok (busy : s.phase = .busy) (out : s.resetLine = false) {i : Instr}
    (h : decode s.cmdReg = .ok i) : engineTurn s = exec i s := by
  rw [engineTurn_of_busy busy out, complete, h]

theorem engineTurn_of_error (busy : s.phase = .busy) (out : s.resetLine = false) {e : IllegalWord}
    (h : decode s.cmdReg = .error e) : engineTurn s = .next (s.failedWith 5#8) :=
  (engineTurn_of_busy busy out).trans (complete_of_error h)

theorem engineTurn_of_not_busy (h : s.phase = .idle ∨ s.resetLine = true) : engineTurn s = .next s := by
  refine if_neg fun ⟨busy, out⟩ => ?_
  rcases h with idle | held
  · cases idle.symm.trans busy
  · cases held.symm.trans out

end Sys2Proof.Machine
end

section
/-! SUPPORT. Which changes write `ERRCODE` and `ERRCMD` (10_state.md R32). -/

namespace Sys2Proof.Machine

open Sys2Proof

/-- A change that leaves `ERRCODE` and `ERRCMD`, a failure of the command in execution, or a reset. -/
theorem State.Change.errorRegisters {s t : State} (h : s.Change t) :
    (t.errCode = s.errCode ∧ t.errCmd = s.errCmd) ∨ (s.phase = .busy ∧ ∃ k, t = s.fail k) ∨ t.Cleared := by
  cases h with
  | same | rejected | acknowledged | enables | length | byte | accepted | released => exact .inl ⟨rfl, rfl⟩
  | softReset => exact .inr (.inr s.takeReset_cleared)
  | hardReset => exact .inr (.inr s.assertReset_cleared)
  | illegal busy => exact .inr (.inl ⟨busy, _, rfl⟩)
  | completed busy _ i =>
    cases commandResult i s with
    | success ws => exact .inl ⟨s.succeed_errCode ws, s.succeed_errCmd ws⟩
    | failure k => exact .inr (.inl ⟨busy, k, rfl⟩)

end Sys2Proof.Machine
end

section
/-! PROOFS. The control block, the buffer window and the turns (10_state.md R30 to R39; 20_memory.md R58, R59;
30_encoding.md R74; 43_host_sequences.md R166). -/

namespace Sys2Proof.Machine

open Sys2Proof

/-- Settles O3, by decoding each word. -/
theorem specWordsDecodeAsListed : Obligations.SpecWordsDecodeAsListed := by
  unfold Obligations.SpecWordsDecodeAsListed
  decide

/-- Settles O29: bit 2 of the word that the check reads is `ERR`. -/
theorem errorCheckFailsTheSequence : Obligations.ErrorCheckFailsTheSequence := by
  intro s out
  have check := State.does_check out
  refine ⟨fun failed => ?_, fun fine => ?_⟩
  · rwa [failed] at check
  · rwa [fine] at check

/-- Settles O34, from the bits of the word. -/
theorem statusBitsAreWriteOneToClear : Obligations.StatusBitsAreWriteOneToClear := by
  intro s v out
  obtain ⟨busy, done, err, rej⟩ := s.statusWord_bits
  refine ⟨State.does_read out .status, ?_, done, err, rej, fun _ => s.statusWord_reserved, ?_⟩
  · rw [busy, State.busy, decide_eq_true_iff]
  · have clear (old bit : Bool) : (if bit then false else old) = (old && !bit) := by cases bit <;> simp
    simp only [clear]
    exact State.does_write out .status v

/-- Settles O36: each register reads its field, and `LEN` takes a write by the phase. -/
theorem commandErrorAndLengthRegisters : Obligations.CommandErrorAndLengthRegisters := by
  intro s v out
  have code : (s.errCode.setWidth 32).toNat = s.errCode.toNat := BitVec.toNat_setWidth_of_le (by decide)
  refine ⟨State.does_read out .cmd, ⟨_, code, State.does_read out .errcode⟩, State.does_read out .errcmd,
    State.does_read out .len, State.does_write out .errcode v, State.does_write out .errcmd v, fun idle => ?_,
    fun busy => ?_⟩
  · exact State.does_len_of_idle out idle v
  · exact (State.does_write_iff out .len v).2 (State.writeReg_len_of_busy busy v).symm

/-- Settles O48: both kinds of step are a turn of the engine. -/
theorem completionRunsTheDecodedCommand : Obligations.CompletionRunsTheDecodedCommand := by
  intro s rest
  have next : step { s with script := .engine :: rest } = engineTurn (s.instead rest) := step_of_engine rfl
  have last : step { s with script := [] } = engineTurn (s.instead []) := step_of_nil rfl
  rw [next, last]
  refine ⟨fun busy out => ⟨fun i hi => ?_, fun e he => ?_⟩, fun h => ?_⟩
  · exact ⟨engineTurn_of_ok (s := s.instead rest) busy out hi, engineTurn_of_ok (s := s.instead []) busy out hi⟩
  · exact ⟨engineTurn_of_error (s := s.instead rest) busy out he, engineTurn_of_error (s := s.instead []) busy out he⟩
  · exact ⟨engineTurn_of_not_busy (s := s.instead rest) h, engineTurn_of_not_busy (s := s.instead []) h⟩

/-- Settles O37: of the changes a step can make, only a failing completion and a reset write the two registers. -/
theorem onlyFailureOrResetWritesTheErrorRegisters : Obligations.OnlyFailureOrResetWritesTheErrorRegisters := by
  intro s t run changed
  obtain ⟨u, v, hv, change, hu⟩ := State.change_of_step run
  obtain ⟨code, cmd⟩ | ⟨busy, k, rfl⟩ | cleared := change.errorRegisters
  · have sameCode : t.errCode = s.errCode := hu.errCode.trans (code.trans hv.errCode)
    have sameCmd : t.errCmd = s.errCmd := hu.errCmd.trans (cmd.trans hv.errCmd)
    exact absurd changed (by simp [sameCode, sameCmd])
  · exact .inl ⟨hv.phase.symm.trans busy, hu.phase, hu.err, hu.errCode.trans_ne k.code_range.1,
      hu.errCmd.trans hv.cmdReg, hu.regs.trans hv.regs, hu.buf.trans hv.buf, hu.len.trans hv.len⟩
  · exact .inr ⟨hu.phase.trans cleared.phase, hu.err.trans cleared.err, hu.errCode.trans cleared.errCode,
      hu.errCmd.trans cleared.errCmd, hu.cmdReg.trans cleared.cmdReg⟩

/-- Settles O40: reads of either kind only hand over a value, which the reply does not change. -/
theorem readsHaveNoSideEffect : Obligations.ReadsHaveNoSideEffect := by
  intro s out
  refine ⟨fun off hoff => ?_, fun k hk cap idle => ⟨?_, ?_, fun b => ?_⟩, fun v idle => ?_, fun v enables => ?_,
    fun v off hoff => ?_⟩
  · obtain ⟨r, rfl⟩ := exists_offset_eq hoff
    refine ⟨s.readReg r, State.does_read out r, ?_⟩
    have again : (s.reply (.word (s.readReg r))).readReg r = s.readReg r := by cases r <;> rfl
    have read := State.does_read (s := s.reply (.word (s.readReg r))) out r
    rwa [again] at read
  · exact State.does_read_byte out idle cap hk
  · exact State.does_read_byte (s := s.reply (.byte (s.bufByte k))) out idle cap hk
  · exact ⟨_, State.does_write_byte out idle cap hk b, rfl, fun j => s.bufByte_write k j b⟩
  · exact State.does_len_of_idle out idle v
  · exact (State.does_write_iff out .ctrl v).2 (s.writeReg_ctrl_enables enables).symm
  · simp only [List.mem_cons, List.not_mem_nil, or_false] at hoff
    obtain rfl | rfl | rfl | rfl | rfl | rfl | rfl := hoff
    exacts [State.does_write out .id v, State.does_write out .nbits v, State.does_write out .bufsz v,
      State.does_write out .errcode v, State.does_write out .errcmd v, State.does_write out .rflags v,
      State.does_write out .ksize v]

/-- Settles O43: what a plain store or a clear leaves, the same write finds done. -/
theorem plainStoresAreIdempotent : Obligations.PlainStoresAreIdempotent := by
  intro s v out
  refine ⟨?_, fun enables => ?_, ?_, fun off b => ?_, fun idle noErr => ?_⟩
  · refine ⟨s.acknowledge v, State.does_write out .status v, ?_⟩
    exact (State.does_write_iff (s := s.acknowledge v) out .status v).2 (s.acknowledge_acknowledge v).symm
  · refine ⟨_, State.does_write out .ctrl v, ?_⟩
    rw [s.writeReg_ctrl_enables enables]
    exact (State.does_write_iff (s := { s with ctrl := ctrlOfWord v }) out .ctrl v).2
      (State.writeReg_ctrl_enables _ enables).symm
  · have out' : (s.writeLen v).resetLine = false := by
      rw [State.writeLen]
      split <;> exact out
    exact ⟨s.writeLen v, State.does_write out .len v,
      (State.does_write_iff out' .len v).2 (s.writeLen_writeLen v).symm⟩
  · refine ⟨s.write8 off b, s.does_write8 off b, ?_⟩
    have again := (s.write8 off b).does_write8 off b
    rwa [State.write8_write8 out] at again
  · refine ⟨s.accept v, State.does_cmd_of_idle out idle noErr v, rfl, ?_⟩
    have rejected := State.writeReg_cmd_of_busy (s.accept_phase v) v
    exact (State.does_write_iff (s := s.accept v) out .cmd v).2 rejected.symm

end Sys2Proof.Machine
end

section
/-! SUPPORT. Runs of the machine: a step more, and one run after another (20_memory.md R57). -/

namespace Sys2Proof.Machine

open Sys2Proof

variable {s t u : State} {j k : Nat}

theorem State.after_succ_iff (h : step s = .next u) : State.After (k + 1) s t ↔ State.After k u t := by
  have h : Sys2Proof.core.step s = .next u := h
  simp only [State.After, Host.Core.run, h]

theorem State.After.trans (h : State.After j s t) (h' : State.After k t u) : State.After (j + k) s u := by
  induction j generalizing s with
  | zero =>
    cases h
    rwa [Nat.zero_add]
  | succ j ih =>
    obtain ⟨v, hv⟩ := step_next s
    rw [Nat.succ_add]
    exact (State.after_succ_iff hv).2 (ih ((State.after_succ_iff hv).1 h))

theorem State.Reaches.refl (s : State) : s.Reaches s := ⟨0, rfl⟩

theorem State.Reaches.trans (h : s.Reaches t) (h' : t.Reaches u) : s.Reaches u := by
  obtain ⟨j, h⟩ := h
  obtain ⟨k, h'⟩ := h'
  exact ⟨j + k, h.trans h'⟩

theorem State.Reaches.of_step (h : step s = .next t) : s.Reaches t := ⟨1, (State.after_succ_iff h).2 rfl⟩

end Sys2Proof.Machine
end

section
/-! SUPPORT. What the accesses of the host leave of a command in execution (10_state.md R38, 20_memory.md R60, R61):
they reach the enables, `REJ` and the environment, on which its completion does not depend. -/

namespace Sys2Proof.Machine

open Sys2Proof

/-- `t` is `s` but for the enables, `REJ` and the environment. -/
def State.SameCommand (s t : State) : Prop :=
  ∃ ctrl rej draws script replies,
    t = { s with ctrl := ctrl, rej := rej, draws := draws, script := script, replies := replies }

variable {s t u : State}

theorem State.SameCommand.refl (s : State) : s.SameCommand s := ⟨_, _, _, _, _, rfl⟩

theorem State.SameCommand.trans (h : s.SameCommand t) (h' : t.SameCommand u) : s.SameCommand u := by
  obtain ⟨_, _, _, _, _, rfl⟩ := h
  obtain ⟨_, _, _, _, _, rfl⟩ := h'
  exact ⟨_, _, _, _, _, rfl⟩

theorem State.SameCommand.reply (h : s.SameCommand t) (r : Reply) : s.SameCommand (t.reply r) :=
  h.trans ⟨_, _, _, _, _, rfl⟩

theorem State.sameCommand_reject (s : State) : s.SameCommand s.reject := ⟨_, _, _, _, _, rfl⟩

theorem State.sameCommand_reject_draw (s : State) : s.SameCommand s.reject.draw.2 := ⟨_, _, _, _, _, rfl⟩

/-! The completion. -/

/-- The outcome of a command depends on its operands alone. -/
theorem State.SameCommand.commandResult (h : s.SameCommand t) (i : Instr) :
    Machine.commandResult i t = Machine.commandResult i s := by
  obtain ⟨_, _, _, _, _, rfl⟩ := h
  cases i <;> rfl

theorem State.SameCommand.foldl_apply (h : s.SameCommand t) (ws : List Write) :
    (ws.foldl State.apply s).SameCommand (ws.foldl State.apply t) := by
  induction ws generalizing s t with
  | nil => exact h
  | cons w ws ih =>
    obtain ⟨_, _, _, _, _, rfl⟩ := h
    exact ih (by cases w <;> exact ⟨_, _, _, _, _, rfl⟩)

theorem State.SameCommand.finish (h : s.SameCommand t) (r : Result) : (s.finish r).SameCommand (t.finish r) := by
  cases r with
  | success ws =>
    obtain ⟨ctrl, rej, draws, script, replies, written⟩ := h.foldl_apply ws
    exact ⟨ctrl, rej, draws, script, replies, by rw [State.finish_success, State.succeed, written]; rfl⟩
  | failure k =>
    obtain ⟨_, _, _, _, _, rfl⟩ := h
    exact ⟨_, _, _, _, _, rfl⟩

theorem State.SameCommand.engineTurn (h : s.SameCommand t) (busy : s.phase = .busy) (out : s.resetLine = false)
    (run : Machine.engineTurn s = .next u) : ∃ v, Machine.engineTurn t = .next v ∧ u.SameCommand v := by
  have same : t.phase = s.phase ∧ t.resetLine = s.resetLine ∧ t.cmdReg = s.cmdReg := by
    obtain ⟨_, _, _, _, _, rfl⟩ := h
    exact ⟨rfl, rfl, rfl⟩
  obtain ⟨phase, line, word⟩ := same
  rw [engineTurn_of_busy busy out, complete] at run
  rw [engineTurn_of_busy (phase.trans busy) (line.trans out), complete, word]
  split at run
  · next i _ =>
    cases (exec_eq i s).symm.trans run
    exact ⟨_, exec_eq i t, by rw [h.commandResult i]; exact h.finish _⟩
  · cases run
    exact ⟨_, rfl, h.finish (.failure .illegalCommand)⟩

/-! The accesses. -/

section
variable (busy : s.phase = .busy) (clear : s.done = false ∧ s.err = false)
include busy clear

/-- A write to a control register while busy, other than the soft reset. -/
theorem State.sameCommand_writeReg {r : CtrlReg} {v : Word} (h : plainAccess (.wr r.offset v) = true) :
    s.SameCommand (s.writeReg r v) := by
  cases r
  case ctrl =>
    have enables : v.getLsbD 31 = false := by simpa [plainAccess, CtrlReg.offset] using h
    rw [s.writeReg_ctrl_enables enables]
    exact ⟨_, _, _, _, _, rfl⟩
  case status =>
    obtain ⟨done, err⟩ := clear
    exact ⟨s.ctrl, (s.acknowledge v).rej, s.draws, s.script, s.replies,
      by simp [State.writeReg, State.acknowledge, done, err]⟩
  case cmd => rw [State.writeReg_cmd_of_busy busy]; exact s.sameCommand_reject
  case len => rw [State.writeReg_len_of_busy busy]; exact s.sameCommand_reject
  all_goals exact .refl s

/-- While busy an access of the host, other than the soft reset, changes nothing of the command. -/
theorem State.exists_hostTurn_sameCommand (out : s.resetLine = false) {op : HostOp} (h : plainAccess op = true) :
    ∃ t, hostTurn op s = .next t ∧ s.SameCommand t := by
  have rejectsByte (off : Offset) (v : Byte) : s.rejects (.wrb off v) = true ∧ s.rejects (.rdb off) = true := by
    simp [State.rejects, State.busy, busy]
  cases op with
  | wr off v =>
    refine ⟨_, rfl, ?_⟩
    obtain ⟨r, rfl⟩ | ⟨unmapped, _⟩ := ctrlRegAt_cases off
    · rw [State.write32_offset out]
      exact State.sameCommand_writeReg busy clear h
    · rw [State.write32_unmapped out unmapped]
      exact s.sameCommand_reject
  | rd off =>
    refine ⟨_, rfl, State.SameCommand.reply ?_ _⟩
    obtain ⟨r, rfl⟩ | ⟨unmapped, _⟩ := ctrlRegAt_cases off
    · rw [State.read32_offset out]
      exact .refl s
    · rw [State.read32_unmapped out unmapped]
      exact s.sameCommand_reject_draw
  | wrb off v =>
    refine ⟨_, rfl, ?_⟩
    rw [State.write8_eq out, if_pos (rejectsByte off v).1]
    exact s.sameCommand_reject
  | rdb off =>
    refine ⟨_, rfl, State.SameCommand.reply ?_ _⟩
    rw [State.read8_eq out, if_pos (rejectsByte off 0).2]
    exact s.sameCommand_reject_draw
  | wrh off v =>
    refine ⟨_, rfl, ?_⟩
    rw [State.write16_eq out]
    exact s.sameCommand_reject
  | rdh off =>
    refine ⟨_, rfl, State.SameCommand.reply ?_ _⟩
    rw [State.read16_eq out]
    exact s.sameCommand_reject_draw
  | assertReset | releaseReset | wait | check | getBytes | storeIfPresent _ | waitIrq =>
    -- no access of the host
    cases h

end

/-! Accesses in a script. -/

theorem State.Change.script (h : s.Change t) : t.script = s.script := by cases h <;> simp

theorem State.read32_script (s : State) (off : Offset) : (s.read32 off).2.script = s.script := by
  rw [State.read32]
  (repeat' split) <;> rfl

theorem State.read8_script (s : State) (off : Offset) : (s.read8 off).2.script = s.script := by
  rw [State.read8]
  (repeat' split) <;> rfl

theorem State.read16_script (s : State) (off : Offset) : (s.read16 off).2.script = s.script := by
  rw [State.read16]
  split <;> rfl

/-- The operation is one access, or a change of the reset input: the host does not act on a value it reads. -/
def singleAccess : HostOp → Bool
  | .wr _ _ | .rd _ | .wrb _ _ | .rdb _ | .wrh _ _ | .rdh _ | .assertReset | .releaseReset => true
  | .wait | .check | .getBytes | .storeIfPresent _ | .waitIrq => false

theorem singleAccess_of_plainAccess {op : HostOp} (h : plainAccess op = true) : singleAccess op = true := by
  cases op with
  | wr _ _ | rd _ | wrb _ _ | rdb _ | wrh _ _ | rdh _ | assertReset | releaseReset => rfl
  | wait | check | getBytes | storeIfPresent _ | waitIrq => cases h

/-- A single access leaves the script as it is. -/
theorem hostTurn_script {op : HostOp} (h : singleAccess op = true) (run : hostTurn op s = .next t) :
    t.script = s.script := by
  cases op with
  | wr off v => cases run; exact (s.write32_change off v).script
  | wrb off v => cases run; exact (s.write8_change off v).script
  | wrh off v => cases run; exact (s.write16_change off v).script
  | rd off => cases run; exact s.read32_script off
  | rdb off => cases run; exact s.read8_script off
  | rdh off => cases run; exact s.read16_script off
  | assertReset => cases run; rfl
  | releaseReset => cases run; rfl
  | wait | check | getBytes | storeIfPresent _ | waitIrq =>
    -- the host acts on what it reads
    cases h

/-- Accesses made while a command is in execution come to the rest of the script with the command as it was. -/
theorem State.exists_after_accesses {ops : List HostOp} (plain : ∀ op ∈ ops, plainAccess op = true) {rest : List Event}
    (hs : s.script = ops.map .host ++ rest) (busy : s.phase = .busy) (clear : s.done = false ∧ s.err = false)
    (out : s.resetLine = false) : ∃ t, State.After ops.length s t ∧ s.SameCommand t ∧ t.script = rest := by
  induction ops generalizing s with
  | nil => exact ⟨s, rfl, .refl s, hs⟩
  | cons op ops ih =>
    rw [List.forall_mem_cons] at plain
    obtain ⟨access, plain⟩ := plain
    obtain ⟨t, run, same⟩ :=
      State.exists_hostTurn_sameCommand (s := s.instead (ops.map .host ++ rest)) busy clear out access
    have script := hostTurn_script (singleAccess_of_plainAccess access) run
    have same : s.SameCommand t := State.SameCommand.trans ⟨_, _, _, _, _, rfl⟩ same
    obtain ⟨phase, done, err, line⟩ :
        t.phase = s.phase ∧ t.done = s.done ∧ t.err = s.err ∧ t.resetLine = s.resetLine := by
      obtain ⟨_, _, _, _, _, rfl⟩ := same
      exact ⟨rfl, rfl, rfl, rfl⟩
    obtain ⟨u, after, same', script'⟩ := ih plain script (phase.trans busy) ⟨done.trans clear.1, err.trans clear.2⟩
      (line.trans out)
    exact ⟨u, (State.after_succ_iff ((step_of_host hs).trans run)).2 after, same.trans same', script'⟩

end Sys2Proof.Machine
end

section
/-! SUPPORT. Whatever comes next in the script, a command in execution ends (70_reset_and_hazards.md R200): one rule for
each event that can come first. -/

namespace Sys2Proof.Machine

open Sys2Proof

/-- With these events as the script, a command in execution ends, whatever the state. -/
def ScriptEnds (events : List Event) : Prop :=
  ∀ s : State, s.phase = .busy → s.resetLine = false → s.script = events → ∃ t, s.Reaches t ∧ t.phase = .idle

/-- A change that leaves the engine busy leaves it out of reset. -/
theorem State.Change.resetLine_of_busy {s t : State} (h : s.Change t) (out : s.resetLine = false)
    (busy : t.phase = .busy) : t.resetLine = false := by
  cases h with
  | hardReset => cases busy
  | released => rfl
  | same | rejected | acknowledged | enables | length | byte | accepted | softReset | illegal => exact out
  | completed => rw [State.finish_resetLine, out]

/-- After a step the command has ended, or it goes on with the script that the step left. -/
theorem ends_of_step {s t : State} (out : s.resetLine = false) (run : step s = .next t)
    (h : t.phase = .idle ∨ ScriptEnds t.script) : ∃ t, s.Reaches t ∧ t.phase = .idle := by
  cases phase : t.phase with
  | idle => exact ⟨t, .of_step run, phase⟩
  | busy =>
    obtain ⟨u, v, hv, change, hu⟩ := State.change_of_step run
    have out' : t.resetLine = false :=
      hu.resetLine.trans (change.resetLine_of_busy (hv.resetLine.trans out) (hu.phase.symm.trans phase))
    obtain idle | ends := h
    · cases idle.symm.trans phase
    · obtain ⟨w, reaches, idle⟩ := ends t phase out' rfl
      exact ⟨w, (State.Reaches.of_step run).trans reaches, idle⟩

/-- A turn of the engine ends the command (10_state.md R39). -/
theorem exists_engineTurn_idle {s : State} (busy : s.phase = .busy) (out : s.resetLine = false) :
    ∃ t, engineTurn s = .next t ∧ t.phase = .idle := by
  rw [engineTurn_of_busy busy out, complete]
  split
  · next i _ => exact ⟨_, exec_eq i s, s.finish_phase _⟩
  · exact ⟨_, rfl, rfl⟩

theorem scriptEnds_nil : ScriptEnds [] := by
  intro s busy out hs
  obtain ⟨t, run, idle⟩ := exists_engineTurn_idle busy out
  exact ends_of_step out ((step_of_nil hs).trans run) (.inl idle)

theorem scriptEnds_engine (rest : List Event) : ScriptEnds (.engine :: rest) := by
  intro s busy out hs
  obtain ⟨t, run, idle⟩ := exists_engineTurn_idle (s := s.instead rest) busy out
  exact ends_of_step out ((step_of_engine hs).trans run) (.inl idle)

section
variable {rest : List Event} (ends : ScriptEnds rest)
include ends

theorem scriptEnds_access {op : HostOp} (h : singleAccess op = true) : ScriptEnds (.host op :: rest) := by
  intro s _ out hs
  obtain ⟨t, run⟩ := step_next s
  have script : t.script = rest := hostTurn_script h ((step_of_host hs).symm.trans run)
  exact ends_of_step out run (.inr (script ▸ ends))

theorem scriptEnds_accesses {ops : List HostOp} (h : ∀ op ∈ ops, singleAccess op = true) :
    ScriptEnds (ops.map .host ++ rest) := by
  induction ops with
  | nil => exact ends
  | cons op ops ih =>
    rw [List.forall_mem_cons] at h
    exact scriptEnds_access (ih h.2) h.1

/-- A poll that finds `BUSY` is followed by a turn of the engine (log 5). -/
theorem scriptEnds_wait : ScriptEnds (.host .wait :: rest) := by
  intro s _ out hs
  refine ends_of_step out (step_of_host hs) (.inr ?_)
  rw [State.readThen_eq (s := s.instead rest) out]
  split
  · exact scriptEnds_engine _
  · exact ends

theorem scriptEnds_check : ScriptEnds (.host .check :: rest) := by
  intro s _ out hs
  refine ends_of_step out (step_of_host hs) (.inr ?_)
  rw [State.readThen_eq (s := s.instead rest) out]
  split
  · exact scriptEnds_access (scriptEnds_access scriptEnds_nil rfl) rfl
  · exact ends

theorem scriptEnds_getBytes : ScriptEnds (.host .getBytes :: rest) := by
  intro s _ out hs
  refine ends_of_step out (step_of_host hs) (.inr ?_)
  rw [State.readThen_eq (s := s.instead rest) out]
  refine scriptEnds_accesses ends fun op hop => ?_
  obtain ⟨k, _, rfl⟩ := List.mem_map.1 hop
  rfl

theorem scriptEnds_store (r : Reg) : ScriptEnds ((store r).map .host ++ rest) :=
  scriptEnds_access (scriptEnds_wait (scriptEnds_check (scriptEnds_getBytes ends))) rfl

theorem scriptEnds_storeIfPresent (r : Reg) : ScriptEnds (.host (.storeIfPresent r) :: rest) := by
  intro s _ out hs
  refine ends_of_step out (step_of_host hs) (.inr ?_)
  rw [State.readThen_eq (s := s.instead rest) out]
  split
  · exact scriptEnds_store ends r
  · exact ends

theorem scriptEnds_waitIrq : ScriptEnds (.host .waitIrq :: rest) := by
  intro s busy out hs
  have run := step_of_host hs
  rw [hostTurn] at run
  split at run
  · exact ends_of_step out run (.inr ends)
  · obtain ⟨t, turn, idle⟩ := exists_engineTurn_idle (s := (s.instead rest).before [.host .waitIrq]) busy out
    exact ends_of_step out (run.trans turn) (.inl idle)

end

theorem scriptEnds : ∀ events : List Event, ScriptEnds events
  | [] => scriptEnds_nil
  | .engine :: rest => scriptEnds_engine rest
  | .host op :: rest => by
    have ends := scriptEnds rest
    cases op with
    | wait => exact scriptEnds_wait ends
    | check => exact scriptEnds_check ends
    | getBytes => exact scriptEnds_getBytes ends
    | storeIfPresent r => exact scriptEnds_storeIfPresent ends r
    | waitIrq => exact scriptEnds_waitIrq ends
    | wr _ _ | rd _ | wrb _ _ | rdb _ | wrh _ _ | rdh _ | assertReset | releaseReset => exact scriptEnds_access ends rfl

end Sys2Proof.Machine
end

section
/-! PROOFS. A command in execution beside the host (20_memory.md R57, R60, R61; 70_reset_and_hazards.md R200). -/

namespace Sys2Proof.Machine

open Sys2Proof

/-- Settles O42: the accesses leave the command as it was, and its completion depends on nothing else. -/
theorem outcomeIsIndependentOfHostAccesses : Obligations.OutcomeIsIndependentOfHostAccesses := by
  intro ops s u hs busy out plain completes
  obtain ⟨t, accesses, same, script⟩ := State.exists_after_accesses (s := s.before (ops.map .host ++ [.engine]))
    (rest := .engine :: s.script) plain (by simp) busy (hs.busy_clear busy) out
  have same : s.SameCommand (t.instead s.script) :=
    (State.SameCommand.trans ⟨_, _, _, _, _, rfl⟩ same).trans ⟨_, _, _, _, _, rfl⟩
  obtain ⟨v, run, outcome⟩ := same.engineTurn busy out ((State.completes_iff s u).1 completes)
  refine ⟨v, accesses.trans ((State.after_succ_iff ((step_of_engine script).trans run)).2 rfl), ?_⟩
  obtain ⟨_, _, _, _, _, rfl⟩ := outcome
  exact ⟨rfl, rfl, rfl, rfl, rfl, rfl, rfl, rfl, rfl, rfl⟩

/-- Settles O55, by the rule for the script that the state has. -/
theorem everyAcceptedCommandEnds : Obligations.EveryAcceptedCommandEnds :=
  fun s busy out => scriptEnds s.script s busy out rfl

end Sys2Proof.Machine
end

section
/-! SUPPORT. A list of host operations as a run (43_host_sequences.md R165), whatever is to follow it in the script:
single operations, and lists one after the other. -/

namespace Sys2Proof.Machine

open Sys2Proof

/-- The host's operations lead from `s` to `t`, with what was to follow them still to come. -/
def State.Runs (s : State) (ops : List HostOp) (t : State) : Prop :=
  ∀ rest, State.Reaches (s.instead (ops.map .host ++ rest)) (t.instead rest)

variable {s t u : State} {ops ops' : List HostOp}

theorem State.Runs.reaches (h : s.Runs ops t) : State.Reaches (s.before (ops.map .host)) (t.instead s.script) :=
  h s.script

theorem State.Runs.refl (s : State) : s.Runs [] s := fun rest => .refl (s.instead rest)

theorem State.Runs.append (h : s.Runs ops t) (h' : t.Runs ops' u) : s.Runs (ops ++ ops') u := by
  intro rest
  rw [List.map_append, List.append_assoc]
  exact (h _).trans (h' rest)

theorem State.Runs.of_does {op : HostOp} (h : ∀ rest, (s.instead rest).Does op (t.instead rest)) : s.Runs [op] t :=
  fun rest => .of_step (h rest)

/-- The host can go on: the engine is idle and out of reset without a pending failure, with legal parameters. -/
structure State.Ready (s : State) : Prop where
  idle : s.phase = .idle
  noErr : s.err = false
  out : s.resetLine = false
  legal : s.params.legal = true

theorem State.Ready.cap (h : s.Ready) : s.params.bufBytes ≤ 61440 := by
  obtain ⟨_, _, cap⟩ := (Params.legal_iff _).1 h.legal
  exact cap

end Sys2Proof.Machine
end

section
/-! SUPPORT. A command that the host performs (43_host_sequences.md R166): its word accepted, its completion in the turn
of the engine after the poll that finds `BUSY` (log 5), and an error check that passes. -/

namespace Sys2Proof.Machine

open Sys2Proof

variable {s : State} {i : Instr} {ws : List Write}

/-- The state after a command that the host has performed with success; only what the host has read is left open. -/
def State.performed (s : State) (i : Instr) (ws : List Write) (replies : List Reply) : State :=
  { s.succeed ws with cmdReg := encode i, replies := replies }

/-- A command word accepted, and whatever environment it is completed in. -/
def State.acceptIn (w : Word) (script : List Event) (replies : List Reply) (s : State) : State :=
  { s.accept w with script := script, replies := replies }

/-- The writes of a command do not depend on what acceptance and the environment set. -/
theorem State.succeed_acceptIn (s : State) (ws : List Write) (w : Word) (script : List Event) (replies : List Reply) :
    (s.acceptIn w script replies).succeed ws =
      { s.succeed ws with cmdReg := w, script := script, replies := replies } := by
  have writes : ws.foldl State.apply (s.acceptIn w script replies) =
      (ws.foldl State.apply s).acceptIn w script replies :=
    List.foldl_hom (State.acceptIn w script replies) fun t write => by cases write <;> rfl
  rw [State.succeed, writes]
  rfl

/-- The outcome of a command is that of its operands at acceptance (10_state.md R38). -/
theorem commandResult_acceptIn (i : Instr) (s : State) (w : Word) (script : List Event) (replies : List Reply) :
    commandResult i (s.acceptIn w script replies) = commandResult i s := by
  cases i <;> rfl

/-- The engine's turn after acceptance, for a command that succeeds. -/
theorem engineTurn_acceptIn (out : s.resetLine = false) (h : commandResult i s = .success ws) (script : List Event)
    (replies : List Reply) :
    engineTurn (s.acceptIn (encode i) script replies) = .next ((s.performed i ws replies).instead script) := by
  have decoded : decode (s.acceptIn (encode i) script replies).cmdReg = .ok i := (decode_eq_ok_iff_encode _ i).2 rfl
  rw [engineTurn_of_ok (s := s.acceptIn (encode i) script replies) rfl out decoded, exec_eq,
    commandResult_acceptIn, h, State.finish_success, State.succeed_acceptIn]
  rfl

theorem State.Ready.performed (h : s.Ready) (i : Instr) (ws : List Write) (replies : List Reply) :
    (s.performed i ws replies).Ready where
  idle := rfl
  noErr := (s.succeed_err ws).trans h.noErr
  out := (s.succeed_resetLine ws).trans h.out
  legal := (congrArg Params.legal (s.succeed_params ws)).trans h.legal

theorem State.does_wait (out : s.resetLine = false) :
    s.Does .wait (if s.busy then (s.reply (.word s.statusWord)).before [.engine, .host .wait]
      else s.reply (.word s.statusWord)) := by
  obtain ⟨busy, _⟩ := s.statusWord_bits
  rw [State.does_iff, hostTurn, State.readThen_eq out, State.readReg, busy]

/-- A poll of an idle engine (00_scope.md R10). -/
theorem State.runs_wait_of_idle (idle : s.phase = .idle) (out : s.resetLine = false) :
    s.Runs [.wait] (s.reply (.word s.statusWord)) := by
  refine .of_does fun rest => ?_
  have wait := State.does_wait (s := s.instead rest) out
  rwa [State.busy, State.instead_phase, idle] at wait

theorem State.runs_check (noErr : s.err = false) (out : s.resetLine = false) :
    s.Runs [.check] (s.reply (.word s.statusWord)) := by
  refine .of_does fun rest => ?_
  have check := State.does_check (s := s.instead rest) out
  rwa [State.instead_err, noErr] at check

/-- An accepted command that succeeds is over at the end of the wait, which finds `BUSY` once. -/
theorem State.runs_wait_of_accept (out : s.resetLine = false) (h : commandResult i s = .success ws) :
    ∃ replies, (s.accept (encode i)).Runs [.wait] (s.performed i ws replies) := by
  let polled := Reply.word (s.accept (encode i)).statusWord :: s.replies
  have idle : (s.performed i ws polled).Runs [.wait] _ :=
    State.runs_wait_of_idle rfl ((s.succeed_resetLine ws).trans out)
  refine ⟨.word (s.performed i ws polled).statusWord :: polled, fun rest => ?_⟩
  have poll := State.does_wait (s := (s.accept (encode i)).instead rest) out
  have turn := (State.completes_iff _ _).2 (engineTurn_acceptIn out h (.host .wait :: rest) polled)
  exact (State.Reaches.of_step poll).trans ((State.Reaches.of_step turn).trans (idle rest))

/-- A command that succeeds is performed, and the sequence goes on. -/
theorem State.Ready.runs_perform (ready : s.Ready) (h : commandResult i s = .success ws) :
    ∃ replies, s.Runs (perform i) (s.performed i ws replies) := by
  obtain ⟨replies, wait⟩ := State.runs_wait_of_accept ready.out h
  have after := ready.performed i ws replies
  have issue : s.Runs [issue i] (s.accept (encode i)) :=
    .of_does fun rest => State.does_cmd_of_idle (s := s.instead rest) ready.out ready.idle ready.noErr _
  exact ⟨_, issue.append (wait.append (State.runs_check after.noErr after.out))⟩

end Sys2Proof.Machine
end

section
/-! SUPPORT. `PUTBYTES` and `LOAD`, `GETBYTES` and `STORE` (43_host_sequences.md R160, R161). -/

namespace Sys2Proof.Machine

open Sys2Proof

variable {s : State}

theorem State.does_getBytes (out : s.resetLine = false) :
    s.Does .getBytes ((s.reply (.word s.len)).before ((getReads s.len.toNat).map .host)) := by
  rw [State.does_iff, hostTurn, State.readThen_eq out, State.readReg]

section
variable (ready : s.Ready)
include ready

/-- The byte writes, from index `k` up. -/
theorem State.Ready.runs_putFrom (bytes : List Byte) {k : Nat} (room : k + bytes.length ≤ s.params.bufBytes) :
    s.Runs (putFrom k bytes) { s with buf := Memory.writeAll s.buf k bytes } := by
  induction bytes generalizing s k with
  | nil => exact .refl s
  | cons b bytes ih =>
    rw [List.length_cons] at room
    have here : k < s.params.bufBytes := by omega
    have rest : k + 1 + bytes.length ≤ s.params.bufBytes := by omega
    have write : s.Runs [.wrb (windowOffset k) b] { s with buf := Memory.write s.buf k b } :=
      .of_does fun rest => State.does_write_byte (s := s.instead rest) ready.out ready.idle ready.cap here b
    exact write.append (ih (s := { s with buf := Memory.write s.buf k b })
      ⟨ready.idle, ready.noErr, ready.out, ready.legal⟩ rest)

/-- A string that fits is in the buffer and its length in `LEN` (R160). -/
theorem State.Ready.runs_putBytes {bytes : List Byte} (room : bytes.length ≤ s.params.bufBytes) :
    s.Runs (putBytes s.params bytes) (s.apply (.string bytes)) := by
  rw [putBytes_of_le room]
  refine (ready.runs_putFrom bytes (by omega)).append (.of_does fun rest => ?_)
  exact State.does_len_of_idle (s := State.instead { s with buf := _ } rest) ready.out ready.idle _

theorem State.Ready.apply (w : Write) : (s.apply w).Ready := by
  cases w <;> exact ⟨ready.idle, ready.noErr, ready.out, ready.legal⟩

/-- A string that fits has its length in `LEN`. -/
theorem State.Ready.len_apply_string {bytes : List Byte} (room : bytes.length ≤ s.params.bufBytes) :
    (s.apply (.string bytes)).len.toNat = bytes.length := by
  have cap := ready.cap
  rw [State.apply_string_len, BitVec.toNat_ofNat, Nat.mod_eq_of_lt (by omega)]

/-- `LOAD r, s` of a string that fits the buffer and the width (R160). -/
theorem State.Ready.runs_load (r : Reg) {bytes : List Byte} (room : bytes.length ≤ s.params.bufBytes)
    (narrow : beInt bytes < 2 ^ s.params.nbits) :
    ∃ replies, s.Runs (load s.params r bytes)
      ((s.apply (.string bytes)).performed (.ldi r) [.reg r (.int (beInt bytes))] replies) := by
  have len := ready.len_apply_string room
  have value : beInt ((s.apply (.string bytes)).memRead (s.apply (.string bytes)).len.toNat) = beInt bytes := by
    rw [len, State.memRead_apply_string]
  have operand := State.loadOperand_ok (s := s.apply (.string bytes)) (by rwa [len]) (by rwa [value])
  have result : commandResult (.ldi r) (s.apply (.string bytes)) = .success [.reg r (.int (beInt bytes))] := by
    rw [commandResult, ldiResult, operand, value]
  obtain ⟨replies, performs⟩ := (ready.apply (.string bytes)).runs_perform result
  exact ⟨replies, (ready.runs_putBytes room).append performs⟩

/-- The byte reads at some indices, in order. -/
theorem State.Ready.runs_reads (ks : List Nat) (below : ∀ k ∈ ks, k < s.params.bufBytes) :
    s.Runs (ks.map fun k => .rdb (windowOffset k))
      { s with replies := (ks.map fun k => Reply.byte (s.bufByte k)).reverse ++ s.replies } := by
  induction ks generalizing s with
  | nil => exact .refl s
  | cons k ks ih =>
    rw [List.forall_mem_cons] at below
    have read : s.Runs [.rdb (windowOffset k)] (s.reply (.byte (s.bufByte k))) :=
      .of_does fun rest => State.does_read_byte (s := s.instead rest) ready.out ready.idle ready.cap below.1
    have reads := ih (s := s.reply (.byte (s.bufByte k))) ⟨ready.idle, ready.noErr, ready.out, ready.legal⟩ below.2
    rw [List.map_cons, List.map_cons, List.reverse_cons, List.append_assoc]
    exact read.append reads

/-- `GETBYTES` with a length within the buffer (R161). -/
theorem State.Ready.runs_getBytes (room : s.len.toNat ≤ s.params.bufBytes) :
    s.Runs [.getBytes]
      { s with replies := ((s.memRead s.len.toNat).map .byte).reverse ++ .word s.len :: s.replies } := by
  intro rest
  have reads := State.Ready.runs_reads (s := s.reply (.word s.len)) ⟨ready.idle, ready.noErr, ready.out, ready.legal⟩
    (List.range s.len.toNat) (fun k hk => (List.mem_range.1 hk).trans_le room) rest
  have length := State.does_getBytes (s := s.instead rest) ready.out
  rw [State.instead_len, getReads, min_eq_left (room.trans ready.cap)] at length
  rw [State.memRead, List.map_map]
  exact (State.Reaches.of_step length).trans reads

/-- `STORE r` of a natural value that fits the width (R161). -/
theorem State.Ready.runs_store {r : Reg} {v : Nat} (hr : s.reg r = .int v) (hv : v < 2 ^ s.params.nbits) :
    ∃ t old, s.Runs (store r) t ∧ t.Ready ∧ t.regs = s.regs ∧
      t.replies =
        ((intToBytes v).map Reply.byte).reverse ++ .word (BitVec.ofNat 32 (intToBytes v).length) :: old := by
  have result : commandResult (.sti r) s = .success [.string (intToBytes v)] := by
    have natural : ¬ (v : Int) < 0 := by omega
    simp only [commandResult, stiResult, hr, if_neg natural, Int.toNat_natCast]
  obtain ⟨old, performs⟩ := ready.runs_perform result
  obtain ⟨-, room, -⟩ := length_intToBytes_le ready.legal hv
  have after := ready.performed (.sti r) [.string (intToBytes v)] old
  have len := ready.len_apply_string room
  have string : (s.performed (.sti r) [.string (intToBytes v)] old).memRead
      (s.apply (.string (intToBytes v))).len.toNat = intToBytes v := by
    rw [len]
    exact s.memRead_apply_string (intToBytes v)
  refine ⟨_, old, performs.append (after.runs_getBytes (len.trans_le room)),
    ⟨after.idle, after.noErr, after.out, after.legal⟩, rfl, ?_⟩
  exact congrArg (fun bytes => (bytes.map Reply.byte).reverse ++ _) string

/-- The data loaded into `A`, a command on it with its result in `X`, and the result stored (R162, R163). -/
theorem State.Ready.runs_load_perform_store {data : List Byte} (room : data.length ≤ s.params.bufBytes)
    (narrow : beInt data < 2 ^ s.params.nbits) {i : Instr} {v : Nat} (hv : v < 2 ^ s.params.nbits)
    (result : ∀ t : State, t.reg .a = .int (beInt data) → (∀ q, q ≠ .a → t.reg q = s.reg q) →
      commandResult i t = .success [.reg .x (.int v)]) :
    ∃ t old, s.Runs (load s.params .a data ++ perform i ++ store .x) t ∧ t.Ready ∧
      t.replies =
        ((intToBytes v).map Reply.byte).reverse ++ .word (BitVec.ofNat 32 (intToBytes v).length) :: old := by
  obtain ⟨read, loads⟩ := ready.runs_load .a room narrow
  have loaded := (ready.apply (.string data)).performed (.ldi .a) [.reg .a (.int (beInt data))] read
  obtain ⟨read', performs⟩ := loaded.runs_perform
    (result _ (s.regs.get_set_same .a _) fun q hq => s.regs.get_set_other _ hq)
  have computed := loaded.performed i [.reg .x (.int v)] read'
  obtain ⟨t, old, stores, ends, _, replies⟩ := computed.runs_store (r := .x) (BigRegs.get_set_same _ .x _) hv
  exact ⟨t, old, (loads.append performs).append stores, ends, replies⟩

end

end Sys2Proof.Machine
end

section
/-! PROOFS. The host sequences (43_host_sequences.md R160 to R163). -/

namespace Sys2Proof.Machine

open Sys2Proof

/-- Settles O56: the string is put, and the load succeeds on it. -/
theorem loadSequencePutsTheValueInTheRegister : Obligations.LoadSequencePutsTheValueInTheRegister := by
  intro s r bytes hs idle noErr out room narrow
  have ready : s.Ready := ⟨idle, noErr, out, hs.params_legal⟩
  obtain ⟨replies, loads⟩ := ready.runs_load r room narrow
  exact ⟨_, loads.reaches, rfl, s.regs.get_set_same r _, fun q hq => s.regs.get_set_other _ hq,
    s.memRead_apply_string bytes, ready.len_apply_string room, rfl, rfl, noErr⟩

/-- Settles O57: the store succeeds, and the host reads back the length and the string stored. -/
theorem storeSequenceHandsBackTheString : Obligations.StoreSequenceHandsBackTheString := by
  intro s r v hs idle noErr out hr
  have ready : s.Ready := ⟨idle, noErr, out, hs.params_legal⟩
  obtain ⟨t, old, stores, ends, regs, replies⟩ := ready.runs_store hr (hs.nat_lt hr)
  exact ⟨_, old, stores.reaches, rfl, regs, replies, ends.idle, ends.noErr⟩

/-- Settles O58: the load, the transform and the store each succeed, the transform because the data is below the
modulus, which fits the width, and so does the result. -/
theorem transformSequencesComputeTheTransforms : Obligations.TransformSequencesComputeTheTransforms := by
  intro s data n e hs idle noErr out hn room small
  have ready : s.Ready := ⟨idle, noErr, out, hs.params_legal⟩
  have width : n < 2 ^ s.params.nbits := hs.nat_lt hn
  have resultWidth : beInt data ^ e % n < 2 ^ s.params.nbits := (Nat.mod_lt _ (by omega)).trans width
  refine ⟨fun he => ?_, fun hd => ?_⟩
  · obtain ⟨t, old, runs, ends, replies⟩ :=
      ready.runs_load_perform_store room (small.trans width) (i := .pub .x .a) resultWidth fun t ha others => by
        have operands := State.publicOperands_ok ha ((others .n (by decide)).trans hn)
          ((others .e (by decide)).trans he) small
        rw [commandResult, pubResult, operands, ← modexp_eq]
    exact ⟨_, old, runs.reaches, rfl, replies, ends.noErr⟩
  · obtain ⟨t, old, runs, ends, replies⟩ :=
      ready.runs_load_perform_store room (small.trans width) (i := .prv .x .a) resultWidth fun t ha others => by
        have operands := State.privateOperands_ok ha ((others .n (by decide)).trans hn)
          ((others .d (by decide)).trans hd) small
        rw [commandResult, prvResult, operands, ← modexp_eq]
    exact ⟨_, old, runs.reaches, rfl, replies, ends.noErr⟩

end Sys2Proof.Machine
end
